-- ==== Sys2Proof/Word.lean ====
section
/-! DEFINITION. The word types of KSR-CORE: bytes, 16-bit immediates, 32-bit command and response words, 64-bit lanes
(spec 00_scope.md R8, R14, R15). -/

namespace Sys2Proof

/-- One byte of a message, a result, `BUF` or `SREG` (R14). -/
abbrev Byte := BitVec 8

/-- A 16-bit value: the field `IMM`, a status register, `DATA` of a response (R35, R71, R78). -/
abbrev Half := BitVec 16

/-- A 32-bit command or response word (R70, R78). -/
abbrev Word := BitVec 32

/-- One 64-bit lane of the sponge state (R20); bit 63 is its most significant bit (R14). -/
abbrev Lane := BitVec 64

/-- The sponge state `A[0..24]` (R20). -/
abbrev Lanes := Vector Lane 25

/-- A 32-byte scalar, byte 0 least significant (R24, R53). -/
abbrev Scalar := Vector Byte 32

end Sys2Proof
end

