-- ==== Sys2Proof/Machine/Operands.lean ====
section
/-! DEFINITION. The fields of a command word and the readings of its immediate (30_encoding.md R71, R72), and the byte-order
helpers `LE`, `LEbytes`, `LE64` (00_scope.md R16, 20_memory.md R52, R53). -/

namespace Sys2Proof.Machine

/-- `OPC`, bits 31:24 (R71). -/
def opcField (w : Word) : Byte := w.extractLsb' 24 8

/-- `Z`, bits 23:16 (R71). -/
def zField (w : Word) : Byte := w.extractLsb' 16 8

/-- `IMM`, bits 15:0 (R71). -/
def immField (w : Word) : Half := w.extractLsb' 0 16

/-- The command word with opcode `opc`, `Z` = 0 and immediate `imm` (R71). -/
def commandWord (opc : Byte) (imm : Half) : Word := opc ++ 0#8 ++ imm

/-- The reading of `IMM` by `HSTART`: `sext_16(IMM)`, an integer in −32768..32767 (R72 (a)). -/
def immLength (imm : Half) : Int := imm.toInt

/-- The reading of `IMM` by `PUSH`: `IMM[7:0]` (R72 (b)). -/
def immByte (imm : Half) : Byte := imm.extractLsb' 0 8

/-- `IMM[15:8]`, which `PUSH` requires to be zero (R72 (b)). -/
def immHighByte (imm : Half) : Byte := imm.extractLsb' 8 8

/-- The reading of `IMM` by `STAT`: `zext_16(IMM)` (R72 (c)). -/
def immSelector (imm : Half) : Nat := imm.toNat

/-- The immediate that encodes the length `len`: `len mod 2^16` (R113). -/
def lengthImm (len : Int) : Half := BitVec.ofInt 16 len

/-- `LE(bytes)`: the unsigned integer of a byte string, first byte least significant (R16, R53). -/
def leNat : List Byte → Nat
  | [] => 0
  | b :: bs => b.toNat + 256 * leNat bs

/-- `LEbytes_n(v)`: the `n`-byte little-endian string of `v` (R16). -/
def leBytes : Nat → Nat → List Byte
  | 0, _ => []
  | n + 1, v => BitVec.ofNat 8 v :: leBytes n (v / 256)

/-- `LE64(b0, …, b7)` (R52). -/
def le64 (bs : List Byte) : Lane := BitVec.ofNat 64 (leNat bs)

/-- Byte `j` of a lane: `lane[8j+7:8j]` (R14, R22). -/
def laneByte (l : Lane) (j : Nat) : Byte := l.extractLsb' (8 * j) 8

/-- A lane with byte `j` replaced by `b` (R22, R59). -/
def setLaneByte (l : Lane) (j : Nat) (b : Byte) : Lane :=
  (l &&& ~~~(0xFF#64 <<< (8 * j))) ||| (b.setWidth 64 <<< (8 * j))

end Sys2Proof.Machine
end

