-- ==== Sys2Proof/Syntax.lean ====
section
/-! DEFINITION. The commands of KSR-CORE, one constructor per row of spec/opcode_table.json (30_encoding.md R73). `STAT sel`
has seven rows there, one per legal selector, and so seven constructors here (R35 names the registers). -/

namespace Sys2Proof

/-- A legal command with its operand (R72, R73, R82). -/
inductive Instr where
  /-- `NOP` (R171). -/
  | nop
  /-- `HSTART len`, `len` the signed reading of `IMM` (R72 (a), R113). -/
  | hstart (len : Int)
  /-- `PSTART` (R172). -/
  | pstart
  /-- `RSTART` (R152). -/
  | rstart
  /-- `PUSH b` (R72 (b), R114, R153, R173). -/
  | push (b : Byte)
  /-- `FIN` (R116, R154, R174). -/
  | fin
  /-- `FINR` (R155). -/
  | finr
  /-- `POP` (R175). -/
  | pop
  /-- `STAT 0`: read `STATUS` (R35, R176). -/
  | statStatus
  /-- `STAT 1`: read `CAUSE` (R35, R176). -/
  | statCause
  /-- `STAT 2`: read `LEN` (R35, R176). -/
  | statLen
  /-- `STAT 3`: read `RATE` (R35, R176). -/
  | statRate
  /-- `STAT 4`: read `FILL` (R35, R176). -/
  | statFill
  /-- `STAT 5`: read `OUTP` (R35, R176). -/
  | statOutp
  /-- `STAT 6`: read `ID` (R35, R176). -/
  | statId
  /-- `END` (R177). -/
  | endCall
  deriving DecidableEq, Repr

end Sys2Proof
end

