-- ==== Sys2Proof/WellFormed.lean ====
section
/-! DEFINITION. Which syntax has an encoding: every command, `HSTART len` only for `len` in −32768..32767, the range of the
16-bit two's-complement field (30_encoding.md R72 (a)). The byte of `PUSH` is a byte by its type (R72 (b)), and the
selectors of `STAT` are the seven that exist (R35, R72 (c)). -/

namespace Sys2Proof

/-- The operand fits its field (R72). -/
def Instr.wf : Instr → Bool
  | .hstart len => decide (-32768 ≤ len ∧ len ≤ 32767)
  | .nop => true
  | .pstart => true
  | .rstart => true
  | .push _ => true
  | .fin => true
  | .finr => true
  | .pop => true
  | .statStatus => true
  | .statCause => true
  | .statLen => true
  | .statRate => true
  | .statFill => true
  | .statOutp => true
  | .statId => true
  | .endCall => true

end Sys2Proof
end

