-- ==== Sys2Proof/Decode.lean ====
section
/-! DEFINITION. The decoder, total on 32-bit words, and the encoder (30_encoding.md R70 to R77, R82). A word that is no
command is refused with the name of the reserved pattern it shows (R76); the machine treats all of them alike, as
`illegal` (R75). -/

namespace Sys2Proof

open Machine

/-- Why a word is illegal: the reserved patterns of R76. Which name a word gets is told by the order of R82; all are the
one `illegal` of the spec, so nothing depends on it. -/
inductive Illegal where
  /-- `Z` is not zero (R74, R82). -/
  | nonzeroZ (z : Byte)
  /-- `OPC` in 0x0A..0xFF (R73, R76). -/
  | reservedOpcode (opc : Byte)
  /-- A command without operand has a nonzero `IMM` (R72 (d)). -/
  | nonzeroImm (imm : Half)
  /-- `PUSH` with `IMM[15:8]` nonzero (R72 (b)). -/
  | pushHighByte (high : Byte)
  /-- `STAT` with a selector in 7..65535 (R35, R72 (c)). -/
  | noSuchStatusRegister (sel : Half)
  deriving DecidableEq, Repr

/-- A command without operand: `IMM` must be zero (R72 (d)). -/
def decodePlain (i : Instr) (imm : Half) : Except Illegal Instr :=
  if imm = 0#16 then .ok i else .error (.nonzeroImm imm)

/-- `PUSH`: `IMM[15:8]` must be zero (R72 (b)). -/
def decodePush (imm : Half) : Except Illegal Instr :=
  if immHighByte imm = 0#8 then .ok (.push (immByte imm)) else .error (.pushHighByte (immHighByte imm))

/-- `STAT sel`: `sel` must be in 0..6 (R72 (c)). -/
def decodeStat (imm : Half) : Except Illegal Instr :=
  match immSelector imm with
  | 0 => .ok .statStatus
  | 1 => .ok .statCause
  | 2 => .ok .statLen
  | 3 => .ok .statRate
  | 4 => .ok .statFill
  | 5 => .ok .statOutp
  | 6 => .ok .statId
  | _ => .error (.noSuchStatusRegister imm)

/-- The case split on `OPC` of the decode procedure (R73, R82). -/
def decodeOpcode (opc : Byte) (imm : Half) : Except Illegal Instr :=
  match opc.toNat with
  | 0x00 => decodePlain .nop imm
  | 0x01 => .ok (.hstart (immLength imm))
  | 0x02 => decodePlain .pstart imm
  | 0x03 => decodePlain .rstart imm
  | 0x04 => decodePush imm
  | 0x05 => decodePlain .fin imm
  | 0x06 => decodePlain .finr imm
  | 0x07 => decodePlain .pop imm
  | 0x08 => decodeStat imm
  | 0x09 => decodePlain .endCall imm
  | _ => .error (.reservedOpcode opc)

/-- The decode procedure, total on 32-bit words (R82). -/
def decode (w : Word) : Except Illegal Instr :=
  if zField w = 0#8 then decodeOpcode (opcField w) (immField w) else .error (.nonzeroZ (zField w))

/-- `OPC` of a command (R73). -/
def opcodeOf : Instr → Byte
  | .nop => 0x00#8
  | .hstart _ => 0x01#8
  | .pstart => 0x02#8
  | .rstart => 0x03#8
  | .push _ => 0x04#8
  | .fin => 0x05#8
  | .finr => 0x06#8
  | .pop => 0x07#8
  | .statStatus => 0x08#8
  | .statCause => 0x08#8
  | .statLen => 0x08#8
  | .statRate => 0x08#8
  | .statFill => 0x08#8
  | .statOutp => 0x08#8
  | .statId => 0x08#8
  | .endCall => 0x09#8

/-- `IMM` of a command (R72, R73). -/
def immediateOf : Instr → Half
  | .nop => 0#16
  | .hstart len => lengthImm len
  | .pstart => 0#16
  | .rstart => 0#16
  | .push b => b.setWidth 16
  | .fin => 0#16
  | .finr => 0#16
  | .pop => 0#16
  | .statStatus => 0#16
  | .statCause => 1#16
  | .statLen => 2#16
  | .statRate => 3#16
  | .statFill => 4#16
  | .statOutp => 5#16
  | .statId => 6#16
  | .endCall => 0#16

/-- The command word of a command (R71, R73). -/
def encode (i : Instr) : Word := commandWord (opcodeOf i) (immediateOf i)

/-- R74 as it stands: the words that are legal, told by their fields without the decoder. -/
def legalWord (w : Word) : Prop :=
  zField w = 0#8 ∧
    ((opcField w ∈ [0x00#8, 0x02#8, 0x03#8, 0x05#8, 0x06#8, 0x07#8, 0x09#8] ∧ immField w = 0#16) ∨
      opcField w = 0x01#8 ∨
      (opcField w = 0x04#8 ∧ (immField w).toNat ≤ 0x00FF) ∨
      (opcField w = 0x08#8 ∧ (immField w).toNat ≤ 0x0006))

/-- The instruction the decoder reads from an instruction of `nbits` bits `w` (bit 0 the least significant); a command is
one 32-bit parallel word and has no byte order (R54, R70). -/
def decodeTableWord (nbits w : Nat) : Option Instr :=
  (decode (BitVec.ofNat 32 (w % 2 ^ nbits))).toOption

end Sys2Proof
end

