-- ==== Sys2Proof/Config.lean ====
section
/-! DEFINITION. The implementation parameters of spec 00_scope.md R8 (fixed by the source) and R9 (decided by the spec).
The tables `RC`, `ROTC`, `PILN` (and with them `ROUNDS`), `L` and `MU` (and the limb radix) stand beside the functions
that read them, in Sys2Proof/Machine/Permutation.lean and Sys2Proof/Machine/Reducer.lean. The spec leaves no value open that a step depends
on, so there is no free value here; the open parameters `N_INST`, `T_*` and `CT` (R9, R241) concern other blocks and time. -/

namespace Sys2Proof.Config

/-- `STATE_BYTES`: the full state width in bytes (R8). -/
abbrev stateBytes : Nat := 200

/-- `LEN_MAX_HALF`: the largest length that is not the full width (R8). -/
abbrev lenMaxHalf : Int := 100

/-- `PAD_FIRST`: the marker byte after the tail (R8). -/
abbrev padFirst : Byte := 0x01#8

/-- `PAD_LAST`: the bit ORed into the last rate byte (R8). -/
abbrev padLast : Byte := 0x80#8

/-- `SCALAR_BYTES`: the size of a scalar and of the reducer's operand (R8). -/
abbrev scalarBytes : Nat := 32

/-- `H2S_LEN`: the digest length used by hash-to-scalar (R8). -/
abbrev h2sLen : Nat := 32

/-- `BUF_CAP`: the working buffer's capacity in bytes (R9). -/
abbrev bufCap : Nat := 144

/-- `RATE_FULL`: the rate for the full-width digest length 200 (R9). -/
abbrev rateFull : Int := 136

/-- `CORE_ID`: the constant read through `SR6` (R9, R35). -/
abbrev coreId : Half := 0x4B01#16

end Sys2Proof.Config
end

