-- ==== Sys2Proof/Machine/State.lean ====
section
/-! DEFINITION. The state of KSR-CORE as plain data: every register and store of spec 10_state.md R20 to R38, the response
channel of R42, and, as the model's own field, what the host does at the ports (notes/assumptions/1.md). -/

namespace Sys2Proof.Machine

/-- `PHASE`: where the block is in a call (R29). -/
inductive Phase where
  /-- No call (0). -/
  | idle
  /-- Input bytes are being taken (1). -/
  | absorb
  /-- A result is available to `POP` (2). -/
  | out
  /-- A misuse fault was taken; sticky (3). -/
  | fault
  deriving DecidableEq, Repr

/-- `MODE`: which function the current call computes (R28). -/
inductive Mode where
  /-- No call (0). -/
  | none
  /-- Sponge hash, with or without the final reduction (1). -/
  | hash
  /-- Raw permutation (2). -/
  | perm
  /-- Raw reduction (3). -/
  | red
  deriving DecidableEq, Repr

/-- `OSRC`: which store `POP` reads (R33). -/
inductive Source where
  /-- The byte view `ST` of the lanes (0). -/
  | state
  /-- `SREG` (1). -/
  | scalar
  deriving DecidableEq, Repr

/-- `CAUSE`: the misuse fault taken (R34, R201). Codes 11..15 are never written by any rule and are left out, as
93_implementation_defined.md U4 allows. -/
inductive Cause where
  /-- 0: no fault taken. -/
  | none
  /-- 1: `HSTART` with `len` ≤ 0 (R202). -/
  | lenNonpos
  /-- 2: `HSTART` with `len` > 100 and `len` ≠ 200 (R203). -/
  | lenRange
  /-- 3: `HSTART` whose rate is 0 (R204). -/
  | rateZero
  /-- 4: `HSTART` whose rate would overflow the buffer (R205). -/
  | bufOvf
  /-- 5: `HSTART` with `len` not a multiple of 8 (R206). -/
  | lenAlign
  /-- 6: the word is no command (R207). -/
  | illegal
  /-- 7: command out of its phase or mode (R208). -/
  | seq
  /-- 8: operand of a raw call too long or too short (R209). -/
  | oplen
  /-- 9: `FINR` with `LEN` ≠ 32 (R210). -/
  | finrLen
  /-- 10: `POP` with no result byte left (R211). -/
  | outEmpty
  deriving DecidableEq, Repr

/-- The byte-indexed stores (R50). -/
inductive Store where
  /-- The byte view of the lanes, 200 bytes (R22). -/
  | st
  /-- The working buffer, 144 bytes (R23). -/
  | buf
  /-- The scalar register, 32 bytes (R24). -/
  | sreg
  deriving DecidableEq, Repr

/-- What the host drives on the input ports at one moment (R42). -/
structure Pins where
  /-- `rst`. -/
  rst : Bool
  /-- `cmd` where `cmd_valid` = 1, else nothing. -/
  cmd : Option Word
  /-- `rsp_ready`. -/
  rspReady : Bool
  deriving DecidableEq, Repr

/-- The faults of the MODEL, not of the block: a misuse fault is a next state (R213). Both are safe: no state that meets
`Sys2Proof.Inv` raises one. -/
inductive Fault where
  /-- Raised by the store primitives for an index outside the store. R59: never generated, "a model should nevertheless
  make an out-of-range index a fault of the model and not a wrap". Safe. -/
  | outOfRange (store : Store) (index : Nat)
  /-- Raised by `PUSH` and `FIN` in `PHASE` = `ABSORB` with `MODE` = `NONE`, which R40 (a) and R178 say does not occur.
  Safe. -/
  | absorbWithoutMode
  deriving DecidableEq, Repr

/-- Why the model has no meaning for an instruction. Every command has one, so no step answers with it. -/
inductive Refusal where
  /-- The instruction has no meaning yet; raised by an arm of `exec`. Safe. -/
  | notModelled (mnemonic : String)
  deriving DecidableEq, Repr

/-- The state of one instance of the block between two moments of its host (R20 to R38, R42). -/
structure State where
  /-- `A[0..24]`, the lane register file (R20). -/
  a : Vector (BitVec 64) 25
  /-- `BUF[0..143]`, the working buffer (R23; 144 is `Config.bufCap`). -/
  buf : Vector (BitVec 8) 144
  /-- `SREG[0..31]`, the scalar register (R24). -/
  sreg : Vector (BitVec 8) 32
  /-- `MODE` (R28). -/
  mode : Mode
  /-- `PHASE` (R29). -/
  phase : Phase
  /-- `LEN`, 16 bits (R30). -/
  len : BitVec 16
  /-- `RATE`, 8 bits (R31). -/
  rate : BitVec 8
  /-- `FILL`, 8 bits (R32). -/
  fill : BitVec 8
  /-- `OSRC` (R33). -/
  osrc : Source
  /-- `OLEN`, 8 bits (R33). -/
  olen : BitVec 8
  /-- `OPTR`, 8 bits (R33). -/
  optr : BitVec 8
  /-- `CAUSE` (R34). -/
  cause : Cause
  /-- The response channel: the response presented and not yet taken (R38, R42). -/
  rsp : Option (BitVec 32)
  /-- The model's own field: what the host will drive on the input ports, moment by moment (notes/assumptions/1.md). -/
  inputs : List Pins
  deriving DecidableEq, Repr

/-- The reset state: every register 0, `PHASE` = `IDLE`, no response pending (R38, R230), and no host activity ahead. -/
def State.reset : State where
  a := Vector.replicate 25 0#64
  buf := Vector.replicate 144 0#8
  sreg := Vector.replicate 32 0#8
  mode := .none
  phase := .idle
  len := 0#16
  rate := 0#8
  fill := 0#8
  osrc := .state
  olen := 0#8
  optr := 0#8
  cause := .none
  rsp := none
  inputs := []

end Sys2Proof.Machine
end

