-- ==== Sys2Proof/Machine/Flags.lean ====
section
/-! DEFINITION. The one flag `F`, the status register views `SR0..SR6`, the response word and the output ports
(10_state.md R35, R37, R42; 30_encoding.md R78). -/

namespace Sys2Proof.Machine

/-- The 2-bit code of `PHASE` (R29). -/
def Phase.code : Phase → BitVec 2
  | .idle => 0
  | .absorb => 1
  | .out => 2
  | .fault => 3

/-- The 2-bit code of `MODE` (R28). -/
def Mode.code : Mode → BitVec 2
  | .none => 0
  | .hash => 1
  | .perm => 2
  | .red => 3

/-- The 1-bit code of `OSRC` (R33). -/
def Source.code : Source → BitVec 1
  | .state => 0
  | .scalar => 1

/-- The 4-bit cause code (R201). -/
def Cause.code : Cause → BitVec 4
  | .none => 0
  | .lenNonpos => 1
  | .lenRange => 2
  | .rateZero => 3
  | .bufOvf => 4
  | .lenAlign => 5
  | .illegal => 6
  | .seq => 7
  | .oplen => 8
  | .finrLen => 9
  | .outEmpty => 10

/-- The cause code as `DATA` of a response: `zext(c)` (R79). -/
def Cause.data (c : Cause) : Half := c.code.setWidth 16

/-- `F` = (`PHASE` = `FAULT`) (R37). -/
def State.flagF (s : State) : Bool := decide (s.phase = .fault)

/-- `rsp(F, DATA)`: bit 31 `F`, bits 30:16 zero, bits 15:0 `DATA` (R78). -/
def rspWord (f : Bool) (data : Half) : Word := BitVec.ofBool f ++ 0#15 ++ data

/-- `SR0` = `STATUS`: `PHASE` in 1:0, `MODE` in 3:2, `OSRC` in 4, the rest 0 (R35). -/
def State.srStatus (s : State) : Half := 0#11 ++ s.osrc.code ++ s.mode.code ++ s.phase.code

/-- `SR1` = `CAUSE` in 3:0, the rest 0 (R35). -/
def State.srCause (s : State) : Half := s.cause.data

/-- `SR2` = `LEN` (R35). -/
def State.srLen (s : State) : Half := s.len

/-- `SR3` = `RATE` in 7:0, the rest 0 (R35). -/
def State.srRate (s : State) : Half := s.rate.setWidth 16

/-- `SR4` = `FILL` in 7:0, the rest 0 (R35). -/
def State.srFill (s : State) : Half := s.fill.setWidth 16

/-- `SR5` = `OUTP`: `OPTR` in 7:0, `OLEN` in 15:8 (R35). -/
def State.srOutp (s : State) : Half := s.olen ++ s.optr

/-- `SR6` = `ID`: the constant `CORE_ID` (R35). -/
def State.srId (_s : State) : Half := Config.coreId

/-- The output `fault`: a level, = `F` (R42). -/
def State.faultOut (s : State) : Bool := s.flagF

/-- The output `idle`: a level, = (`PHASE` = `IDLE`) (R42). -/
def State.idleOut (s : State) : Bool := decide (s.phase = .idle)

/-- The output `cmd_ready`: 0 while a response is undelivered (R42). A command executes within one step, so no state
between steps is one in which it is executing. -/
def State.cmdReady (s : State) : Bool := s.rsp.isNone

/-- The output `rsp_valid` (R42). -/
def State.rspValid (s : State) : Bool := s.rsp.isSome

end Sys2Proof.Machine
end

