-- ==== Sys2Proof/Machine/Ops.lean ====
section
/-! DEFINITION. The operations every command is built from: the store primitives (20_memory.md R59), the response
(30_encoding.md R78, R79), taking a misuse fault and what `FAULT` does with a command (60_exceptions.md R213, R214), the
phase check (R208), and reset, the only way out of `FAULT` (R215, 70_reset_and_hazards.md R230). -/

namespace Sys2Proof.Machine

/-- What executing a command answers. -/
abbrev Out := Host.Outcome State Fault Refusal

/-- The number of bytes of a store (R50). -/
def Store.size : Store → Nat
  | .st => Config.stateBytes
  | .buf => Config.bufCap
  | .sreg => Config.scalarBytes

/-- Byte `k` of a store; nothing outside it (R22, R50). -/
def State.byte? (s : State) (S : Store) (k : Nat) : Option Byte :=
  match S with
  | .st => s.a[k / 8]?.map fun l => laneByte l (k % 8)
  | .buf => s.buf[k]?
  | .sreg => s.sreg[k]?

/-- `MemRead(S, k, 1)` (R59). -/
def State.readByte (s : State) (S : Store) (k : Nat) : Except Fault Byte :=
  match s.byte? S k with
  | some b => .ok b
  | none => .error (.outOfRange S k)

/-- `MemWrite(S, k, 1, b)` (R59). -/
def State.writeByte (s : State) (S : Store) (k : Nat) (b : Byte) : Except Fault State :=
  match S with
  | .st =>
    if h : k / 8 < 25 then .ok { s with a := s.a.set (k / 8) (setLaneByte s.a[k / 8] (k % 8) b) }
    else .error (.outOfRange .st k)
  | .buf => if h : k < 144 then .ok { s with buf := s.buf.set k b } else .error (.outOfRange .buf k)
  | .sreg => if h : k < 32 then .ok { s with sreg := s.sreg.set k b } else .error (.outOfRange .sreg k)

/-- `MemRead(S, k, n)` = Σ `S[k+j]`·2^(8j) (R59). -/
def State.memRead (s : State) (S : Store) (k : Nat) : Nat → Except Fault Nat
  | 0 => .ok 0
  | n + 1 => do
    let low ← s.readByte S k
    let high ← s.memRead S (k + 1) n
    return low.toNat + 256 * high

/-- `MemWrite(S, k, n, v)`: `S[k+j] <- v[8j+7:8j]` for `j` = 0..n−1 (R59). -/
def State.memWrite (s : State) (S : Store) (k : Nat) : Nat → Nat → Except Fault State
  | 0, _ => .ok s
  | n + 1, v => do
    let s' ← s.writeByte S k (BitVec.ofNat 8 v)
    s'.memWrite S (k + 1) n (v / 256)

/-- Present the response `rsp(F, DATA)`, `F` being (`PHASE` = `FAULT`) after the command (R78). -/
def State.respond (s : State) (data : Half) : State := { s with rsp := some (rspWord s.flagF data) }

/-- `raise Misuse(c)`: fault entry. `PHASE` and `CAUSE` are written, nothing else; the response is `rsp(1, c)` (R178,
R213). -/
def State.raiseMisuse (s : State) (c : Cause) : State :=
  State.respond { s with phase := .fault, cause := c } c.data

/-- A command dropped in `FAULT`: no state change, response `rsp(1, CAUSE)` (R214). -/
def State.dropped (s : State) : State := s.respond s.cause.data

/-- In `FAULT` a command is dropped, else it goes on (check 0 of R212). -/
def unlessFault (s : State) (go : Out) : Out :=
  if s.phase = .fault then .next s.dropped else go

/-- The phase check of a command that is not in `FAULT` (check 2 of R212): `SEQ` outside phase `p` (R208). -/
def requirePhase (s : State) (p : Phase) (go : Out) : Out :=
  if s.phase = p then go else .next (s.raiseMisuse .seq)

/-- A command that completes with `rsp(0, 0)`, or the model's fault for an index outside a store (R59, R79). -/
def complete : Except Fault State → Out
  | .ok s => .next (s.respond 0#16)
  | .error f => .fault f

/-- An illegal word: dropped in `FAULT`, else the misuse fault `ILLEGAL` (R75, R207, R214). -/
def execIllegal (s : State) : Out := unlessFault s (.next (s.raiseMisuse .illegal))

/-- The result of a call becomes readable: `OLEN`, `OPTR`, `OSRC`, `FILL`, `PHASE` as every FIN-type command leaves them
(R116, R154, R155, R174). -/
def State.present (s : State) (n : Byte) (src : Source) : State :=
  { s with olen := n, optr := 0#8, osrc := src, fill := 0#8, phase := .out }

/-- The 25 zero lanes (R110, R113). -/
def zeroLanes : Lanes := Vector.replicate 25 0#64

/-- `END`: every register and store of the call takes its reset value; `CAUSE` is not written (R177). -/
def State.scrub (s : State) : State :=
  { s with
    a := zeroLanes, buf := Vector.replicate 144 0#8, sreg := Vector.replicate 32 0#8,
    len := 0#16, rate := 0#8, fill := 0#8, olen := 0#8, optr := 0#8, osrc := .state,
    mode := .none, phase := .idle }

/-- `rst` asserted: every register of the block takes its reset value and an undelivered response is lost, from any state
(R230, R237). What the host will do next is not the block's and stays. -/
def State.assertReset (s : State) : State := { State.reset with inputs := s.inputs }

end Sys2Proof.Machine
end

