-- ==== Sys2Proof/Machine/Permutation.lean ====
section
/-! DEFINITION. The permutation engine: the round constants, the ρπ tables, the four stages of a round, the 24 rounds
(40_permutation.md R90 to R99). -/

namespace Sys2Proof.Machine

/-- `rotl64(v, n)` for 0 ≤ n ≤ 63 (R15). -/
def rotl64 (v : Lane) (n : Nat) : Lane := if n = 0 then v else (v <<< n) ||| (v >>> (64 - n))

/-- The bits set in each round constant `RC[r]`, `r` = 0..23, read off the values of R96: of a 64-bit constant only bits 0, 1,
3, 7, 15, 31 and 63 can be set. -/
def roundConstantBits : Vector (List Nat) 24 := #v[
  [0], [1, 7, 15], [1, 3, 7, 15, 63], [15, 31, 63],
  [0, 1, 3, 7, 15], [0, 31], [0, 7, 15, 31, 63], [0, 3, 15, 63],
  [1, 3, 7], [3, 7], [0, 3, 15, 31], [1, 3, 31],
  [0, 1, 3, 7, 15, 31], [0, 1, 3, 7, 63], [0, 3, 7, 15, 63], [0, 1, 15, 63],
  [1, 15, 63], [7, 63], [1, 3, 15], [1, 3, 31, 63],
  [0, 7, 15, 31, 63], [7, 15, 63], [0, 31], [3, 15, 31, 63]]

/-- `RC[r]` (R96). `Sys2Proof.Tests.test_round_constants` holds it to the 24 printed values,
`Sys2Proof.Tests.test_round_constants_register` to the shift register given beside them. -/
def roundConstant (r : Fin 24) : Lane := roundConstantBits[r.val].foldl (fun c k => c ||| (1#64 <<< k)) 0#64

/-- The ρπ chain as R98 lists it: at each step the rotation `ROTC[i]` and the destination lane `PILN[i]` (R97, R98). -/
def chainSteps : Vector (Nat × Fin 25) 24 := #v[
  (1, 10), (3, 7), (6, 11), (10, 17), (15, 18), (21, 3), (28, 5), (36, 16),
  (45, 8), (55, 21), (2, 24), (14, 4), (27, 15), (41, 23), (56, 19),
  (8, 13), (25, 12), (43, 2), (62, 20), (18, 14), (39, 22), (61, 9),
  (20, 6), (44, 1)]

/-- `BC[x]`, the parity of column `x` (R92). -/
def columnParities (a : Lanes) : Vector Lane 5 :=
  Vector.ofFn fun x : Fin 5 => a[x.val] ^^^ a[x.val + 5] ^^^ a[x.val + 10] ^^^ a[x.val + 15] ^^^ a[x.val + 20]

/-- Stage θ; lane `i` = x + 5y is in column x = i mod 5 (R21, R92). -/
def theta (a : Lanes) : Lanes :=
  let bc := columnParities a
  let d : Vector Lane 5 := Vector.ofFn fun x : Fin 5 => bc[(x.val + 4) % 5] ^^^ rotl64 bc[(x.val + 1) % 5] 1
  Vector.ofFn fun i : Fin 25 => a[i.val] ^^^ d[i.val % 5]

/-- One step of the ρπ chain on the lanes and the carried lane `T` (R93). -/
def rhopiStep (p : Lanes × Lane) (i : Fin 24) : Lanes × Lane :=
  let move := chainSteps[i.val]
  (p.1.set move.2.val (rotl64 p.2 move.1), p.1[move.2.val])

/-- Stage ρπ: the 24-step chain that starts from lane 1 (R93). -/
def rhopi (a : Lanes) : Lanes := ((List.finRange 24).foldl rhopiStep (a, a[1])).1

/-- The table of R99, one pair for each source lane `i` = 0..24: the rotation `RHO[i]` and the destination `DST[i]`. -/
def rhoMoves : Vector (Nat × Fin 25) 25 := #v[
  (0, 0), (1, 10), (62, 20), (28, 5), (27, 15),
  (36, 16), (44, 1), (6, 11), (55, 21), (20, 6),
  (3, 7), (10, 17), (43, 2), (25, 12), (39, 22),
  (41, 23), (45, 8), (15, 18), (21, 3), (8, 13),
  (18, 14), (2, 24), (61, 9), (56, 19), (14, 4)]

/-- `RHO[i]`, the rotation applied to source lane `i` (R99). -/
def rhoAmounts : Vector Nat 25 := rhoMoves.map (·.1)

/-- `DST[i]`, the lane source lane `i` moves to (R99). -/
def rhoTargets : Vector (Fin 25) 25 := rhoMoves.map (·.2)

/-- Stage χ: rows of five lanes, each lane with the next two of its row (R94). -/
def chi (a : Lanes) : Lanes :=
  Vector.ofFn fun i : Fin 25 =>
    a[i.val] ^^^
      (~~~ (a[(i.val % 5 + 1) % 5 + 5 * (i.val / 5)]'(by omega)) &&& a[(i.val % 5 + 2) % 5 + 5 * (i.val / 5)]'(by omega))

/-- Stage ι: `RC[RND]` into lane 0 (R95). -/
def iota (a : Lanes) (rnd : Fin 24) : Lanes := a.set 0 (a[0] ^^^ roundConstant rnd)

/-- One round: θ, ρπ, χ, ι in that order (R90, R91). -/
def keccakRound (a : Lanes) (rnd : Fin 24) : Lanes := iota (chi (rhopi (theta a))) rnd

/-- `permute(A)`: the 24 rounds, `RND` ascending from 0 (R90, R91). Irreducible so that no unifier unfolds 24 rounds; the
kernel evaluates it all the same, and `unfold permute` opens it. -/
@[irreducible] def permute (a : Lanes) : Lanes := (List.finRange 24).foldl keccakRound a

end Sys2Proof.Machine
end

