-- ==== Sys2Proof/Machine/Sponge.lean ====
section
/-! DEFINITION. The sponge controller: rate and length checks, the function `hash`, and `HSTART`, `PUSH` and `FIN` in `HASH`
mode (41_sponge.md R110 to R118). -/

namespace Sys2Proof.Machine

/-- `rate(len)` (R111). -/
def rateOf (len : Int) : Int := if len = 200 then Config.rateFull else 200 - 2 * len

/-- `check(len)`: the first failing line of R112, or nothing for a valid length. -/
def checkLength (len : Int) : Option Cause :=
  if len ≤ 0 then some .lenNonpos
  else if Config.lenMaxHalf < len ∧ len ≠ 200 then some .lenRange
  else if rateOf len = 0 then some .rateZero
  else if (Config.bufCap : Int) ≤ rateOf len + 1 then some .bufOvf
  else if len % 8 ≠ 0 then some .lenAlign
  else none

/-- The valid digest lengths (R10, R122). -/
def validLengths : List Nat := [32, 40, 48, 56, 64, 72, 80, 88, 96, 200]

/-- `absorb(A, B, R)`: the 8-byte words of the block `B` XORed into lanes 0..`R`/8 − 1 (R51, R110). Irreducible as
`permute` is. -/
@[irreducible] def absorb (a : Lanes) (block : List Byte) (r : Nat) : Lanes :=
  Vector.ofFn fun i : Fin 25 =>
    if i.val < r / 8 then a[i.val] ^^^ le64 ((block.drop (8 * i.val)).take 8) else a[i.val]

/-- The loop over `q` full blocks of the message (R110). -/
def absorbBlocks (r : Nat) : Nat → Lanes → List Byte → Lanes
  | 0, a, _ => a
  | q + 1, a, m => absorbBlocks r q (permute (absorb a (m.take r) r)) (m.drop r)

/-- `P`: the tail, `0x01`, zeros up to `R` bytes, then `0x80` ORed into the last byte (R110, R117). -/
def paddedBlock (tail : List Byte) (r : Nat) : List Byte :=
  (tail ++ Config.padFirst :: List.replicate (r - tail.length - 1) 0#8).modify (r - 1) (· ||| Config.padLast)

/-- `ST(A)` as a byte string, byte 0 first (R22). -/
def stateBytes (a : Lanes) : List Byte :=
  List.ofFn fun k : Fin 200 => laneByte (a[k.val / 8]'(by omega)) (k.val % 8)

/-- `hash(M, len)`, or the misuse fault of an invalid `len` (R3, R110). -/
def hash (m : List Byte) (len : Int) : Except Cause (List Byte) :=
  match checkLength len with
  | some c => .error c
  | none =>
    let r := (rateOf len).toNat
    let q := m.length / r
    let a := absorbBlocks r q zeroLanes m
    let a := permute (absorb a (paddedBlock (m.drop (q * r)) r) r)
    .ok ((stateBytes a).take len.toNat)

/-- `HSTART len` (R113). -/
def execHstart (len : Int) (s : State) : Out :=
  unlessFault s <| requirePhase s .idle <|
    match checkLength len with
    | some c => .next (s.raiseMisuse c)
    | none =>
      complete (.ok
        { s with
          a := zeroLanes, fill := 0#8, len := BitVec.ofInt 16 len, rate := BitVec.ofInt 8 (rateOf len),
          mode := .hash, phase := .absorb })

/-- `A[i] <- A[i] xor MemRead(BUF, 8i, 8)` (R115). -/
def absorbWord (s : State) (i : Nat) : Except Fault State := do
  let v ← s.memRead .buf (8 * i) 8
  if h : i < 25 then .ok { s with a := s.a.set i (s.a[i] ^^^ BitVec.ofNat 64 v) } else .error (.outOfRange .st (8 * i))

/-- The words 0..n−1 of `BUF` absorbed in ascending order (R115). -/
def absorbWords : Nat → State → Except Fault State
  | 0, s => .ok s
  | n + 1, s => do
    let s' ← absorbWords n s
    absorbWord s' n

/-- `absorb_block()` (R115). -/
def absorbBlock (s : State) : Except Fault State := absorbWords (s.rate.toNat / 8) s

/-- `A <- permute(A)` (R90, R103). -/
def State.runPermute (s : State) : State := { s with a := permute s.a }

/-- `BUF[k] <- 0x00` for `n` positions from `k` on, ascending (R116). -/
def zeroFill : Nat → Nat → State → Except Fault State
  | 0, _, s => .ok s
  | n + 1, k, s => do
    let s' ← s.writeByte .buf k 0#8
    zeroFill n (k + 1) s'

/-- The three writes to `BUF` that make the final block, in their order: marker byte, zero fill, `0x80` (R116, R236).
`RATE` − 1 is taken modulo 2^8 (R15), so that with `RATE` = 0, which `Sys2Proof.Inv` rules out, it is outside `BUF`. -/
def padBuffer (s : State) : Except Fault State := do
  let s ← s.writeByte .buf s.fill.toNat Config.padFirst
  let s ← zeroFill (s.rate.toNat - (s.fill.toNat + 1)) (s.fill.toNat + 1) s
  let last := (s.rate - 1#8).toNat
  let b ← s.readByte .buf last
  s.writeByte .buf last (b ||| Config.padLast)

/-- Pad, absorb the final block, permute: shared by `FIN` in `HASH` mode and `FINR` (R116, R155). -/
def finishSponge (s : State) : Except Fault State := do
  let s ← padBuffer s
  let s ← absorbBlock s
  return s.runPermute

/-- `PUSH b` in `HASH` mode, after the phase check (R114). -/
def pushHash (b : Byte) (s : State) : Out :=
  complete do
    let s ← s.writeByte .buf s.fill.toNat b
    let s := { s with fill := s.fill + 1#8 }
    if s.fill = s.rate then do
      let s ← absorbBlock s
      return { s.runPermute with fill := 0#8 }
    else return s

/-- `FIN` in `HASH` mode, after the phase check: `OLEN <- LEN`, the digest is `ST[0..LEN−1]` (R116, R118). -/
def finHash (s : State) : Out :=
  complete do
    let s ← finishSponge s
    return s.present (s.len.setWidth 8) .state

end Sys2Proof.Machine
end

