-- ==== Sys2Proof/Machine/Reducer.lean ====
section
/-! DEFINITION. The scalar reducer: the function `reduceModL`, the limb datapath that computes it, and `RSTART`, `PUSH` and
`FIN` in `RED` mode, `FINR` (42_reducer.md R140 to R156). -/

namespace Sys2Proof.Machine

/-- `L`, the prime group order (R141). -/
def groupOrder : Nat := 2 ^ 252 + 27742317777372353535851937790883648493

/-- `LE(X)` of a 32-byte scalar (R53, R140). -/
def scalarNat (x : Scalar) : Nat := leNat x.toList

/-- `LEbytes_32(v)` (R16, R140). -/
def natScalar (v : Nat) : Scalar := Vector.ofFn fun k : Fin 32 => BitVec.ofNat 8 (v >>> (8 * k.val))

/-- `reduceModL(X)` = `LEbytes_32(LE(X) mod L)`, the normative function (R140). Irreducible as `permute` is. -/
@[irreducible] def reduceModL (x : Scalar) : Scalar := natScalar (scalarNat x % groupOrder)

/-- The first 32 bytes of the state as a scalar: digest byte `k` becomes scalar byte `k` (R53, R155). Irreducible as
`permute` is. -/
@[irreducible] def digestScalar (a : Lanes) : Scalar :=
  Vector.ofFn fun k : Fin 32 => laneByte (a[k.val / 8]'(by omega)) (k.val % 8)

/-- A byte string of exactly 32 bytes as a scalar. -/
def scalarOfBytes (bs : List Byte) : Scalar := Vector.ofFn fun k : Fin 32 => bs.getD k.val 0#8

/-- `hashToScalar(M)` = `reduceModL(hash(M, 32))` (R3, R156). -/
def hashToScalar (m : List Byte) : Except Cause Scalar := do
  let d ← hash m Config.h2sLen
  return reduceModL (scalarOfBytes d)

/-! The limb datapath (R143 to R148). Limbs are unbounded integers, as R15 and R151 allow. -/

/-- The limbs `s[0..12]` (R25, R143). -/
abbrev Limbs := Vector Int 13

/-- `MU[0..5]`, the fold constants with their signs (R145). -/
def foldConstants : Vector Int 6 := #v[666643, 470296, 654183, -997805, 136657, -683901]

/-- `load_n(k)` = `MemRead(SREG, k, n)` (R143). -/
def loadWindow (x : Scalar) (n k : Nat) : Nat := leNat ((x.toList.drop k).take n)

/-- Decode by byte windows (R143). -/
def loadLimbs (x : Scalar) : Limbs := #v[
  (loadWindow x 3 0 &&& 0x1FFFFF : Nat),
  ((loadWindow x 4 2 >>> 5) &&& 0x1FFFFF : Nat),
  ((loadWindow x 3 5 >>> 2) &&& 0x1FFFFF : Nat),
  ((loadWindow x 4 7 >>> 7) &&& 0x1FFFFF : Nat),
  ((loadWindow x 4 10 >>> 4) &&& 0x1FFFFF : Nat),
  ((loadWindow x 3 13 >>> 1) &&& 0x1FFFFF : Nat),
  ((loadWindow x 4 15 >>> 6) &&& 0x1FFFFF : Nat),
  ((loadWindow x 3 18 >>> 3) &&& 0x1FFFFF : Nat),
  (loadWindow x 3 21 &&& 0x1FFFFF : Nat),
  ((loadWindow x 4 23 >>> 5) &&& 0x1FFFFF : Nat),
  ((loadWindow x 3 26 >>> 2) &&& 0x1FFFFF : Nat),
  (loadWindow x 4 28 >>> 7 : Nat),
  0]

/-- Decode by shifts of the whole 256-bit value: limb 11 takes the remaining 25 bits, limb 12 is 0 (R143). -/
def splitLimbs (v : Nat) : Limbs :=
  Vector.ofFn fun i : Fin 13 =>
    if i.val < 11 then (((v >>> (21 * i.val)) &&& 0x1FFFFF : Nat) : Int)
    else if i.val = 11 then ((v >>> 231 : Nat) : Int) else 0

/-- `s >> 21` on a signed limb: floor division by 2^21 (R15, R151). -/
def shiftLimb (s : Int) : Int := s / 2097152

/-- Move the carry `c` of limb `i` into limb `i` + 1 (R144, R146). -/
def moveCarry (s : Limbs) (i : Fin 12) (c : Int) : Limbs :=
  (s.set i.val (s[i.val] - c * 2097152)).set (i.val + 1) (s[i.val + 1] + c)

/-- `rc(i)`: the rounded carry out of limb `i` (R144). -/
def roundedCarry (s : Limbs) (i : Fin 12) : Limbs := moveCarry s i (shiftLimb (s[i.val] + 1048576))

/-- `fc(i)`: the floor carry out of limb `i` (R146). -/
def floorCarry (s : Limbs) (i : Fin 12) : Limbs := moveCarry s i (shiftLimb s[i.val])

/-- The even pass of the first carry propagation (R144). -/
def evenPass (s : Limbs) : Limbs := [0, 2, 4, 6, 8, 10].foldl roundedCarry s

/-- The odd pass of the first carry propagation (R144). -/
def oddPass (s : Limbs) : Limbs := [1, 3, 5, 7, 9, 11].foldl roundedCarry s

/-- `fold()`: `s[12]`·`MU[k]` into limbs 0..5, `s[12] <- 0` (R145). -/
def foldTop (s : Limbs) : Limbs :=
  Vector.ofFn fun i : Fin 13 =>
    if h : i.val < 6 then s[i.val] + s[12] * foldConstants[i.val] else if i.val = 12 then 0 else s[i.val]

/-- The sequential pass over limbs 0..11 (R146). -/
def floorPass12 (s : Limbs) : Limbs := [0, 1, 2, 3, 4, 5, 6, 7, 8, 9, 10, 11].foldl floorCarry s

/-- The sequential pass over limbs 0..10 (R147). -/
def floorPass11 (s : Limbs) : Limbs := [0, 1, 2, 3, 4, 5, 6, 7, 8, 9, 10].foldl floorCarry s

/-- `(s[i] >> n)` truncated to 8 bits, on a signed 64-bit limb (R15, R148). -/
def packShr (s : Limbs) (i : Fin 13) (n : Nat) : Byte := ((BitVec.ofInt 64 s[i.val]).sshiftRight n).setWidth 8

/-- `(s[i] << n)` truncated to 8 bits, on a signed 64-bit limb (R15, R148). -/
def packShl (s : Limbs) (i : Fin 13) (n : Nat) : Byte := (BitVec.ofInt 64 s[i.val] <<< n).setWidth 8

/-- Pack the twelve limbs into 32 bytes (R148). -/
def packLimbs (s : Limbs) : Scalar := #v[
  packShr s 0 0,
  packShr s 0 8,
  packShr s 0 16 ||| packShl s 1 5,
  packShr s 1 3,
  packShr s 1 11,
  packShr s 1 19 ||| packShl s 2 2,
  packShr s 2 6,
  packShr s 2 14 ||| packShl s 3 7,
  packShr s 3 1,
  packShr s 3 9,
  packShr s 3 17 ||| packShl s 4 4,
  packShr s 4 4,
  packShr s 4 12,
  packShr s 4 20 ||| packShl s 5 1,
  packShr s 5 7,
  packShr s 5 15 ||| packShl s 6 6,
  packShr s 6 2,
  packShr s 6 10,
  packShr s 6 18 ||| packShl s 7 3,
  packShr s 7 5,
  packShr s 7 13,
  packShr s 8 0,
  packShr s 8 8,
  packShr s 8 16 ||| packShl s 9 5,
  packShr s 9 3,
  packShr s 9 11,
  packShr s 9 19 ||| packShl s 10 2,
  packShr s 10 6,
  packShr s 10 14 ||| packShl s 11 7,
  packShr s 11 1,
  packShr s 11 9,
  packShr s 11 17]

/-- The value Σ `s[i]`·2^(21i) of the limbs 0..12 (R145, R147). -/
def limbsValue (s : Limbs) : Int := s.toList.foldr (fun d v => d + 2097152 * v) 0

/-- The limbs after the whole schedule: decode, even pass, odd pass, fold, sequential pass 0..11, fold, sequential pass
0..10 (R147). -/
def reducedLimbs (x : Scalar) : Limbs :=
  floorPass11 (foldTop (floorPass12 (foldTop (oddPass (evenPass (loadLimbs x))))))

/-- The datapath as a whole, with the pack (R143 to R148). -/
def reduceDatapath (x : Scalar) : Scalar := packLimbs (reducedLimbs x)

/-! The commands (R152 to R155). -/

/-- `RSTART` (R152). -/
def execRstart (s : State) : Out :=
  unlessFault s <| requirePhase s .idle <|
    complete (.ok { s with sreg := Vector.replicate 32 0#8, fill := 0#8, mode := .red, phase := .absorb })

/-- `PUSH b` in `RED` mode, after the phase check (R153). -/
def pushRed (b : Byte) (s : State) : Out :=
  if s.fill = 32#8 then .next (s.raiseMisuse .oplen)
  else complete do
    let s ← s.writeByte .sreg s.fill.toNat b
    return { s with fill := s.fill + 1#8 }

/-- `SREG <- reduceModL(SREG)` (R140, R154). -/
def State.runReduce (s : State) : State := { s with sreg := reduceModL s.sreg }

/-- `FIN` in `RED` mode, after the phase check (R154). -/
def finRed (s : State) : Out :=
  if s.fill ≠ 32#8 then .next (s.raiseMisuse .oplen)
  else complete (.ok (s.runReduce.present 32#8 .scalar))

/-- `SREG[k] <- ST[k]` for `k` = 0..31 (R155). -/
def State.loadDigest (s : State) : State := { s with sreg := digestScalar s.a }

/-- `FINR`: finish a 32-byte hash and reduce the digest (R155). -/
def execFinr (s : State) : Out :=
  unlessFault s <| requirePhase s .absorb <|
    if s.mode ≠ .hash then .next (s.raiseMisuse .seq)
    else if s.len ≠ 32#16 then .next (s.raiseMisuse .finrLen)
    else complete do
      let s ← finishSponge s
      return s.loadDigest.runReduce.present 32#8 .scalar

end Sys2Proof.Machine
end

