-- ==== Sys2Proof/Machine/Call.lean ====
section
/-! DEFINITION. Call control: `NOP`, `PSTART`, `PUSH` and `FIN` in every mode, `POP`, `STAT`, `END` (43_call_control.md R170
to R178). -/

namespace Sys2Proof.Machine

/-- `NOP` (R171). -/
def execNop (s : State) : Out := unlessFault s <| complete (.ok s)

/-- `PSTART` (R172). -/
def execPstart (s : State) : Out :=
  unlessFault s <| requirePhase s .idle <|
    complete (.ok { s with a := zeroLanes, fill := 0#8, mode := .perm, phase := .absorb })

/-- `PUSH b` in `PERM` mode, after the phase check: the byte replaces `ST[FILL]` (R173). -/
def pushPerm (b : Byte) (s : State) : Out :=
  if s.fill = 200#8 then .next (s.raiseMisuse .oplen)
  else complete do
    let s ← s.writeByte .st s.fill.toNat b
    return { s with fill := s.fill + 1#8 }

/-- `PUSH b`: the phase check, then the behaviour `MODE` selects (R114, R153, R173, R178). -/
def execPush (b : Byte) (s : State) : Out :=
  unlessFault s <| requirePhase s .absorb <|
    match s.mode with
    | .none => .fault .absorbWithoutMode
    | .hash => pushHash b s
    | .perm => pushPerm b s
    | .red => pushRed b s

/-- `FIN` in `PERM` mode, after the phase check (R174). -/
def finPerm (s : State) : Out :=
  if s.fill ≠ 200#8 then .next (s.raiseMisuse .oplen)
  else complete (.ok (s.runPermute.present 200#8 .state))

/-- `FIN`: the phase check, then the behaviour `MODE` selects (R116, R154, R174, R178). -/
def execFin (s : State) : Out :=
  unlessFault s <| requirePhase s .absorb <|
    match s.mode with
    | .none => .fault .absorbWithoutMode
    | .hash => finHash s
    | .perm => finPerm s
    | .red => finRed s

/-- The store `POP` reads (R33, R175). -/
def Source.store : Source → Store
  | .state => .st
  | .scalar => .sreg

/-- `POP`: the next result byte, `OPTR` advanced (R175). -/
def execPop (s : State) : Out :=
  unlessFault s <| requirePhase s .out <|
    if s.optr = s.olen then .next (s.raiseMisuse .outEmpty)
    else match s.readByte s.osrc.store s.optr.toNat with
      | .ok d => .next (State.respond { s with optr := s.optr + 1#8 } (d.setWidth 16))
      | .error f => .fault f

/-- `STAT sel`: answered in every phase, changes no register (R176, R214). -/
def answerStat (s : State) (value : Half) : Out := .next (s.respond value)

/-- `STAT 0` (R35, R176). -/
def execStatStatus (s : State) : Out := answerStat s s.srStatus

/-- `STAT 1` (R35, R176). -/
def execStatCause (s : State) : Out := answerStat s s.srCause

/-- `STAT 2` (R35, R176). -/
def execStatLen (s : State) : Out := answerStat s s.srLen

/-- `STAT 3` (R35, R176). -/
def execStatRate (s : State) : Out := answerStat s s.srRate

/-- `STAT 4` (R35, R176). -/
def execStatFill (s : State) : Out := answerStat s s.srFill

/-- `STAT 5` (R35, R176). -/
def execStatOutp (s : State) : Out := answerStat s s.srOutp

/-- `STAT 6` (R35, R176). -/
def execStatId (s : State) : Out := answerStat s s.srId

/-- `END` (R177). -/
def execEndCall (s : State) : Out :=
  unlessFault s <| requirePhase s .out <| complete (.ok s.scrub)

end Sys2Proof.Machine
end

