-- ==== Sys2Proof/Machine/Dispatch.lean ====
section
/-! DEFINITION. The dispatcher (43_call_control.md R178): one arm per command. -/

namespace Sys2Proof.Machine

/-- Execute one command (R178). -/
def exec (i : Instr) (s : State) : Host.Outcome State Fault Refusal :=
  match i with
  | .nop => Sys2Proof.Machine.execNop s
  | .hstart len => Sys2Proof.Machine.execHstart len s
  | .pstart => Sys2Proof.Machine.execPstart s
  | .rstart => Sys2Proof.Machine.execRstart s
  | .push b => Sys2Proof.Machine.execPush b s
  | .fin => Sys2Proof.Machine.execFin s
  | .finr => Sys2Proof.Machine.execFinr s
  | .pop => Sys2Proof.Machine.execPop s
  | .statStatus => Sys2Proof.Machine.execStatStatus s
  | .statCause => Sys2Proof.Machine.execStatCause s
  | .statLen => Sys2Proof.Machine.execStatLen s
  | .statRate => Sys2Proof.Machine.execStatRate s
  | .statFill => Sys2Proof.Machine.execStatFill s
  | .statOutp => Sys2Proof.Machine.execStatOutp s
  | .statId => Sys2Proof.Machine.execStatId s
  | .endCall => Sys2Proof.Machine.execEndCall s

end Sys2Proof.Machine
end

