-- ==== Sys2Proof/Machine/Port.lean ====
section
/-! DEFINITION. The ports: what one moment of the host's signals does to the block (10_state.md R42, 43_call_control.md R178,
R179, 70_reset_and_hazards.md R230, R237). -/

namespace Sys2Proof.Machine

/-- A command word is accepted: decoded and executed, or illegal (R75, R178). -/
def accept (w : Word) (s : State) : Out :=
  match decode w with
  | .ok i => exec i s
  | .error _ => execIllegal s

/-- One moment at the ports: reset wins over everything (R237); with a response pending the block accepts no command, and
the response leaves when the host takes it (R42); else a presented command is accepted. -/
def hostMoment (p : Pins) (s : State) : Out :=
  if p.rst then .next s.assertReset
  else match s.rsp with
    | some _ => .next (if p.rspReady then { s with rsp := none } else s)
    | none =>
      match p.cmd with
      | none => .next s
      | some w => accept w s

/-- The next moment of the host; with nothing more to come from the host the block waits (R36, R220). -/
def nextMoment (s : State) : Out :=
  match s.inputs with
  | [] => .next s
  | p :: rest => hostMoment p { s with inputs := rest }

/-- The host presents the command word `w`. -/
def Pins.present (w : Word) : Pins := ⟨false, some w, false⟩

/-- The host takes the response. -/
def Pins.take : Pins := ⟨false, none, true⟩

/-- A program at the ports: each word is presented, its response taken (R42, R179). -/
def programPins (ws : List Word) : List Pins := ws.flatMap fun w => [Pins.present w, Pins.take]

/-- The word a host presents for an instruction of `nbits` bits `w`, the bits above `nbits` zero. -/
def fetchWord (nbits w : Nat) : Word := BitVec.ofNat 32 (w % 2 ^ nbits)

end Sys2Proof.Machine
end

