-- ==== Sys2Proof/Machine/Step.lean ====
section
/-! DEFINITION. The step of the machine and the placing of its next instruction. -/

namespace Sys2Proof.Machine

/-- One step: one moment at the ports (00_scope.md R11, 43_call_control.md R178; notes/assumptions/1.md). -/
def step (s : State) : Host.Outcome State Fault Refusal := nextMoment s

/-- `s` with the instruction presented at the command port at the very next moment, any earlier response taken
(10_state.md R42; notes/assumptions/1.md). -/
def State.withFetchWord (s : State) (nbits w : Nat) : State :=
  { s with rsp := none, inputs := Pins.present (fetchWord nbits w) :: s.inputs }

end Sys2Proof.Machine
end

