-- ==== Sys2Proof/Machine/Assembler.lean ====
section
/-! DEFINITION. The assembler's language and the pseudo-commands (30_encoding.md R80, R81): what a line of text stands for, on
lists of characters. It runs on the host, not in the block, and no step reads it. -/

namespace Sys2Proof.Machine

/-- A pseudo-command (R81). -/
inductive Pseudo where
  /-- `HASH32`. -/
  | hash32
  /-- `PUSHS "text"`, the bytes of the text. -/
  | pushs (text : List Byte)
  /-- `PUSHX h0 h1 ...`. -/
  | pushx (bytes : List Byte)
  /-- `PUSHN n, b`. -/
  | pushn (n : Nat) (b : Byte)
  /-- `POPN n`. -/
  | popn (n : Nat)
  /-- `HASH len, "text"`. -/
  | hash (len : Int) (text : List Byte)
  /-- `H2S "text"`. -/
  | h2s (text : List Byte)
  /-- `PERMUTE h0 ... h199`. -/
  | permute (state : Vector Byte 200)
  /-- `REDUCE h0 ... h31`. -/
  | reduce (operand : Scalar)
  deriving DecidableEq, Repr

/-- The commands a pseudo-command expands to, and nothing else (R81). -/
def Pseudo.expand : Pseudo → List Instr
  | .hash32 => [.hstart 32]
  | .pushs text => text.map .push
  | .pushx bytes => bytes.map .push
  | .pushn n b => List.replicate n (.push b)
  | .popn n => List.replicate n .pop
  | .hash len text => .hstart len :: text.map .push ++ [.fin]
  | .h2s text => .hstart 32 :: text.map .push ++ [.finr]
  | .permute state => .pstart :: state.toList.map .push ++ [.fin]
  | .reduce operand => .rstart :: operand.toList.map .push ++ [.fin]

/-- An operand as written (R80). -/
inductive AsmOperand where
  /-- Decimal, a leading `-` kept apart. -/
  | decimal (negative : Bool) (v : Nat)
  /-- Hexadecimal with `0x`, with its number of digits. -/
  | hex (digits : Nat) (v : Nat)
  /-- Any other text: a status register's name, or an error. -/
  | text (cs : List Char)
  deriving DecidableEq, Repr

/-- Why a line is an assembler error (R80). -/
inductive AsmError where
  /-- No such mnemonic, or one with the wrong number of operands. -/
  | noSuchCommand
  /-- An operand out of its range or of the wrong kind. -/
  | badOperand
  deriving DecidableEq, Repr

/-- The value of a digit in base `base`; letters of either case. -/
def digitValue (base : Nat) (c : Char) : Option Nat :=
  let n := c.toNat
  let d :=
    if 48 ≤ n ∧ n ≤ 57 then n - 48
    else if 97 ≤ n ∧ n ≤ 102 then n - 87
    else if 65 ≤ n ∧ n ≤ 70 then n - 55
    else base
  if d < base then some d else none

/-- The value of a string of digits, most significant first. -/
def digitsValue (base : Nat) : Nat → List Char → Option Nat
  | acc, [] => some acc
  | acc, c :: cs =>
    match digitValue base c with
    | some d => digitsValue base (base * acc + d) cs
    | none => none

/-- A number needs at least one digit. -/
def numberValue (base : Nat) (cs : List Char) : Option Nat :=
  if cs.isEmpty then none else digitsValue base 0 cs

/-- Read an operand (R80). -/
def readOperand (cs : List Char) : AsmOperand :=
  match cs with
  | '0' :: 'x' :: ds =>
    match numberValue 16 ds with
    | some v => .hex ds.length v
    | none => .text cs
  | '-' :: ds =>
    match numberValue 10 ds with
    | some v => .decimal true v
    | none => .text cs
  | _ =>
    match numberValue 10 cs with
    | some v => .decimal false v
    | none => .text cs

/-- `HSTART`'s operand: −32768..32767 in decimal, 0x0000..0xFFFF verbatim in hexadecimal (R80). -/
def hstartImm : AsmOperand → Option Half
  | .decimal neg v =>
    let len : Int := if neg then -(v : Int) else v
    if -32768 ≤ len ∧ len ≤ 32767 then some (lengthImm len) else none
  | .hex _ v => if v ≤ 0xFFFF then some (BitVec.ofNat 16 v) else none
  | .text _ => none

/-- An operand in 0..`bound`; no sign (R80). -/
def unsignedOperand (bound : Nat) : AsmOperand → Option Nat
  | .decimal false v => if v ≤ bound then some v else none
  | .hex _ v => if v ≤ bound then some v else none
  | _ => none

/-- The names of the status registers (R80). -/
def statNames : List (List Char) := [
  ['S', 'T', 'A', 'T', 'U', 'S'], ['C', 'A', 'U', 'S', 'E'], ['L', 'E', 'N'], ['R', 'A', 'T', 'E'],
  ['F', 'I', 'L', 'L'], ['O', 'U', 'T', 'P'], ['I', 'D']]

/-- `STAT`'s operand: 0..6 or a register's name (R80). -/
def statOperand : AsmOperand → Option Nat
  | .text cs => if cs ∈ statNames then some (statNames.idxOf cs) else none
  | o => unsignedOperand 6 o

/-- The word of a mnemonic without operand (R73, R80). -/
def plainCommand (m : List Char) : Option Instr :=
  if m = ['N', 'O', 'P'] then some .nop
  else if m = ['P', 'S', 'T', 'A', 'R', 'T'] then some .pstart
  else if m = ['R', 'S', 'T', 'A', 'R', 'T'] then some .rstart
  else if m = ['F', 'I', 'N'] then some .fin
  else if m = ['F', 'I', 'N', 'R'] then some .finr
  else if m = ['P', 'O', 'P'] then some .pop
  else if m = ['E', 'N', 'D'] then some .endCall
  else none

/-- The word of a mnemonic with its operand: `HSTART`, `PUSH`, `STAT` (R73, R80). -/
def operandCommand (m : List Char) (o : AsmOperand) : Except AsmError Word :=
  if m = ['H', 'S', 'T', 'A', 'R', 'T'] then
    match hstartImm o with
    | some imm => .ok (commandWord 0x01#8 imm)
    | none => .error .badOperand
  else if m = ['P', 'U', 'S', 'H'] then
    match unsignedOperand 255 o with
    | some v => .ok (commandWord 0x04#8 (BitVec.ofNat 16 v))
    | none => .error .badOperand
  else if m = ['S', 'T', 'A', 'T'] then
    match statOperand o with
    | some v => .ok (commandWord 0x08#8 (BitVec.ofNat 16 v))
    | none => .error .badOperand
  else .error .noSuchCommand

/-- The directive `.word 0x........`: an arbitrary 32-bit word, eight hexadecimal digits (R80). -/
def wordDirective : AsmOperand → Except AsmError Word
  | .hex 8 v => .ok (BitVec.ofNat 32 v)
  | _ => .error .badOperand

/-- The words of a line: what stands before `;`, cut at spaces (R80). -/
def lineWords (line : List Char) : List (List Char) :=
  (((line.takeWhile (· != ';')).splitOnP (· == ' ')).filter fun cs => !cs.isEmpty)

/-- One command of a line, `.word` aside; nothing for a line without words (R80). -/
def assembleCommand (ws : List (List Char)) : Except AsmError (Option Word) :=
  match ws with
  | [] => .ok none
  | [m] =>
    match plainCommand m with
    | some i => .ok (some (encode i))
    | none => .error .noSuchCommand
  | [m, o] => (operandCommand m (readOperand o)).map some
  | _ => .error .noSuchCommand

/-- One line of the assembler (R80). -/
def assembleLine (line : List Char) : Except AsmError (Option Word) :=
  match lineWords line with
  | [['.', 'w', 'o', 'r', 'd'], o] => (wordDirective (readOperand o)).map some
  | ws => assembleCommand ws

/-- The lower-case hexadecimal digit of `n` < 16. -/
def hexDigit (n : Nat) : Char := if n < 10 then Char.ofNat (48 + n) else Char.ofNat (87 + n)

/-- The `n` low hexadecimal digits of `v`, most significant first. -/
def hexText : Nat → Nat → List Char
  | 0, _ => []
  | n + 1, v => hexText n (v / 16) ++ [hexDigit (v % 16)]

/-- A number below 10^5 in decimal, without leading zeros. -/
def decimalText (v : Nat) : List Char :=
  let ds := [v / 10000 % 10, v / 1000 % 10, v / 100 % 10, v / 10 % 10].dropWhile (· == 0)
  (ds ++ [v % 10]).map fun d => Char.ofNat (48 + d)

/-- A signed number in decimal. -/
def intText (v : Int) : List Char := if v < 0 then '-' :: decimalText v.natAbs else decimalText v.natAbs

/-- The mnemonic and operand of a command (R73, R80). -/
def commandText : Instr → List Char
  | .nop => ['N', 'O', 'P']
  | .hstart len => ['H', 'S', 'T', 'A', 'R', 'T', ' '] ++ intText len
  | .pstart => ['P', 'S', 'T', 'A', 'R', 'T']
  | .rstart => ['R', 'S', 'T', 'A', 'R', 'T']
  | .push b => ['P', 'U', 'S', 'H', ' ', '0', 'x'] ++ hexText 2 b.toNat
  | .fin => ['F', 'I', 'N']
  | .finr => ['F', 'I', 'N', 'R']
  | .pop => ['P', 'O', 'P']
  | .statStatus => ['S', 'T', 'A', 'T', ' ', '0']
  | .statCause => ['S', 'T', 'A', 'T', ' ', '1']
  | .statLen => ['S', 'T', 'A', 'T', ' ', '2']
  | .statRate => ['S', 'T', 'A', 'T', ' ', '3']
  | .statFill => ['S', 'T', 'A', 'T', ' ', '4']
  | .statOutp => ['S', 'T', 'A', 'T', ' ', '5']
  | .statId => ['S', 'T', 'A', 'T', ' ', '6']
  | .endCall => ['E', 'N', 'D']

/-- The listing form of an encoded command: eight hexadecimal digits, two spaces, the command (R80). -/
def listingLine (i : Instr) : List Char := hexText 8 (encode i).toNat ++ [' ', ' '] ++ commandText i

end Sys2Proof.Machine
end

