-- ==== Sys2Proof/Safety.lean ====
section
/-! DEFINITION. The terms claims are stated in: the between-command invariant (10_state.md R39, R40), what the host can see
of a state, running a list of commands (43_call_control.md R179), and what a `HASH` call has absorbed so far (41_sponge.md
R120). -/

namespace Sys2Proof

open Machine

/-- The 144 zero bytes of an unused working buffer. -/
def zeroBuffer : Vector Byte 144 := Vector.replicate 144 0#8

/-- The 32 zero bytes of an unused scalar register. -/
def zeroScalar : Scalar := Vector.replicate 32 0#8

/-- The between-command invariant: R39, R40 (a) to (e), with the register conditions of R30, R31, R33, R34, the response form
of R78, the buffer bound of R60, and what `BUF`, `SREG` and `A` hold when a call does not use them (92_eei_decisions.md
D33). Clauses told by `PHASE` alone leave `FAULT` out, where every register but `PHASE` and `CAUSE` keeps its value. -/
structure Inv (s : State) : Prop where
  /-- A pending response has bits 30:16 zero and the current `F` (R37, R78). -/
  response : ∀ r, s.rsp = some r → r.extractLsb' 16 15 = 0#15 ∧ r.getLsbD 31 = s.flagF
  /-- `CAUSE` is 0 but in `FAULT` (R34, R213). -/
  cause_iff : s.phase = .fault ↔ s.cause ≠ .none
  /-- R40 (a). -/
  idle_iff : s.phase ≠ .fault → (s.phase = .idle ↔ s.mode = .none)
  /-- With no call every register of the call has its reset value (R39); `LEN` and `RATE` in `not_hash`. -/
  no_call : s.mode = .none →
    s.a = zeroLanes ∧ s.sreg = zeroScalar ∧ s.fill = 0#8 ∧ s.osrc = .state ∧ s.olen = 0#8 ∧ s.optr = 0#8
  /-- Outside `HASH` mode `LEN` and `RATE` are 0 and `BUF` is unused (R30, R31, D33). -/
  not_hash : s.mode ≠ .hash → s.len = 0#16 ∧ s.rate = 0#8 ∧ s.buf = zeroBuffer
  /-- In `HASH` mode `LEN` is valid, `RATE` is its rate, and `BUF` is zero from `RATE` on (R30, R31, R60). -/
  hash_len : s.mode = .hash →
    s.len.toNat ∈ validLengths ∧ (s.rate.toNat : Int) = rateOf s.len.toNat ∧
      ∀ k, s.rate.toNat ≤ k → k < 144 → s.buf[k]? = some 0#8
  /-- The scalar register is unused by a `PERM` call and by a hash that is not reduced (D33). -/
  scalar_unused : (s.mode = .perm ∨ (s.mode = .hash ∧ s.osrc = .state)) → s.sreg = zeroScalar
  /-- The lanes are unused by a `RED` call (R152, R154). -/
  lanes_unused : s.mode = .red → s.a = zeroLanes
  /-- Nothing is presented while input is taken (R33). -/
  absorbing : s.phase = .absorb → s.osrc = .state ∧ s.olen = 0#8 ∧ s.optr = 0#8
  /-- R40 (b). -/
  hash_fill : s.phase = .absorb → s.mode = .hash → s.fill.toNat < s.rate.toNat
  /-- R40 (c). -/
  perm_fill : s.phase = .absorb → s.mode = .perm →
    s.fill.toNat ≤ 200 ∧ ∀ k, s.fill.toNat ≤ k → k < 200 → s.byte? .st k = some 0#8
  /-- R40 (d). -/
  red_fill : s.phase = .absorb → s.mode = .red →
    s.fill.toNat ≤ 32 ∧ ∀ k, s.fill.toNat ≤ k → k < 32 → s.byte? .sreg k = some 0#8
  /-- R40 (e). -/
  out_read : s.phase = .out → s.fill = 0#8 ∧ s.optr.toNat ≤ s.olen.toNat ∧ s.olen.toNat ∈ validLengths
  /-- R40 (e), the reduced result. -/
  out_scalar : s.phase = .out → s.osrc = .scalar → s.olen = 32#8 ∧ scalarNat s.sreg < groupOrder
  /-- `OLEN` and `OSRC` by the call's function (R33). -/
  out_len : s.phase = .out →
    (s.mode = .hash → s.osrc = .state → s.olen.toNat = s.len.toNat) ∧
      (s.mode = .perm → s.osrc = .state ∧ s.olen = 200#8) ∧ (s.mode = .red → s.osrc = .scalar)

/-- What the host can learn of a state without another command: the registers `STAT` reads, the response pending, and its
own further actions (R35, R42). It leaves out `A`, `BUF` and `SREG`. -/
def SameView (s t : State) : Prop :=
  s.phase = t.phase ∧ s.mode = t.mode ∧ s.osrc = t.osrc ∧ s.len = t.len ∧ s.rate = t.rate ∧ s.fill = t.fill ∧
    s.olen = t.olen ∧ s.optr = t.optr ∧ s.cause = t.cause ∧ s.rsp = t.rsp ∧ s.inputs = t.inputs

/-- The state after `s` took the misuse fault `c`, as R213 gives it. -/
def faulted (s : State) (c : Cause) : State :=
  { s with phase := .fault, cause := c, rsp := some (BitVec.ofNat 32 (0x80000000 + c.code.toNat)) }

/-- Run commands one after another, each response taken before the next command, collecting the responses: the left fold
of R179. Nothing where one of them ends in a fault of the model or a refusal. -/
def runCommands : List Instr → State → Option (State × List Word)
  | [], s => some (s, [])
  | i :: is, s =>
    match exec i s with
    | .next t => (runCommands is { t with rsp := none }).map fun p => (p.1, t.rsp.toList ++ p.2)
    | .fault _ => none
    | .refused _ => none

/-- The response of a successful command that returns the byte `b` (R79). -/
def byteResponse (b : Byte) : Word := b.setWidth 32

/-- The commands of a call: a START-type command, a `PUSH` for each byte, a FIN-type command, `n` times `POP`, `END`
(R170). -/
def callCommands (start : Instr) (pushed : List Byte) (finish : Instr) (n : Nat) : List Instr :=
  [start] ++ pushed.map Instr.push ++ [finish] ++ List.replicate n Instr.pop ++ [Instr.endCall]

/-- The responses of a call that pushes `pushed` and reads the bytes `result`: the bytes for the `POP` commands, 0 for the
others (R79, R180). -/
def callResponses (pushed result : List Byte) : List Word :=
  List.replicate (pushed.length + 2) 0#32 ++ result.map byteResponse ++ [0#32]

/-- A `HASH` call that has taken the message `m`: after ⌊|m| / `RATE`⌋ full blocks `A` is the state of R110, and
`BUF[0..FILL−1]` holds the bytes since (R120). -/
def HasAbsorbed (m : List Byte) (s : State) : Prop :=
  s.phase = .absorb ∧ s.mode = .hash ∧ s.len.toNat ∈ validLengths ∧ (s.rate.toNat : Int) = rateOf s.len.toNat ∧
    s.fill.toNat = m.length % s.rate.toNat ∧
    s.a = absorbBlocks s.rate.toNat (m.length / s.rate.toNat) zeroLanes m ∧
    s.buf.toList.take s.fill.toNat = m.drop (m.length / s.rate.toNat * s.rate.toNat)

end Sys2Proof
end

