-- ==== Sys2Proof/Certificates/Slice0/Obligations.lean ====
section
/-! DEFINITION. The statements for the provers. Each says which rules of spec/ it formalises in its docstring. -/

open Sys2Proof Sys2Proof.Machine

/-! ## Encoding -/

/-- Decoding the word of any well-formed command gives the command back (R71 to R73, R82). -/
def Obligations.DecodeEncodeRoundTrip : Prop :=
  ∀ i : Instr, i.wf = true → decode (encode i) = .ok i

/-- Each legal word is the word of exactly the command it decodes to, which is well-formed (R76: no encoding executes as
another command). -/
def Obligations.DecodedWordIsItsEncoding : Prop :=
  ∀ (w : Word) (i : Instr), decode w = .ok i → i.wf = true ∧ encode i = w

/-- R74: the decoder accepts exactly the legal words, every other word is illegal, and there are 65806 legal words. -/
def Obligations.LegalWordsAreTheDecodedOnes : Prop :=
  (∀ w : Word, legalWord w ↔ ∃ i, decode w = .ok i) ∧
    (∀ w : Word, ¬ legalWord w ↔ ∃ e, decode w = .error e) ∧
    ∃ l : List Word, l.Nodup ∧ l.length = 65806 ∧ ∀ w, w ∈ l ↔ legalWord w

/-- The worked examples of R82. -/
def Obligations.WorkedExamplesDecode : Prop :=
  decode 0x01000020#32 = .ok (.hstart 32) ∧ decode 0x0100FFFF#32 = .ok (.hstart (-1)) ∧
    decode 0x04000061#32 = .ok (.push 0x61#8) ∧ decode 0x08000005#32 = .ok .statOutp ∧
    decode 0x00000000#32 = .ok .nop ∧ decode 0x06000000#32 = .ok .finr ∧
    (∀ w ∈ [0x04000161#32, 0x05010000#32, 0x08000007#32, 0x0A000000#32, 0xFFFFFFFF#32], ∃ e, decode w = .error e)

/-! ## The step -/

/-- R178, R42: a word presented with no reset and no response pending is decoded and executed on the state whose moment
has passed; `step` adds nothing else. -/
def Obligations.StepRunsDecodedCommand : Prop :=
  ∀ (s : State) (p : Pins) (rest : List Pins) (w : Word) (i : Instr),
    s.inputs = p :: rest → p.rst = false → s.rsp = none → p.cmd = some w → decode w = .ok i →
      step s = exec i { s with inputs := rest }

/-- R75, R207, R214: an illegal word raises `ILLEGAL` and changes nothing else; in `FAULT` it is dropped. -/
def Obligations.IllegalWordFaultsOrIsDropped : Prop :=
  ∀ (s : State) (p : Pins) (rest : List Pins) (w : Word),
    s.inputs = p :: rest → p.rst = false → s.rsp = none → p.cmd = some w → ¬ legalWord w →
      (s.phase ≠ .fault → step s = .next (faulted { s with inputs := rest } .illegal)) ∧
        (s.phase = .fault →
          step s = .next { s with
            inputs := rest, rsp := some (BitVec.ofNat 32 (0x80000000 + s.cause.code.toNat)) })

/-- R42: while a response is pending no command is accepted; it leaves when the host takes it, and with neither a response
nor a command, or with nothing more from the host, nothing happens. That the host's signals stand in a list is the model's
choice (notes/assumptions/1.md, 2.md). -/
def Obligations.ResponseHandshake : Prop :=
  (∀ s : State, s.inputs = [] → step s = .next s) ∧
    ∀ (s : State) (p : Pins) (rest : List Pins), s.inputs = p :: rest → p.rst = false →
      (∀ r, s.rsp = some r →
        step s = .next { s with inputs := rest, rsp := if p.rspReady then none else some r }) ∧
      (s.rsp = none → p.cmd = none → step s = .next { s with inputs := rest })

/-- R230, R237: reset wins over any command or response, from any state, and gives every register its reset value.
That the host's further moments, `inputs`, stay as they are is the model's choice (notes/assumptions/5.md). -/
def Obligations.ResetWinsFromAnyState : Prop :=
  ∀ (s : State) (p : Pins) (rest : List Pins), s.inputs = p :: rest → p.rst = true →
    step s = .next { State.reset with inputs := rest }

/-- R38: the values after reset, and the outputs `fault`, `idle`, `cmd_ready`, `rsp_valid` then (R42). -/
def Obligations.ResetValues : Prop :=
  (∀ i : Fin 25, State.reset.a[i.val] = 0#64) ∧ (∀ k : Fin 144, State.reset.buf[k.val] = 0#8) ∧
    (∀ k : Fin 32, State.reset.sreg[k.val] = 0#8) ∧ State.reset.mode.code = 0#2 ∧ State.reset.phase.code = 0#2 ∧
    State.reset.osrc.code = 0#1 ∧ State.reset.len = 0#16 ∧ State.reset.rate = 0#8 ∧ State.reset.fill = 0#8 ∧
    State.reset.olen = 0#8 ∧ State.reset.optr = 0#8 ∧ State.reset.cause.code = 0#4 ∧
    State.reset.faultOut = false ∧ State.reset.idleOut = true ∧ State.reset.cmdReady = true ∧
    State.reset.rspValid = false

/-- Running a list of commands (R179) is what the ports do with it: presenting each word and taking each response moves the
machine from `s` to the same last state in two steps per command (R42, R62). -/
def Obligations.PortsRunCommandsInOrder : Prop :=
  ∀ (is : List Instr) (s t : State) (rs : List Word),
    (∀ i ∈ is, i.wf = true) → s.rsp = none → s.inputs = [] → runCommands is s = some (t, rs) →
      Sys2Proof.core.run (2 * is.length) { s with inputs := programPins (is.map encode) } = .next t

/-! ## The invariant -/

/-- Every step keeps the between-command invariant (R39, R40, R60, R78). -/
def Obligations.StepKeepsInvariant : Prop :=
  ∀ s t : State, Inv s → step s = .next t → Inv t

/-- The reset state meets the invariant. -/
def Obligations.ResetMeetsInvariant : Prop := Inv State.reset

/-- R59, R178, R240: in a state that meets the invariant every step has a next state; no index is outside its store and no
`PUSH` or `FIN` finds `MODE` = `NONE`. -/
def Obligations.InvariantStatesProgress : Prop :=
  ∀ s : State, Inv s → ∃ t, step s = .next t

/-- R39: in `IDLE` every register has its reset value. -/
def Obligations.IdleMeansResetRegisters : Prop :=
  ∀ s : State, Inv s → s.phase = .idle → s = { State.reset with rsp := s.rsp, inputs := s.inputs }

/-! ## Faults -/

/-- R213: fault entry writes `PHASE` and `CAUSE` and answers `0x80000000 + c`, nothing else; the cause is one of 1..10. -/
def Obligations.FaultEntryIsPrecise : Prop :=
  ∀ (w : Word) (s t : State), accept w s = .next t → s.phase ≠ .fault → t.phase = .fault →
    t.cause ≠ .none ∧ t = faulted s t.cause ∧ t.faultOut = true

/-- R214: in `FAULT` no word changes a register; a legal `STAT` is answered, every other word gets the cause. -/
def Obligations.FaultPhaseDropsCommands : Prop :=
  ∀ (w : Word) (s : State), s.phase = .fault →
    accept w s = .next { s with
      rsp := some (rspWord true
        (match decode w with
          | .ok .statStatus => s.srStatus
          | .ok .statCause => s.srCause
          | .ok .statLen => s.srLen
          | .ok .statRate => s.srRate
          | .ok .statFill => s.srFill
          | .ok .statOutp => s.srOutp
          | .ok .statId => s.srId
          | _ => s.cause.data)) }

/-- R215: `FAULT` is left by reset alone, which returns every register to its reset value. That the host's further
moments, `inputs`, stay through a reset is the model's choice (notes/assumptions/5.md). -/
def Obligations.FaultIsLeftByResetOnly : Prop :=
  ∀ s t : State, s.phase = .fault → step s = .next t →
    t = { s with rsp := t.rsp, inputs := t.inputs } ∨
      ∃ p rest, s.inputs = p :: rest ∧ p.rst = true ∧ t = { State.reset with inputs := rest }

/-- R214: in `FAULT` nothing the host can see depends on the lanes, the buffer or the scalar register. -/
def Obligations.FaultHidesData : Prop :=
  ∀ s₁ s₂ t₁ : State, s₁.phase = .fault → SameView s₁ s₂ → step s₁ = .next t₁ →
    ∃ t₂, step s₂ = .next t₂ ∧ SameView t₁ t₂

/-- R208: a command out of its phase, and `FINR` out of `HASH` mode, raises `SEQ`; in `FAULT` nothing is raised. -/
def Obligations.OutOfPhaseRaisesSeq : Prop :=
  ∀ s : State, s.phase ≠ .fault →
    (s.phase ≠ .idle →
      (∀ len, exec (.hstart len) s = .next (faulted s .seq)) ∧ exec .pstart s = .next (faulted s .seq) ∧
        exec .rstart s = .next (faulted s .seq)) ∧
    (s.phase ≠ .absorb →
      (∀ b, exec (.push b) s = .next (faulted s .seq)) ∧ exec .fin s = .next (faulted s .seq) ∧
        exec .finr s = .next (faulted s .seq)) ∧
    (s.phase = .absorb → s.mode ≠ .hash → exec .finr s = .next (faulted s .seq)) ∧
    (s.phase ≠ .out → exec .pop s = .next (faulted s .seq) ∧ exec .endCall s = .next (faulted s .seq))

/-- R209: `OPLEN` is raised in `PERM` mode by the 201st byte and by `FIN` without exactly 200 bytes, in `RED` mode by the
33rd byte and by `FIN` without exactly 32 bytes; and in `HASH` mode, whatever the phase, no
word raises it. -/
def Obligations.WrongOperandSizeRaisesOplen : Prop :=
  ∀ s : State,
    (s.phase = .absorb → s.mode = .perm → s.fill = 200#8 → ∀ b, exec (.push b) s = .next (faulted s .oplen)) ∧
    (s.phase = .absorb → s.mode = .perm → s.fill ≠ 200#8 → exec .fin s = .next (faulted s .oplen)) ∧
    (s.phase = .absorb → s.mode = .red → s.fill = 32#8 → ∀ b, exec (.push b) s = .next (faulted s .oplen)) ∧
    (s.phase = .absorb → s.mode = .red → s.fill ≠ 32#8 → exec .fin s = .next (faulted s .oplen)) ∧
    (s.mode = .hash → ∀ w t, s.cause ≠ .oplen → accept w s = .next t → t.cause ≠ .oplen)

/-- R202 to R206: the five length faults of `HSTART` in `IDLE`, each with the lengths that raise it. -/
def Obligations.HstartLengthFaults : Prop :=
  ∀ (s : State) (len : Int), s.phase = .idle →
    (len ≤ 0 → exec (.hstart len) s = .next (faulted s .lenNonpos)) ∧
    (100 < len → len ≠ 200 → exec (.hstart len) s = .next (faulted s .lenRange)) ∧
    (len = 100 → exec (.hstart len) s = .next (faulted s .rateZero)) ∧
    (1 ≤ len → len ≤ 28 → exec (.hstart len) s = .next (faulted s .bufOvf)) ∧
    (29 ≤ len → len ≤ 99 → len % 8 ≠ 0 → exec (.hstart len) s = .next (faulted s .lenAlign))

/-! ## What each command does -/

/-- R171: `NOP` answers `0x00000000` and changes no state; in `FAULT` it is dropped. -/
def Obligations.NopChangesNothing : Prop :=
  ∀ s : State,
    (s.phase ≠ .fault → exec .nop s = .next { s with rsp := some 0#32 }) ∧
      (s.phase = .fault →
        exec .nop s = .next { s with rsp := some (BitVec.ofNat 32 (0x80000000 + s.cause.code.toNat)) })

/-- R113, R122: `HSTART` of each valid length in `IDLE` zeroes the lanes and latches `LEN` and its `RATE`. -/
def Obligations.HstartBeginsHashCall : Prop :=
  ∀ (s : State) (n r : Nat), s.phase = .idle →
    (n, r) ∈ [(32, 136), (40, 120), (48, 104), (56, 88), (64, 72), (72, 56), (80, 40), (88, 24), (96, 8), (200, 136)] →
      exec (.hstart n) s = .next { s with
        a := Vector.replicate 25 0#64, fill := 0#8, len := BitVec.ofNat 16 n, rate := BitVec.ofNat 8 r,
        mode := .hash, phase := .absorb, rsp := some 0#32 }

/-- R172: `PSTART` zeroes the lanes and opens a raw permutation call; outside `IDLE` it raises `SEQ`. -/
def Obligations.PstartBeginsPermutationCall : Prop :=
  ∀ s : State,
    (s.phase = .idle →
      exec .pstart s = .next { s with
        a := Vector.replicate 25 0#64, fill := 0#8, mode := .perm, phase := .absorb, rsp := some 0#32 }) ∧
    (s.phase ≠ .idle → s.phase ≠ .fault → exec .pstart s = .next (faulted s .seq))

/-- R152: `RSTART` zeroes the scalar register and opens a raw reduction call; outside `IDLE` it raises `SEQ`. -/
def Obligations.RstartBeginsReductionCall : Prop :=
  ∀ s : State,
    (s.phase = .idle →
      exec .rstart s = .next { s with
        sreg := Vector.replicate 32 0#8, fill := 0#8, mode := .red, phase := .absorb, rsp := some 0#32 }) ∧
    (s.phase ≠ .idle → s.phase ≠ .fault → exec .rstart s = .next (faulted s .seq))

/-- R114: `PUSH` in `HASH` mode writes `BUF[FILL]`, changes no other byte of `BUF` and no register but `FILL`; only a full
block is absorbed into the lanes and permuted, `FILL` then being 0. Outside `ABSORB` it raises `SEQ`. -/
def Obligations.PushInHashMode : Prop :=
  ∀ (s : State) (b : Byte), s.mode = .hash →
    (s.phase = .absorb → s.fill.toNat < s.rate.toNat → s.rate.toNat ≤ 144 → s.rate.toNat % 8 = 0 →
      ∃ t, exec (.push b) s = .next t ∧ t.rsp = some 0#32 ∧
        t.byte? .buf s.fill.toNat = some b ∧
        (∀ k, k ≠ s.fill.toNat → t.byte? .buf k = s.byte? .buf k) ∧
        (∀ k, t.byte? .sreg k = s.byte? .sreg k) ∧
        t = { s with a := t.a, buf := t.buf, fill := t.fill, rsp := t.rsp } ∧
        (s.fill.toNat + 1 ≠ s.rate.toNat → t.a = s.a ∧ t.fill.toNat = s.fill.toNat + 1) ∧
        (s.fill.toNat + 1 = s.rate.toNat →
          t.a = permute (absorb s.a (s.buf.toList.take s.fill.toNat ++ [b]) s.rate.toNat) ∧ t.fill = 0#8)) ∧
    (s.phase ≠ .absorb → s.phase ≠ .fault → exec (.push b) s = .next (faulted s .seq))

/-- R173: `PUSH` in `PERM` mode replaces `ST[FILL]` and changes nothing else but `FILL`; the 201st byte raises `OPLEN`,
and a byte outside `ABSORB` `SEQ`. -/
def Obligations.PushInPermMode : Prop :=
  ∀ (s : State) (b : Byte), s.mode = .perm →
    (s.phase = .absorb → s.fill.toNat < 200 →
      ∃ t, exec (.push b) s = .next t ∧ t.rsp = some 0#32 ∧ t.fill.toNat = s.fill.toNat + 1 ∧
        t.byte? .st s.fill.toNat = some b ∧ (∀ k, k ≠ s.fill.toNat → t.byte? .st k = s.byte? .st k) ∧
        t = { s with a := t.a, fill := t.fill, rsp := t.rsp }) ∧
    (s.phase = .absorb → s.fill = 200#8 → exec (.push b) s = .next (faulted s .oplen)) ∧
    (s.phase ≠ .absorb → s.phase ≠ .fault → exec (.push b) s = .next (faulted s .seq))

/-- R153: `PUSH` in `RED` mode writes `SREG[FILL]` and changes nothing else but `FILL`; the 33rd byte raises `OPLEN`,
and a byte outside `ABSORB` `SEQ`. -/
def Obligations.PushInRedMode : Prop :=
  ∀ (s : State) (b : Byte), s.mode = .red →
    (s.phase = .absorb → s.fill.toNat < 32 →
      ∃ t, exec (.push b) s = .next t ∧ t.rsp = some 0#32 ∧ t.fill.toNat = s.fill.toNat + 1 ∧
        t.byte? .sreg s.fill.toNat = some b ∧ (∀ k, k ≠ s.fill.toNat → t.byte? .sreg k = s.byte? .sreg k) ∧
        t = { s with sreg := t.sreg, fill := t.fill, rsp := t.rsp }) ∧
    (s.phase = .absorb → s.fill = 32#8 → exec (.push b) s = .next (faulted s .oplen)) ∧
    (s.phase ≠ .absorb → s.phase ≠ .fault → exec (.push b) s = .next (faulted s .seq))

/-- R116: `FIN` in `HASH` mode makes the padded block in `BUF[0..RATE−1]`, leaves `BUF` as it was from `RATE` on, absorbs the
block, permutes, and presents `LEN` bytes of the state; no other register changes. Outside `ABSORB` it raises `SEQ`. -/
def Obligations.FinInHashMode : Prop :=
  ∀ s : State, s.mode = .hash →
    (s.phase = .absorb → s.fill.toNat < s.rate.toNat → s.rate.toNat ≤ 144 → s.rate.toNat % 8 = 0 →
      ∃ t, exec .fin s = .next t ∧ t.rsp = some 0#32 ∧
        t.buf.toList.take s.rate.toNat = paddedBlock (s.buf.toList.take s.fill.toNat) s.rate.toNat ∧
        (∀ k, s.rate.toNat ≤ k → t.byte? .buf k = s.byte? .buf k) ∧
        t.a = permute (absorb s.a (paddedBlock (s.buf.toList.take s.fill.toNat) s.rate.toNat) s.rate.toNat) ∧
        t = { s with
          a := t.a, buf := t.buf, olen := s.len.setWidth 8, optr := 0#8, osrc := .state, fill := 0#8,
          phase := .out, rsp := t.rsp }) ∧
    (s.phase ≠ .absorb → s.phase ≠ .fault → exec .fin s = .next (faulted s .seq))

/-- R174: `FIN` in `PERM` mode permutes exactly 200 loaded bytes and presents them; with another count it raises `OPLEN`,
outside `ABSORB` `SEQ`. -/
def Obligations.FinInPermMode : Prop :=
  ∀ s : State, s.mode = .perm →
    (s.phase = .absorb → s.fill = 200#8 →
      exec .fin s = .next { s with
        a := permute s.a, olen := 200#8, optr := 0#8, osrc := .state, fill := 0#8, phase := .out,
        rsp := some 0#32 }) ∧
    (s.phase = .absorb → s.fill ≠ 200#8 → exec .fin s = .next (faulted s .oplen)) ∧
    (s.phase ≠ .absorb → s.phase ≠ .fault → exec .fin s = .next (faulted s .seq))

/-- R154, R140: `FIN` in `RED` mode replaces the 32 loaded bytes by those of their value modulo `L` and presents them; with
another count it raises `OPLEN`, outside `ABSORB` `SEQ`. -/
def Obligations.FinInRedMode : Prop :=
  ∀ s : State, s.mode = .red →
    (s.phase = .absorb → s.fill = 32#8 →
      ∃ t, exec .fin s = .next t ∧
        t = { s with
          sreg := t.sreg, olen := 32#8, optr := 0#8, osrc := .scalar, fill := 0#8, phase := .out,
          rsp := some 0#32 } ∧
        leNat t.sreg.toList = leNat s.sreg.toList % groupOrder) ∧
    (s.phase = .absorb → s.fill ≠ 32#8 → exec .fin s = .next (faulted s .oplen)) ∧
    (s.phase ≠ .absorb → s.phase ≠ .fault → exec .fin s = .next (faulted s .seq))

/-- R155: `FINR` pads, absorbs and permutes as `FIN` does, hands `ST[0..31]` to the reducer and presents the residue; with
`LEN` ≠ 32 it raises `FINR_LEN`, out of `HASH` mode or `ABSORB` `SEQ`. -/
def Obligations.FinrReducesTheDigest : Prop :=
  ∀ s : State,
    (s.phase = .absorb → s.mode = .hash → s.len = 32#16 →
      s.fill.toNat < s.rate.toNat → s.rate.toNat ≤ 144 → s.rate.toNat % 8 = 0 →
        ∃ t, exec .finr s = .next t ∧ t.rsp = some 0#32 ∧
          t.buf.toList.take s.rate.toNat = paddedBlock (s.buf.toList.take s.fill.toNat) s.rate.toNat ∧
          (∀ k, s.rate.toNat ≤ k → t.byte? .buf k = s.byte? .buf k) ∧
          t.a = permute (absorb s.a (paddedBlock (s.buf.toList.take s.fill.toNat) s.rate.toNat) s.rate.toNat) ∧
          leNat t.sreg.toList = leNat ((stateBytes t.a).take 32) % groupOrder ∧
          t = { s with
            a := t.a, buf := t.buf, sreg := t.sreg, olen := 32#8, optr := 0#8, osrc := .scalar, fill := 0#8,
            phase := .out, rsp := t.rsp }) ∧
    (s.phase = .absorb → s.mode = .hash → s.len ≠ 32#16 → exec .finr s = .next (faulted s .finrLen)) ∧
    (s.phase = .absorb → s.mode ≠ .hash → exec .finr s = .next (faulted s .seq)) ∧
    (s.phase ≠ .absorb → s.phase ≠ .fault → exec .finr s = .next (faulted s .seq))

/-- R175: `POP` answers the byte `OPTR` of the presented store and advances `OPTR`, nothing else; with all bytes read it
raises `OUT_EMPTY`, outside `OUT` `SEQ`. -/
def Obligations.PopReadsTheNextByte : Prop :=
  ∀ s : State,
    (s.phase = .out → s.osrc = .state → s.optr ≠ s.olen → s.optr.toNat < 200 →
      exec .pop s = .next { s with
        optr := s.optr + 1#8, rsp := ((stateBytes s.a)[s.optr.toNat]?).map byteResponse }) ∧
    (s.phase = .out → s.osrc = .scalar → s.optr ≠ s.olen → s.optr.toNat < 32 →
      exec .pop s = .next { s with
        optr := s.optr + 1#8, rsp := (s.sreg[s.optr.toNat]?).map byteResponse }) ∧
    (s.phase = .out → s.optr = s.olen → exec .pop s = .next (faulted s .outEmpty)) ∧
    (s.phase ≠ .out → s.phase ≠ .fault → exec .pop s = .next (faulted s .seq))

/-- R35, R176: each `STAT` answers its register, `F` in bit 31, and changes no state, in every phase. -/
def Obligations.StatReadsItsRegister : Prop :=
  ∀ s : State,
    let f := if s.phase = .fault then 0x80000000 else 0
    exec .statStatus s = .next { s with
      rsp := some (BitVec.ofNat 32 (f + s.phase.code.toNat + 4 * s.mode.code.toNat + 16 * s.osrc.code.toNat)) } ∧
    exec .statCause s = .next { s with rsp := some (BitVec.ofNat 32 (f + s.cause.code.toNat)) } ∧
    exec .statLen s = .next { s with rsp := some (BitVec.ofNat 32 (f + s.len.toNat)) } ∧
    exec .statRate s = .next { s with rsp := some (BitVec.ofNat 32 (f + s.rate.toNat)) } ∧
    exec .statFill s = .next { s with rsp := some (BitVec.ofNat 32 (f + s.fill.toNat)) } ∧
    exec .statOutp s = .next { s with rsp := some (BitVec.ofNat 32 (f + s.optr.toNat + 256 * s.olen.toNat)) } ∧
    exec .statId s = .next { s with rsp := some (BitVec.ofNat 32 (f + 0x4B01)) }

/-- R177: `END` in `OUT` gives every register of the call its reset value, `CAUSE` untouched; outside `OUT` it raises
`SEQ`. -/
def Obligations.EndScrubsTheCall : Prop :=
  ∀ s : State,
    (s.phase = .out →
      exec .endCall s = .next { State.reset with cause := s.cause, rsp := some 0#32, inputs := s.inputs }) ∧
    (s.phase ≠ .out → s.phase ≠ .fault → exec .endCall s = .next (faulted s .seq))

/-! ## Rules over all commands -/

/-- R78, R79: every accepted word leaves exactly one response with `F` = (`PHASE` = `FAULT`) after it, bits 30:16 zero, and
`DATA` by the table of R79. -/
def Obligations.ResponseWordForm : Prop :=
  ∀ (w : Word) (s t : State), accept w s = .next t →
    ∃ r, t.rsp = some r ∧ r.getLsbD 31 = decide (t.phase = .fault) ∧ r.extractLsb' 16 15 = 0#15 ∧
      some (r.extractLsb' 0 16) =
        match decode w with
        | .ok .statStatus => some s.srStatus
        | .ok .statCause => some s.srCause
        | .ok .statLen => some s.srLen
        | .ok .statRate => some s.srRate
        | .ok .statFill => some s.srFill
        | .ok .statOutp => some s.srOutp
        | .ok .statId => some s.srId
        | .ok .pop =>
          if t.phase = .fault then some t.cause.data
          else (s.byte? s.osrc.store s.optr.toNat).map fun b => b.setWidth 16
        | _ => if t.phase = .fault then some t.cause.data else some 0#16

/-- R170: outside `FAULT` a command leaves `PHASE` as it was, faults, or makes one of the three moves of a call. -/
def Obligations.PhaseMovesOnlyAlongACall : Prop :=
  ∀ (i : Instr) (s t : State), exec i s = .next t → s.phase ≠ .fault →
    t.phase = s.phase ∨ t.phase = .fault ∨
      (s.phase = .idle ∧ t.phase = .absorb ∧ t.mode ≠ .none ∧ ((∃ len, i = .hstart len) ∨ i = .pstart ∨ i = .rstart)) ∨
      (s.phase = .absorb ∧ t.phase = .out ∧ (i = .fin ∨ i = .finr)) ∨
      (s.phase = .out ∧ t.phase = .idle ∧ t.mode = .none ∧ i = .endCall)

/-- R20, R23, R24, R50: which commands can change the lanes, the buffer and the scalar register. -/
def Obligations.WhoWritesEachStore : Prop :=
  ∀ (i : Instr) (s t : State), exec i s = .next t →
    (t.a ≠ s.a → (∃ len, i = .hstart len) ∨ i = .pstart ∨ i = .endCall ∨ i = .finr ∨
      (((∃ b, i = .push b) ∨ i = .fin) ∧ (s.mode = .hash ∨ s.mode = .perm))) ∧
    (t.buf ≠ s.buf → i = .endCall ∨ i = .finr ∨ (((∃ b, i = .push b) ∨ i = .fin) ∧ s.mode = .hash)) ∧
    (t.sreg ≠ s.sreg → i = .rstart ∨ i = .endCall ∨ i = .finr ∨
      (((∃ b, i = .push b) ∨ i = .fin) ∧ s.mode = .red))

/-- R28, R30, R31, R34: `MODE` is written by the START-type commands and `END` alone, `LEN` and `RATE` by `HSTART` and `END`
alone, and `CAUSE` by nothing but fault entry. -/
def Obligations.WhoWritesControlRegisters : Prop :=
  ∀ (i : Instr) (s t : State), exec i s = .next t →
    (t.mode = s.mode ∨ ((∃ len, i = .hstart len) ∧ t.mode = .hash) ∨ (i = .pstart ∧ t.mode = .perm) ∨
      (i = .rstart ∧ t.mode = .red) ∨ (i = .endCall ∧ t.mode = .none)) ∧
    ((t.len = s.len ∧ t.rate = s.rate) ∨ (∃ len, i = .hstart len) ∨ i = .endCall) ∧
    (t.cause = s.cause ∨ (s.phase ≠ .fault ∧ t.phase = .fault)) ∧
    t.inputs = s.inputs

/-! ## The permutation engine -/

/-- R99: the chain of R93 is the parallel form, with `DST` the coordinate rule of R99. -/
def Obligations.RhopiParallelForm : Prop :=
  (∀ (a : Lanes) (i : Fin 25), (rhopi a)[rhoTargets[i.val].val] = rotl64 a[i.val] rhoAmounts[i.val]) ∧
    ∀ x y : Fin 5, (rhoTargets[x.val + 5 * y.val]).val = y.val + 5 * ((2 * x.val + 3 * y.val) % 5)

/-- R104: three lanes of the permuted zero state. -/
def Obligations.PermuteOfZeroState : Prop :=
  (permute zeroLanes)[0] = 0xF1258F7940E1DDE7#64 ∧ (permute zeroLanes)[1] = 0x84D5CCF933C0478A#64 ∧
    (permute zeroLanes)[24] = 0xEAF1FF7B5CECA249#64

/-! ## The sponge -/

/-- R117: the final block has `R` bytes: the tail, the marker right after it, zeros, `0x80` in the last byte, and `0x81`
where marker and last byte are one. -/
def Obligations.PaddedBlockBytes : Prop :=
  ∀ (tail : List Byte) (r : Nat), tail.length < r →
    (paddedBlock tail r).length = r ∧
      (∀ k, k < tail.length → (paddedBlock tail r)[k]? = tail[k]?) ∧
      (tail.length + 1 < r → (paddedBlock tail r)[tail.length]? = some 0x01#8 ∧
        (paddedBlock tail r)[r - 1]? = some 0x80#8) ∧
      (tail.length + 1 = r → (paddedBlock tail r)[r - 1]? = some 0x81#8) ∧
      ∀ k, tail.length < k → k + 1 < r → (paddedBlock tail r)[k]? = some 0#8

/-- R3, R110, R112, R122: `hash` succeeds exactly for the ten valid lengths, and then gives `requestedLength` bytes. -/
def Obligations.HashSucceedsExactlyOnValidLengths : Prop :=
  ∀ (m : List Byte) (len : Int),
    ((∃ n ∈ validLengths, len = (n : Int)) ↔ ∃ d, hash m len = .ok d) ∧
      ∀ d, hash m len = .ok d → (d.length : Int) = len

/-- R119: the full-width digest begins with the 32-byte digest. -/
def Obligations.FullWidthDigestExtendsShortOne : Prop :=
  ∀ (m d : List Byte), hash m 200 = .ok d → hash m 32 = .ok (d.take 32)

/-- R120, one `PUSH`: what the block has absorbed grows by the byte pushed. -/
def Obligations.PushExtendsAbsorbedMessage : Prop :=
  ∀ (m : List Byte) (b : Byte) (s : State), HasAbsorbed m s →
    ∃ t, exec (.push b) s = .next t ∧ t.rsp = some 0#32 ∧ HasAbsorbed (m ++ [b]) t ∧ t.len = s.len

/-- R120, `FIN`: after the message `m` the readable bytes are `hash(m, LEN)`. -/
def Obligations.FinDeliversTheHash : Prop :=
  ∀ (m : List Byte) (s : State), HasAbsorbed m s →
    ∃ t, exec .fin s = .next t ∧ t.phase = .out ∧ t.osrc = .state ∧ t.optr = 0#8 ∧ t.olen.toNat = s.len.toNat ∧
      hash m s.len.toNat = .ok ((stateBytes t.a).take s.len.toNat)

/-- R180, first row, and R120: a `HASH` call on any message answers `hash(M, len)` byte by byte, every response with `F` = 0,
and leaves the reset state. -/
def Obligations.HashCallAnswersTheHash : Prop :=
  ∀ (m : List Byte) (n : Nat) (s : State), n ∈ validLengths → Inv s → s.phase = .idle →
    ∃ d, hash m n = .ok d ∧
      runCommands (callCommands (.hstart n) m .fin n) s =
        some ({ State.reset with inputs := s.inputs }, callResponses m d)

/-- R180, second row, and R156: an `FINR` call answers `hashToScalar(M)` = `reduceModL(hash(M, 32))`. -/
def Obligations.HashToScalarCallAnswersTheScalar : Prop :=
  ∀ (m : List Byte) (s : State), Inv s → s.phase = .idle →
    ∃ x, hashToScalar m = .ok x ∧
      runCommands (callCommands (.hstart 32) m .finr 32) s =
        some ({ State.reset with inputs := s.inputs }, callResponses m x.toList)

/-- R180, third row: a raw reduction call answers `reduceModL(X)`. -/
def Obligations.ReductionCallAnswersTheResidue : Prop :=
  ∀ (x : Scalar) (s : State), Inv s → s.phase = .idle →
    runCommands (callCommands .rstart x.toList .fin 32) s =
      some ({ State.reset with inputs := s.inputs }, callResponses x.toList (reduceModL x).toList)

/-- R180, fourth row: a raw permutation call on the byte view of `a` answers the byte view of `permute(a)`. -/
def Obligations.PermutationCallAnswersThePermutedState : Prop :=
  ∀ (a : Lanes) (s : State), Inv s → s.phase = .idle →
    runCommands (callCommands .pstart (stateBytes a) .fin 200) s =
      some ({ State.reset with inputs := s.inputs }, callResponses (stateBytes a) (stateBytes (permute a)))

/-! ## The scalar reducer -/

/-- R140, R142: `reduceModL` is the residue below `L`, idempotent, the identity below `L`, and its byte 31 is at most
0x10. -/
def Obligations.ReduceModLLaws : Prop :=
  ∀ x : Scalar,
    scalarNat (reduceModL x) < groupOrder ∧ scalarNat (reduceModL x) = scalarNat x % groupOrder ∧
      reduceModL (reduceModL x) = reduceModL x ∧ (scalarNat x < groupOrder → reduceModL x = x) ∧
      (reduceModL x)[31].toNat ≤ 0x10

/-- R143: decoding by byte windows is decoding by shifts of the value. -/
def Obligations.LimbWindowsAreShifts : Prop :=
  ∀ x : Scalar, loadLimbs x = splitLimbs (scalarNat x)

/-- R144 with a corrected bound: the rounded passes keep the value, and leave limbs 0..11 in [−2^20, 2^20] and limb 12 in
0..16. The rule says `< 2^20`, which an even limb can miss by one (notes/assumptions/9.md). -/
def Obligations.RoundedPassesKeepValueAndBounds : Prop :=
  ∀ x : Scalar, let s := oddPass (evenPass (loadLimbs x))
    limbsValue s = scalarNat x ∧ (∀ i : Fin 12, -1048576 ≤ s[i.val] ∧ s[i.val] ≤ 1048576) ∧ 0 ≤ s[12] ∧ s[12] ≤ 16

/-- R145: the fold constants sum to 2^252 − `L`, and the fold keeps the value modulo `L` and clears limb 12. -/
def Obligations.FoldKeepsResidue : Prop :=
  foldConstants.toList.foldr (fun d v => d + 2097152 * v) 0 = 2 ^ 252 - (groupOrder : Int) ∧
    ∀ s : Limbs, (groupOrder : Int) ∣ limbsValue (foldTop s) - limbsValue s ∧ (foldTop s)[12] = 0

/-- R146: the limbs after the sequential pass. -/
def Obligations.SequentialPassBounds : Prop :=
  ∀ x : Scalar, let s := floorPass12 (foldTop (oddPass (evenPass (loadLimbs x))))
    (∀ i : Fin 12, 0 ≤ s[i.val] ∧ s[i.val] < 2097152) ∧ (s[12] = -1 ∨ s[12] = 0)

/-- R147: the limbs after the last pass hold `v mod L`, with their bounds; `s[11]` = 2^21 exactly for residues in
2^252..`L` − 1. -/
def Obligations.ReducedLimbsHoldResidue : Prop :=
  ∀ x : Scalar,
    limbsValue (reducedLimbs x) = ((scalarNat x % groupOrder : Nat) : Int) ∧
      (∀ i : Fin 11, 0 ≤ (reducedLimbs x)[i.val] ∧ (reducedLimbs x)[i.val] < 2097152) ∧
      0 ≤ (reducedLimbs x)[11] ∧ (reducedLimbs x)[11] ≤ 2097152 ∧ (reducedLimbs x)[12] = 0 ∧
      ((reducedLimbs x)[11] = 2097152 ↔ 2 ^ 252 ≤ scalarNat x % groupOrder)

/-- R148: packing limbs in the ranges of R147 is little-endian serialisation of their value. -/
def Obligations.PackIsLittleEndian : Prop :=
  ∀ s : Limbs, (∀ i : Fin 11, 0 ≤ s[i.val] ∧ s[i.val] < 2097152) → 0 ≤ s[11] → s[11] ≤ 2097152 → s[12] = 0 →
    packLimbs s = natScalar (limbsValue s).toNat

/-- R149: the datapath of R143 to R148 computes the function of R140. -/
def Obligations.DatapathComputesReduceModL : Prop :=
  ∀ x : Scalar, reduceDatapath x = reduceModL x

/-! ## The assembler -/

/-- R80: the assembler never emits an illegal word (`.word`, whose purpose it is, aside). -/
def Obligations.AssemblerEmitsLegalWords : Prop :=
  ∀ (ws : List (List Char)) (w : Word), assembleCommand ws = .ok (some w) → legalWord w
end

