-- ==== Sys2Proof/Laws/State.lean ====
section
/-! SUPPORT. What each named update of the state does to each field, and the phase guards: the simp set of the state. -/

namespace Sys2Proof.Machine

/-! ## `respond` -/

@[simp] theorem respond_a (s : State) (data : Half) : (s.respond data).a = s.a := rfl
@[simp] theorem respond_buf (s : State) (data : Half) : (s.respond data).buf = s.buf := rfl
@[simp] theorem respond_sreg (s : State) (data : Half) : (s.respond data).sreg = s.sreg := rfl
@[simp] theorem respond_mode (s : State) (data : Half) : (s.respond data).mode = s.mode := rfl
@[simp] theorem respond_phase (s : State) (data : Half) : (s.respond data).phase = s.phase := rfl
@[simp] theorem respond_len (s : State) (data : Half) : (s.respond data).len = s.len := rfl
@[simp] theorem respond_rate (s : State) (data : Half) : (s.respond data).rate = s.rate := rfl
@[simp] theorem respond_fill (s : State) (data : Half) : (s.respond data).fill = s.fill := rfl
@[simp] theorem respond_osrc (s : State) (data : Half) : (s.respond data).osrc = s.osrc := rfl
@[simp] theorem respond_olen (s : State) (data : Half) : (s.respond data).olen = s.olen := rfl
@[simp] theorem respond_optr (s : State) (data : Half) : (s.respond data).optr = s.optr := rfl
@[simp] theorem respond_cause (s : State) (data : Half) : (s.respond data).cause = s.cause := rfl
@[simp] theorem respond_rsp (s : State) (data : Half) : (s.respond data).rsp = some (rspWord s.flagF data) := rfl
@[simp] theorem respond_inputs (s : State) (data : Half) : (s.respond data).inputs = s.inputs := rfl

/-! ## `raiseMisuse` -/

@[simp] theorem raiseMisuse_a (s : State) (c : Cause) : (s.raiseMisuse c).a = s.a := rfl
@[simp] theorem raiseMisuse_buf (s : State) (c : Cause) : (s.raiseMisuse c).buf = s.buf := rfl
@[simp] theorem raiseMisuse_sreg (s : State) (c : Cause) : (s.raiseMisuse c).sreg = s.sreg := rfl
@[simp] theorem raiseMisuse_mode (s : State) (c : Cause) : (s.raiseMisuse c).mode = s.mode := rfl
@[simp] theorem raiseMisuse_phase (s : State) (c : Cause) : (s.raiseMisuse c).phase = .fault := rfl
@[simp] theorem raiseMisuse_len (s : State) (c : Cause) : (s.raiseMisuse c).len = s.len := rfl
@[simp] theorem raiseMisuse_rate (s : State) (c : Cause) : (s.raiseMisuse c).rate = s.rate := rfl
@[simp] theorem raiseMisuse_fill (s : State) (c : Cause) : (s.raiseMisuse c).fill = s.fill := rfl
@[simp] theorem raiseMisuse_osrc (s : State) (c : Cause) : (s.raiseMisuse c).osrc = s.osrc := rfl
@[simp] theorem raiseMisuse_olen (s : State) (c : Cause) : (s.raiseMisuse c).olen = s.olen := rfl
@[simp] theorem raiseMisuse_optr (s : State) (c : Cause) : (s.raiseMisuse c).optr = s.optr := rfl
@[simp] theorem raiseMisuse_cause (s : State) (c : Cause) : (s.raiseMisuse c).cause = c := rfl
@[simp] theorem raiseMisuse_rsp (s : State) (c : Cause) : (s.raiseMisuse c).rsp = some (rspWord true c.data) := rfl
@[simp] theorem raiseMisuse_inputs (s : State) (c : Cause) : (s.raiseMisuse c).inputs = s.inputs := rfl

/-! ## `dropped` -/

@[simp] theorem dropped_a (s : State) : (s.dropped).a = s.a := rfl
@[simp] theorem dropped_buf (s : State) : (s.dropped).buf = s.buf := rfl
@[simp] theorem dropped_sreg (s : State) : (s.dropped).sreg = s.sreg := rfl
@[simp] theorem dropped_mode (s : State) : (s.dropped).mode = s.mode := rfl
@[simp] theorem dropped_phase (s : State) : (s.dropped).phase = s.phase := rfl
@[simp] theorem dropped_len (s : State) : (s.dropped).len = s.len := rfl
@[simp] theorem dropped_rate (s : State) : (s.dropped).rate = s.rate := rfl
@[simp] theorem dropped_fill (s : State) : (s.dropped).fill = s.fill := rfl
@[simp] theorem dropped_osrc (s : State) : (s.dropped).osrc = s.osrc := rfl
@[simp] theorem dropped_olen (s : State) : (s.dropped).olen = s.olen := rfl
@[simp] theorem dropped_optr (s : State) : (s.dropped).optr = s.optr := rfl
@[simp] theorem dropped_cause (s : State) : (s.dropped).cause = s.cause := rfl
@[simp] theorem dropped_rsp (s : State) : (s.dropped).rsp = some (rspWord s.flagF s.cause.data) := rfl
@[simp] theorem dropped_inputs (s : State) : (s.dropped).inputs = s.inputs := rfl

/-! ## `present` -/

@[simp] theorem present_a (s : State) (n : Byte) (src : Source) : (s.present n src).a = s.a := rfl
@[simp] theorem present_buf (s : State) (n : Byte) (src : Source) : (s.present n src).buf = s.buf := rfl
@[simp] theorem present_sreg (s : State) (n : Byte) (src : Source) : (s.present n src).sreg = s.sreg := rfl
@[simp] theorem present_mode (s : State) (n : Byte) (src : Source) : (s.present n src).mode = s.mode := rfl
@[simp] theorem present_phase (s : State) (n : Byte) (src : Source) : (s.present n src).phase = .out := rfl
@[simp] theorem present_len (s : State) (n : Byte) (src : Source) : (s.present n src).len = s.len := rfl
@[simp] theorem present_rate (s : State) (n : Byte) (src : Source) : (s.present n src).rate = s.rate := rfl
@[simp] theorem present_fill (s : State) (n : Byte) (src : Source) : (s.present n src).fill = 0#8 := rfl
@[simp] theorem present_osrc (s : State) (n : Byte) (src : Source) : (s.present n src).osrc = src := rfl
@[simp] theorem present_olen (s : State) (n : Byte) (src : Source) : (s.present n src).olen = n := rfl
@[simp] theorem present_optr (s : State) (n : Byte) (src : Source) : (s.present n src).optr = 0#8 := rfl
@[simp] theorem present_cause (s : State) (n : Byte) (src : Source) : (s.present n src).cause = s.cause := rfl
@[simp] theorem present_rsp (s : State) (n : Byte) (src : Source) : (s.present n src).rsp = s.rsp := rfl
@[simp] theorem present_inputs (s : State) (n : Byte) (src : Source) : (s.present n src).inputs = s.inputs := rfl

/-! ## `scrub` -/

@[simp] theorem scrub_a (s : State) : (s.scrub).a = zeroLanes := rfl
@[simp] theorem scrub_buf (s : State) : (s.scrub).buf = Vector.replicate 144 0#8 := rfl
@[simp] theorem scrub_sreg (s : State) : (s.scrub).sreg = Vector.replicate 32 0#8 := rfl
@[simp] theorem scrub_mode (s : State) : (s.scrub).mode = .none := rfl
@[simp] theorem scrub_phase (s : State) : (s.scrub).phase = .idle := rfl
@[simp] theorem scrub_len (s : State) : (s.scrub).len = 0#16 := rfl
@[simp] theorem scrub_rate (s : State) : (s.scrub).rate = 0#8 := rfl
@[simp] theorem scrub_fill (s : State) : (s.scrub).fill = 0#8 := rfl
@[simp] theorem scrub_osrc (s : State) : (s.scrub).osrc = .state := rfl
@[simp] theorem scrub_olen (s : State) : (s.scrub).olen = 0#8 := rfl
@[simp] theorem scrub_optr (s : State) : (s.scrub).optr = 0#8 := rfl
@[simp] theorem scrub_cause (s : State) : (s.scrub).cause = s.cause := rfl
@[simp] theorem scrub_rsp (s : State) : (s.scrub).rsp = s.rsp := rfl
@[simp] theorem scrub_inputs (s : State) : (s.scrub).inputs = s.inputs := rfl

/-! ## `assertReset` -/

@[simp] theorem assertReset_a (s : State) : (s.assertReset).a = State.reset.a := rfl
@[simp] theorem assertReset_buf (s : State) : (s.assertReset).buf = State.reset.buf := rfl
@[simp] theorem assertReset_sreg (s : State) : (s.assertReset).sreg = State.reset.sreg := rfl
@[simp] theorem assertReset_mode (s : State) : (s.assertReset).mode = State.reset.mode := rfl
@[simp] theorem assertReset_phase (s : State) : (s.assertReset).phase = State.reset.phase := rfl
@[simp] theorem assertReset_len (s : State) : (s.assertReset).len = State.reset.len := rfl
@[simp] theorem assertReset_rate (s : State) : (s.assertReset).rate = State.reset.rate := rfl
@[simp] theorem assertReset_fill (s : State) : (s.assertReset).fill = State.reset.fill := rfl
@[simp] theorem assertReset_osrc (s : State) : (s.assertReset).osrc = State.reset.osrc := rfl
@[simp] theorem assertReset_olen (s : State) : (s.assertReset).olen = State.reset.olen := rfl
@[simp] theorem assertReset_optr (s : State) : (s.assertReset).optr = State.reset.optr := rfl
@[simp] theorem assertReset_cause (s : State) : (s.assertReset).cause = State.reset.cause := rfl
@[simp] theorem assertReset_rsp (s : State) : (s.assertReset).rsp = State.reset.rsp := rfl
@[simp] theorem assertReset_inputs (s : State) : (s.assertReset).inputs = s.inputs := rfl

/-! ## `runPermute` -/

@[simp] theorem runPermute_a (s : State) : (s.runPermute).a = permute s.a := rfl
@[simp] theorem runPermute_buf (s : State) : (s.runPermute).buf = s.buf := rfl
@[simp] theorem runPermute_sreg (s : State) : (s.runPermute).sreg = s.sreg := rfl
@[simp] theorem runPermute_mode (s : State) : (s.runPermute).mode = s.mode := rfl
@[simp] theorem runPermute_phase (s : State) : (s.runPermute).phase = s.phase := rfl
@[simp] theorem runPermute_len (s : State) : (s.runPermute).len = s.len := rfl
@[simp] theorem runPermute_rate (s : State) : (s.runPermute).rate = s.rate := rfl
@[simp] theorem runPermute_fill (s : State) : (s.runPermute).fill = s.fill := rfl
@[simp] theorem runPermute_osrc (s : State) : (s.runPermute).osrc = s.osrc := rfl
@[simp] theorem runPermute_olen (s : State) : (s.runPermute).olen = s.olen := rfl
@[simp] theorem runPermute_optr (s : State) : (s.runPermute).optr = s.optr := rfl
@[simp] theorem runPermute_cause (s : State) : (s.runPermute).cause = s.cause := rfl
@[simp] theorem runPermute_rsp (s : State) : (s.runPermute).rsp = s.rsp := rfl
@[simp] theorem runPermute_inputs (s : State) : (s.runPermute).inputs = s.inputs := rfl

/-! ## `runReduce` -/

@[simp] theorem runReduce_a (s : State) : (s.runReduce).a = s.a := rfl
@[simp] theorem runReduce_buf (s : State) : (s.runReduce).buf = s.buf := rfl
@[simp] theorem runReduce_sreg (s : State) : (s.runReduce).sreg = reduceModL s.sreg := rfl
@[simp] theorem runReduce_mode (s : State) : (s.runReduce).mode = s.mode := rfl
@[simp] theorem runReduce_phase (s : State) : (s.runReduce).phase = s.phase := rfl
@[simp] theorem runReduce_len (s : State) : (s.runReduce).len = s.len := rfl
@[simp] theorem runReduce_rate (s : State) : (s.runReduce).rate = s.rate := rfl
@[simp] theorem runReduce_fill (s : State) : (s.runReduce).fill = s.fill := rfl
@[simp] theorem runReduce_osrc (s : State) : (s.runReduce).osrc = s.osrc := rfl
@[simp] theorem runReduce_olen (s : State) : (s.runReduce).olen = s.olen := rfl
@[simp] theorem runReduce_optr (s : State) : (s.runReduce).optr = s.optr := rfl
@[simp] theorem runReduce_cause (s : State) : (s.runReduce).cause = s.cause := rfl
@[simp] theorem runReduce_rsp (s : State) : (s.runReduce).rsp = s.rsp := rfl
@[simp] theorem runReduce_inputs (s : State) : (s.runReduce).inputs = s.inputs := rfl

/-! ## `loadDigest` -/

@[simp] theorem loadDigest_a (s : State) : (s.loadDigest).a = s.a := rfl
@[simp] theorem loadDigest_buf (s : State) : (s.loadDigest).buf = s.buf := rfl
@[simp] theorem loadDigest_sreg (s : State) : (s.loadDigest).sreg = digestScalar s.a := rfl
@[simp] theorem loadDigest_mode (s : State) : (s.loadDigest).mode = s.mode := rfl
@[simp] theorem loadDigest_phase (s : State) : (s.loadDigest).phase = s.phase := rfl
@[simp] theorem loadDigest_len (s : State) : (s.loadDigest).len = s.len := rfl
@[simp] theorem loadDigest_rate (s : State) : (s.loadDigest).rate = s.rate := rfl
@[simp] theorem loadDigest_fill (s : State) : (s.loadDigest).fill = s.fill := rfl
@[simp] theorem loadDigest_osrc (s : State) : (s.loadDigest).osrc = s.osrc := rfl
@[simp] theorem loadDigest_olen (s : State) : (s.loadDigest).olen = s.olen := rfl
@[simp] theorem loadDigest_optr (s : State) : (s.loadDigest).optr = s.optr := rfl
@[simp] theorem loadDigest_cause (s : State) : (s.loadDigest).cause = s.cause := rfl
@[simp] theorem loadDigest_rsp (s : State) : (s.loadDigest).rsp = s.rsp := rfl
@[simp] theorem loadDigest_inputs (s : State) : (s.loadDigest).inputs = s.inputs := rfl

/-! ## Views -/

@[simp] theorem respond_flagF (s : State) (data : Half) : (s.respond data).flagF = s.flagF := rfl
@[simp] theorem raiseMisuse_flagF (s : State) (c : Cause) : (s.raiseMisuse c).flagF = true := rfl
@[simp] theorem dropped_flagF (s : State) : s.dropped.flagF = s.flagF := rfl

theorem flagF_eq_true (s : State) : s.flagF = true ↔ s.phase = .fault := by simp [State.flagF]

theorem flagF_eq_false (s : State) : s.flagF = false ↔ s.phase ≠ .fault := by simp [State.flagF]

@[simp] theorem respond_byte? (s : State) (data : Half) (S : Store) (k : Nat) :
    (s.respond data).byte? S k = s.byte? S k := rfl

@[simp] theorem raiseMisuse_byte? (s : State) (c : Cause) (S : Store) (k : Nat) :
    (s.raiseMisuse c).byte? S k = s.byte? S k := rfl

@[simp] theorem present_byte? (s : State) (n : Byte) (src : Source) (S : Store) (k : Nat) :
    (s.present n src).byte? S k = s.byte? S k := rfl

/-! ## The guards -/

theorem unlessFault_of_fault {s : State} (h : s.phase = .fault) (go : Out) : unlessFault s go = .next s.dropped := by
  simp [unlessFault, h]

theorem unlessFault_of_ne {s : State} (h : s.phase ≠ .fault) (go : Out) : unlessFault s go = go := by
  simp [unlessFault, h]

theorem requirePhase_of_eq {s : State} {p : Phase} (h : s.phase = p) (go : Out) : requirePhase s p go = go := by
  simp [requirePhase, h]

theorem requirePhase_of_ne {s : State} {p : Phase} (h : s.phase ≠ p) (go : Out) :
    requirePhase s p go = .next (s.raiseMisuse .seq) := by
  simp [requirePhase, h]

/-- Everything a guarded command can do (R212, R214). -/
theorem unlessFault_next {s t : State} {go : Out} (h : unlessFault s go = .next t) :
    (s.phase = .fault ∧ t = s.dropped) ∨ (s.phase ≠ .fault ∧ go = .next t) := by
  unfold unlessFault at h
  split at h
  · exact .inl ⟨‹_›, by cases h; rfl⟩
  · exact .inr ⟨‹_›, h⟩

/-- Everything the phase check can do (R208). -/
theorem requirePhase_next {s t : State} {p : Phase} {go : Out} (h : requirePhase s p go = .next t) :
    (s.phase = p ∧ go = .next t) ∨ (s.phase ≠ p ∧ t = s.raiseMisuse .seq) := by
  unfold requirePhase at h
  split at h
  · exact .inl ⟨‹_›, h⟩
  · exact .inr ⟨‹_›, by cases h; rfl⟩

@[simp] theorem complete_ok (s : State) : complete (.ok s) = .next (s.respond 0#16) := rfl
@[simp] theorem complete_error (f : Fault) : complete (.error f) = .fault f := rfl

/-- Everything `complete` can answer with a next state. -/
theorem complete_next {r : Except Fault State} {t : State} (h : complete r = .next t) :
    ∃ u, r = .ok u ∧ t = u.respond 0#16 := by
  cases r with
  | ok u => exact ⟨u, rfl, by cases h; rfl⟩
  | error f => cases h

/-- Peel one operation off a chain of store operations. -/
theorem except_bind_ok {α β : Type} {x : Except Fault α} {f : α → Except Fault β} {b : β}
    (h : (x >>= f) = .ok b) : ∃ a, x = .ok a ∧ f a = .ok b := by
  cases x with
  | ok a => exact ⟨a, rfl, h⟩
  | error e => cases h

@[simp] theorem except_ok_bind {α β : Type} (a : α) (f : α → Except Fault β) : (Except.ok a >>= f) = f a := rfl

end Sys2Proof.Machine
end

