-- ==== Sys2Proof/Laws/Ops.lean ====
section
/-! SUPPORT. What the store primitives and the byte-order helpers do: read after write, little-endian values, and the laws of
`MemRead` and `MemWrite` (20_memory.md R52, R53, R59). -/

namespace Sys2Proof.Machine

/-! ## Little-endian values -/

@[simp] theorem leNat_nil : leNat [] = 0 := rfl
@[simp] theorem leNat_cons (b : Byte) (bs : List Byte) : leNat (b :: bs) = b.toNat + 256 * leNat bs := rfl

theorem leNat_lt (bs : List Byte) : leNat bs < 256 ^ bs.length := by
  induction bs with
  | nil => simp
  | cons b bs ih =>
    have hb := b.isLt
    simp only [leNat_cons, List.length_cons, Nat.pow_succ]
    omega

theorem leNat_append (bs cs : List Byte) : leNat (bs ++ cs) = leNat bs + 256 ^ bs.length * leNat cs := by
  induction bs with
  | nil => simp
  | cons b bs ih =>
    simp only [List.cons_append, leNat_cons, ih, List.length_cons, Nat.pow_succ]
    ring

@[simp] theorem leBytes_length (n v : Nat) : (leBytes n v).length = n := by
  induction n generalizing v with
  | zero => rfl
  | succ n ih => simp [leBytes, ih]

theorem leNat_leBytes (n v : Nat) : leNat (leBytes n v) = v % 256 ^ n := by
  induction n generalizing v with
  | zero => simp [leBytes, Nat.mod_one]
  | succ n ih =>
    rw [leBytes, leNat_cons, ih, BitVec.toNat_ofNat, show 256 ^ (n + 1) = 256 * 256 ^ n by rw [Nat.pow_succ, Nat.mul_comm],
      Nat.mod_mul]

/-- The byte string is determined by its value and its length (R53). -/
theorem leNat_injective {bs cs : List Byte} (hl : bs.length = cs.length) (h : leNat bs = leNat cs) : bs = cs := by
  induction bs generalizing cs with
  | nil => cases cs with
    | nil => rfl
    | cons c cs => simp at hl
  | cons b bs ih => cases cs with
    | nil => simp at hl
    | cons c cs =>
      simp only [leNat_cons] at h
      have hb := b.isLt
      have hc := c.isLt
      have hbc : b = c := BitVec.eq_of_toNat_eq (by omega)
      subst hbc
      rw [ih (by simpa using hl) (by omega)]

theorem leNat_getElem (bs : List Byte) (k : Nat) (h : k < bs.length) :
    bs[k] = BitVec.ofNat 8 (leNat bs >>> (8 * k)) := by
  induction bs generalizing k with
  | nil => simp at h
  | cons b bs ih =>
    have hb := b.isLt
    apply BitVec.eq_of_toNat_eq
    cases k with
    | zero => simp only [List.getElem_cons_zero, leNat_cons, BitVec.toNat_ofNat, Nat.shiftRight_eq_div_pow]; omega
    | succ k =>
      have hd : (b.toNat + 256 * leNat bs) / 256 = leNat bs := by omega
      rw [List.getElem_cons_succ, ih k (by simpa using h)]
      simp only [leNat_cons, BitVec.toNat_ofNat, Nat.shiftRight_eq_div_pow]
      rw [show 2 ^ (8 * (k + 1)) = 256 * 2 ^ (8 * k) by rw [Nat.mul_add, Nat.pow_add]; ring, ← Nat.div_div_eq_div_mul, hd]

/-! ## Bytes of a lane -/

theorem laneByte_getLsbD (l : Lane) (j i : Nat) (hi : i < 8) : (laneByte l j).getLsbD i = l.getLsbD (8 * j + i) := by
  simp [laneByte, hi]

theorem setLaneByte_getLsbD (l : Lane) (j : Nat) (b : Byte) (m : Nat) (hm : m < 64) :
    (setLaneByte l j b).getLsbD m = if 8 * j ≤ m ∧ m < 8 * j + 8 then b.getLsbD (m - 8 * j) else l.getLsbD m := by
  unfold setLaneByte
  simp only [BitVec.getLsbD_or, BitVec.getLsbD_and, BitVec.getLsbD_not, BitVec.getLsbD_shiftLeft, BitVec.getLsbD_setWidth,
    hm, decide_true, Bool.true_and]
  by_cases h1 : m < 8 * j
  · simp [h1, show ¬ 8 * j ≤ m by omega]
  · by_cases h2 : m < 8 * j + 8
    · have h3 : (0xFF#64).getLsbD (m - 8 * j) = true := by
        have : ∀ i < 8, (0xFF#64).getLsbD i = true := by decide
        exact this _ (by omega)
      simp [h1, show 8 * j ≤ m by omega, h2, h3]
      omega
    · have h3 : (0xFF#64).getLsbD (m - 8 * j) = false := by
        have : ∀ i < 64, 8 ≤ i → (0xFF#64).getLsbD i = false := by decide
        exact this _ (by omega) (by omega)
      have h4 : b.getLsbD (m - 8 * j) = false := BitVec.getLsbD_of_ge _ _ (by omega)
      simp [h1, h2, h3, h4]

/-- Reading the byte of a lane just replaced (R22). -/
theorem laneByte_setLaneByte_same (l : Lane) (j : Nat) (b : Byte) (hj : j < 8) : laneByte (setLaneByte l j b) j = b := by
  apply BitVec.eq_of_getLsbD_eq
  intro i hi
  rw [laneByte_getLsbD _ _ _ hi, setLaneByte_getLsbD _ _ _ _ (by omega)]
  simp [hi]

/-- Replacing one byte of a lane leaves the others (R22). -/
theorem laneByte_setLaneByte_other (l : Lane) {j k : Nat} (b : Byte) (hk : k < 8) (h : k ≠ j) :
    laneByte (setLaneByte l j b) k = laneByte l k := by
  apply BitVec.eq_of_getLsbD_eq
  intro i hi
  rw [laneByte_getLsbD _ _ _ hi, laneByte_getLsbD _ _ _ hi, setLaneByte_getLsbD _ _ _ _ (by omega)]
  rw [if_neg (by omega)]

/-- A lane is its eight bytes (R22). -/
theorem lane_ext {l m : Lane} (h : ∀ j < 8, laneByte l j = laneByte m j) : l = m := by
  apply BitVec.eq_of_getLsbD_eq
  intro i hi
  have hj := congrArg (fun b : Byte => b.getLsbD (i % 8)) (h (i / 8) (by omega))
  simp only [laneByte_getLsbD _ _ _ (show i % 8 < 8 by omega)] at hj
  rwa [show 8 * (i / 8) + i % 8 = i by omega] at hj

/-- Zero is eight zero bytes. -/
@[simp] theorem laneByte_zero (j : Nat) : laneByte 0#64 j = 0#8 := by simp [laneByte]

/-! ## Reading and writing one byte -/

theorem byte?_st (s : State) {k : Nat} (h : k < 200) :
    s.byte? .st k = some (laneByte (s.a[k / 8]'(by omega)) (k % 8)) := by
  simp [State.byte?, show k / 8 < 25 by omega]

theorem byte?_buf (s : State) {k : Nat} (h : k < 144) : s.byte? .buf k = some s.buf[k] := by
  simp [State.byte?, h]

theorem byte?_sreg (s : State) {k : Nat} (h : k < 32) : s.byte? .sreg k = some s.sreg[k] := by
  simp [State.byte?, h]

/-- A store has exactly its `size` bytes (R50). -/
theorem byte?_isSome (s : State) (S : Store) (k : Nat) : (s.byte? S k).isSome ↔ k < S.size := by
  cases S
  · simp only [State.byte?, Store.size, Option.isSome_map]
    rw [Option.isSome_iff_exists]
    constructor
    · rintro ⟨l, hl⟩
      have := (Vector.getElem?_eq_some_iff.1 hl).1
      simp only [Config.stateBytes]; omega
    · intro h
      simp only [Config.stateBytes] at h
      exact ⟨_, Vector.getElem?_eq_getElem (show k / 8 < 25 by omega)⟩
  · simp [State.byte?, Store.size]
  · simp [State.byte?, Store.size]

theorem readByte_ok {s : State} {S : Store} {k : Nat} {b : Byte} : s.readByte S k = .ok b ↔ s.byte? S k = some b := by
  unfold State.readByte
  split <;> simp_all

theorem readByte_of_byte? {s : State} {S : Store} {k : Nat} {b : Byte} (h : s.byte? S k = some b) :
    s.readByte S k = .ok b := readByte_ok.2 h

theorem writeByte_st (s : State) {k : Nat} (b : Byte) (h : k < 200) :
    s.writeByte .st k b =
      .ok { s with a := s.a.set (k / 8) (setLaneByte (s.a[k / 8]'(by omega)) (k % 8) b) (by omega) } := by
  simp [State.writeByte, show k / 8 < 25 by omega]

theorem writeByte_buf (s : State) {k : Nat} (b : Byte) (h : k < 144) :
    s.writeByte .buf k b = .ok { s with buf := s.buf.set k b } := by
  simp [State.writeByte, h]

theorem writeByte_sreg (s : State) {k : Nat} (b : Byte) (h : k < 32) :
    s.writeByte .sreg k b = .ok { s with sreg := s.sreg.set k b } := by
  simp [State.writeByte, h]

/-- A byte write succeeds exactly inside its store (R59). -/
theorem writeByte_ok_iff (s : State) (S : Store) (k : Nat) (b : Byte) :
    (∃ t, s.writeByte S k b = .ok t) ↔ k < S.size := by
  cases S
  · simp only [State.writeByte, Store.size, Config.stateBytes]
    split
    · simp; omega
    · simp; omega
  · by_cases h : k < 144 <;> simp [State.writeByte, Store.size, h]
  · by_cases h : k < 32 <;> simp [State.writeByte, Store.size, h]

/-- Everything a byte write can do: the index is inside its store, that byte reads as written, every other byte of every
store reads as before, and no register changes (R59). -/
theorem writeByte_spec {s t : State} {S : Store} {k : Nat} {b : Byte} (h : s.writeByte S k b = .ok t) :
    k < S.size ∧ t.byte? S k = some b ∧ (∀ S' j, (S' ≠ S ∨ j ≠ k) → t.byte? S' j = s.byte? S' j) ∧
      t = { s with a := t.a, buf := t.buf, sreg := t.sreg } := by
  have hk : k < S.size := (writeByte_ok_iff s S k b).1 ⟨t, h⟩
  refine ⟨hk, ?_⟩
  cases S with
  | st =>
    simp only [Store.size, Config.stateBytes] at hk
    rw [writeByte_st s b hk] at h
    cases h
    refine ⟨?_, ?_, rfl⟩
    · rw [byte?_st _ hk]
      simp [laneByte_setLaneByte_same _ _ _ (show k % 8 < 8 by omega)]
    · rintro S' j hj
      cases S' with
      | st =>
        have hj : j ≠ k := by simpa using hj
        by_cases hjs : j < 200
        · rw [byte?_st _ hjs, byte?_st _ hjs]
          simp only [Vector.getElem_set]
          split
          · rename_i he
            rw [laneByte_setLaneByte_other _ _ (by omega) (by omega)]
            simp [he]
          · rfl
        · simp [State.byte?, show ¬ j / 8 < 25 by omega]
      | buf => rfl
      | sreg => rfl
  | buf =>
    have hk : k < 144 := hk
    rw [writeByte_buf s b hk] at h
    cases h
    refine ⟨by simp [State.byte?, hk], ?_, rfl⟩
    rintro S' j hj
    cases S' with
    | st => rfl
    | buf =>
      have hj : j ≠ k := by simpa using hj
      simp only [State.byte?, Vector.getElem?_set]
      simp [Ne.symm hj]
    | sreg => rfl
  | sreg =>
    have hk : k < 32 := hk
    rw [writeByte_sreg s b hk] at h
    cases h
    refine ⟨by simp [State.byte?, hk], ?_, rfl⟩
    rintro S' j hj
    cases S' with
    | st => rfl
    | buf => rfl
    | sreg =>
      have hj : j ≠ k := by simpa using hj
      simp only [State.byte?, Vector.getElem?_set]
      simp [Ne.symm hj]

/-! ## `MemRead` and `MemWrite` -/

/-- `MemRead` of `BUF` is the little-endian value of its bytes (R59). -/
theorem memRead_buf (s : State) (k n : Nat) (h : k + n ≤ 144) :
    s.memRead .buf k n = .ok (leNat ((s.buf.toList.drop k).take n)) := by
  induction n generalizing k with
  | zero => simp [State.memRead]
  | succ n ih =>
    have hk : k < s.buf.toList.length := by simp; omega
    rw [State.memRead, readByte_of_byte? (byte?_buf s (show k < 144 by omega))]
    simp only [except_ok_bind, ih (k + 1) (by omega)]
    rw [List.drop_eq_getElem_cons hk, List.take_succ_cons, leNat_cons, Vector.getElem_toList]
    rfl

/-- `MemRead` succeeds exactly inside the store (R59). -/
theorem memRead_ok_iff (s : State) (S : Store) (k n : Nat) (hn : 0 < n) :
    (∃ v, s.memRead S k n = .ok v) ↔ k + n ≤ S.size := by
  induction n generalizing k with
  | zero => omega
  | succ n ih =>
    rw [State.memRead]
    by_cases hk : k < S.size
    · obtain ⟨b, hb⟩ := Option.isSome_iff_exists.1 ((byte?_isSome s S k).2 hk)
      rw [readByte_of_byte? hb]
      simp only [except_ok_bind]
      by_cases hn0 : n = 0
      · subst hn0
        simp only [State.memRead, except_ok_bind]
        exact ⟨fun _ => by omega, fun _ => ⟨_, rfl⟩⟩
      · rw [show k + (n + 1) = (k + 1) + n by omega, ← ih (k + 1) (by omega)]
        constructor
        · rintro ⟨v, hv⟩
          obtain ⟨w, hw, -⟩ := except_bind_ok hv
          exact ⟨w, hw⟩
        · rintro ⟨w, hw⟩
          exact ⟨_, by rw [hw]; rfl⟩
    · constructor
      · rintro ⟨v, hv⟩
        obtain ⟨b, hb, -⟩ := except_bind_ok hv
        have := (byte?_isSome s S k).1 (by rw [readByte_ok.1 hb]; rfl)
        omega
      · intro h; omega

/-- Everything `MemWrite` can do: the bytes written read as the little-endian bytes of the value, every other byte of every
store reads as before, and no register changes (R59). -/
theorem memWrite_spec {s t : State} {S : Store} {k n v : Nat} (h : s.memWrite S k n v = .ok t) :
    (∀ j, j < n → t.byte? S (k + j) = some (BitVec.ofNat 8 (v >>> (8 * j)))) ∧
      (∀ S' j, (S' ≠ S ∨ j < k ∨ k + n ≤ j) → t.byte? S' j = s.byte? S' j) ∧
      t = { s with a := t.a, buf := t.buf, sreg := t.sreg } := by
  induction n generalizing s k v with
  | zero => cases h; exact ⟨fun _ hj => by omega, fun _ _ _ => rfl, rfl⟩
  | succ n ih =>
    obtain ⟨u, hu, ht⟩ := except_bind_ok h
    obtain ⟨-, hsame, hother, hregs⟩ := writeByte_spec hu
    obtain ⟨ih1, ih2, ih3⟩ := ih ht
    refine ⟨?_, ?_, ?_⟩
    · intro j hj
      cases j with
      | zero => simpa [ih2 S k (by omega)] using hsame
      | succ j =>
        rw [show k + (j + 1) = k + 1 + j by omega, ih1 j (by omega)]
        congr 2
        simp only [Nat.shiftRight_eq_div_pow, Nat.div_div_eq_div_mul]
        rw [show 2 ^ (8 * (j + 1)) = 256 * 2 ^ (8 * j) by rw [Nat.mul_add, Nat.pow_add]; ring]
    · intro S' j hj
      have h1 : S' ≠ S ∨ j < k + 1 ∨ k + 1 + n ≤ j := by rcases hj with h | h | h <;> [exact .inl h; omega; omega]
      have h2 : S' ≠ S ∨ j ≠ k := by rcases hj with h | h | h <;> [exact .inl h; omega; omega]
      rw [ih2 S' j h1, hother S' j h2]
    · rw [ih3, hregs]

/-- `BUF` is its bytes. -/
theorem buf_ext {s t : State} (h : ∀ k, t.byte? .buf k = s.byte? .buf k) : t.buf = s.buf := by
  apply Vector.ext
  intro k hk
  have := h k
  rw [byte?_buf _ hk, byte?_buf _ hk] at this
  simpa using this

/-- `SREG` is its bytes. -/
theorem sreg_ext {s t : State} (h : ∀ k, t.byte? .sreg k = s.byte? .sreg k) : t.sreg = s.sreg := by
  apply Vector.ext
  intro k hk
  have := h k
  rw [byte?_sreg _ hk, byte?_sreg _ hk] at this
  simpa using this

/-- The lanes are their 200 bytes (R22). -/
theorem lanes_ext {s t : State} (h : ∀ k, t.byte? .st k = s.byte? .st k) : t.a = s.a := by
  apply Vector.ext
  intro i hi
  apply lane_ext
  intro j hj
  have := h (8 * i + j)
  rw [byte?_st _ (by omega), byte?_st _ (by omega)] at this
  simpa [show (8 * i + j) / 8 = i by omega, show (8 * i + j) % 8 = j by omega] using this

end Sys2Proof.Machine
end

