-- ==== Sys2Proof/Laws/Sponge.lean ====
section
/-! SUPPORT. What the micro-operations of the sponge do: block absorption, zero fill, padding (41_sponge.md R115, R116). -/

namespace Sys2Proof.Machine

/-! ## `absorb` -/

theorem absorb_getElem (a : Lanes) (block : List Byte) (r i : Nat) (hi : i < 25) :
    (absorb a block r)[i] = if i < r / 8 then a[i] ^^^ le64 ((block.drop (8 * i)).take 8) else a[i] := by
  unfold absorb; simp

/-- Only the first 8·⌊r/8⌋ bytes of the block matter. -/
theorem absorb_congr (a : Lanes) {b₁ b₂ : List Byte} (r : Nat)
    (h : ∀ i, i < r / 8 → (b₁.drop (8 * i)).take 8 = (b₂.drop (8 * i)).take 8) : absorb a b₁ r = absorb a b₂ r := by
  apply Vector.ext
  intro i hi
  rw [absorb_getElem, absorb_getElem]
  split
  · rw [h i ‹_›]
  · rfl

/-- Absorbing a longer string absorbs its first `r` bytes. -/
theorem absorb_take (a : Lanes) (block : List Byte) (r : Nat) : absorb a (block.take r) r = absorb a block r := by
  apply absorb_congr
  intro i hi
  rw [List.drop_take, List.take_take, Nat.min_eq_left (by omega)]

/-- Absorption by words: `r` and 8·⌊r/8⌋ do the same. -/
theorem absorb_words (a : Lanes) (block : List Byte) (r : Nat) : absorb a block (8 * (r / 8)) = absorb a block r := by
  apply Vector.ext
  intro i hi
  rw [absorb_getElem, absorb_getElem, Nat.mul_div_cancel_left _ (by decide)]

/-! ## `absorb_block` -/

/-- Absorbing one more word, `BUF` and the registers fixed (R115). -/
theorem absorbWord_eq (s : State) (i : Nat) (h : i < 18) :
    absorbWord s i =
      .ok { s with a := s.a.set i (s.a[i] ^^^ le64 ((s.buf.toList.drop (8 * i)).take 8)) } := by
  rw [absorbWord, memRead_buf s (8 * i) 8 (by omega)]
  simp [show i < 25 by omega, le64]

/-- What the loop over the words does (R115). -/
theorem absorbWords_eq (n : Nat) (s : State) (h : n ≤ 18) :
    absorbWords n s = .ok { s with a := absorb s.a s.buf.toList (8 * n) } := by
  induction n with
  | zero =>
    have : absorb s.a s.buf.toList (8 * 0) = s.a := by
      apply Vector.ext; intro i hi; rw [absorb_getElem]; simp
    rw [this]; rfl
  | succ n ih =>
    rw [absorbWords, ih (by omega)]
    simp only [except_ok_bind]
    rw [absorbWord_eq _ _ (by omega)]
    congr 2
    apply Vector.ext
    intro i hi
    rw [Vector.getElem_set]
    simp only [absorb_getElem, Nat.mul_div_cancel_left _ (show 0 < 8 by decide)]
    split
    · subst_vars; simp
    · by_cases h1 : i < n
      · simp [h1, show i < n + 1 by omega]
      · simp [h1, show ¬ i < n + 1 by omega]

/-- `absorb_block` XORs the first `RATE` bytes of `BUF` into the lanes and changes nothing else (R115). -/
theorem absorbBlock_eq (s : State) (h : s.rate.toNat ≤ 144) :
    absorbBlock s = .ok { s with a := absorb s.a (s.buf.toList.take s.rate.toNat) s.rate.toNat } := by
  rw [absorbBlock, absorbWords_eq _ _ (by omega), absorb_words, absorb_take]

/-- `absorb_block` touches only the lanes, whatever state it starts from (R115). -/
theorem absorbWords_frame {n : Nat} {s t : State} (h : absorbWords n s = .ok t) : t = { s with a := t.a } := by
  induction n generalizing t with
  | zero => cases h; rfl
  | succ n ih =>
    obtain ⟨u, hu, ht⟩ := except_bind_ok h
    obtain ⟨v, -, ht⟩ := except_bind_ok ht
    split at ht
    · cases ht; rw [ih hu]
    · cases ht

theorem absorbBlock_frame {s t : State} (h : absorbBlock s = .ok t) : t = { s with a := t.a } := absorbWords_frame h

/-! ## Padding -/

/-- What the zero fill does (R116). -/
theorem zeroFill_spec (n k : Nat) (s : State) (h : k + n ≤ 144) :
    ∃ t, zeroFill n k s = .ok t ∧ t = { s with buf := t.buf } ∧
      ∀ j (hj : j < 144), t.buf[j] = if k ≤ j ∧ j < k + n then 0#8 else s.buf[j] := by
  induction n generalizing k s with
  | zero => exact ⟨s, rfl, rfl, fun j hj => by rw [if_neg (by omega)]⟩
  | succ n ih =>
    obtain ⟨t, ht, hregs, hbuf⟩ := ih (k + 1) { s with buf := s.buf.set k 0#8 (by omega) } (by omega)
    refine ⟨t, ?_, ?_, fun j hj => ?_⟩
    · rw [zeroFill, writeByte_buf s 0#8 (by omega)]; exact ht
    · rw [hregs]
    · rw [hbuf j hj]
      simp only [Vector.getElem_set]
      by_cases h1 : k = j
      · subst h1; simp
      · by_cases h2 : k + 1 ≤ j ∧ j < k + 1 + n
        · rw [if_pos h2, if_pos (by omega)]
        · rw [if_neg h2, if_neg h1, if_neg (by omega)]

/-- The zero fill touches only `BUF`, whatever state it starts from (R116). -/
theorem zeroFill_frame {n k : Nat} {s t : State} (h : zeroFill n k s = .ok t) : t = { s with buf := t.buf } := by
  induction n generalizing k s with
  | zero => cases h; rfl
  | succ n ih =>
    obtain ⟨u, hu, ht⟩ := except_bind_ok h
    simp only [State.writeByte] at hu
    split at hu
    · cases hu; rw [ih ht]
    · cases hu

/-- A byte write to `BUF` touches only `BUF`. -/
theorem writeByte_buf_frame {s t : State} {k : Nat} {b : Byte} (h : s.writeByte .buf k b = .ok t) :
    t = { s with buf := t.buf } := by
  simp only [State.writeByte] at h
  split at h
  · cases h; rfl
  · cases h

/-- A byte write to the state touches only the lanes. -/
theorem writeByte_st_frame {s t : State} {k : Nat} {b : Byte} (h : s.writeByte .st k b = .ok t) :
    t = { s with a := t.a } := by
  simp only [State.writeByte] at h
  split at h
  · cases h; rfl
  · cases h

/-- A byte write to the scalar register touches only it. -/
theorem writeByte_sreg_frame {s t : State} {k : Nat} {b : Byte} (h : s.writeByte .sreg k b = .ok t) :
    t = { s with sreg := t.sreg } := by
  simp only [State.writeByte] at h
  split at h
  · cases h; rfl
  · cases h

/-- Padding touches only `BUF`, whatever state it starts from (R116). -/
theorem padBuffer_frame {s t : State} (h : padBuffer s = .ok t) : t = { s with buf := t.buf } := by
  obtain ⟨u, hu, h⟩ := except_bind_ok h
  obtain ⟨v, hv, h⟩ := except_bind_ok h
  obtain ⟨b, -, h⟩ := except_bind_ok h
  rw [writeByte_buf_frame h, zeroFill_frame hv, writeByte_buf_frame hu]

/-- Finishing the sponge touches only the lanes and `BUF`, whatever state it starts from (R116). -/
theorem finishSponge_frame {s t : State} (h : finishSponge s = .ok t) : t = { s with a := t.a, buf := t.buf } := by
  obtain ⟨u, hu, h⟩ := except_bind_ok h
  obtain ⟨v, hv, h⟩ := except_bind_ok h
  cases h
  rw [State.runPermute, absorbBlock_frame hv, padBuffer_frame hu]

/-- The padded block, byte by byte (R110, R117). -/
theorem paddedBlock_length (tail : List Byte) (r : Nat) (h : tail.length < r) : (paddedBlock tail r).length = r := by
  simp [paddedBlock]; omega

/-- What the three writes of the padding do (R116, R117, R236). -/
theorem padBuffer_spec (s : State) (hf : s.fill.toNat < s.rate.toNat) (hr : s.rate.toNat ≤ 144) :
    ∃ t, padBuffer s = .ok t ∧ t = { s with buf := t.buf } ∧
      t.buf.toList.take s.rate.toNat = paddedBlock (s.buf.toList.take s.fill.toNat) s.rate.toNat ∧
      ∀ k, s.rate.toNat ≤ k → t.buf[k]? = s.buf[k]? := by
  have hlast : (s.rate - 1#8).toNat = s.rate.toNat - 1 := by
    have := s.rate.isLt
    rw [BitVec.toNat_sub]; simp; omega
  obtain ⟨u, hu, huregs, hubuf⟩ := zeroFill_spec (s.rate.toNat - (s.fill.toNat + 1)) (s.fill.toNat + 1)
    { s with buf := s.buf.set s.fill.toNat Config.padFirst (by omega) } (by omega)
  have hl : s.rate.toNat - 1 < 144 := by omega
  refine ⟨{ u with buf := u.buf.set (s.rate.toNat - 1) (u.buf[s.rate.toNat - 1] ||| Config.padLast) }, ?_, ?_, ?_, ?_⟩
  · rw [padBuffer, writeByte_buf s _ (by omega)]
    simp only [except_ok_bind]
    rw [hu]
    simp only [except_ok_bind]
    have hur : (u.rate - 1#8).toNat = s.rate.toNat - 1 := by rw [← hlast, huregs]
    rw [hur, readByte_of_byte? (byte?_buf u hl)]
    simp only [except_ok_bind]
    rw [writeByte_buf u _ hl]
  · rw [huregs]
  · apply List.ext_getElem
    · rw [paddedBlock_length _ _ (by simp; omega)]; simp; omega
    · intro j hj1 hj2
      have hj : j < s.rate.toNat := by simp at hj1; omega
      simp only [List.getElem_take, Vector.getElem_toList, Vector.getElem_set, hubuf j (by omega),
        hubuf (s.rate.toNat - 1) hl]
      have hlen : (s.buf.toList.take s.fill.toNat).length = s.fill.toNat := by simp; omega
      simp only [paddedBlock, List.getElem_modify, hlen]
      rcases Nat.lt_trichotomy j s.fill.toNat with h1 | h1 | h1
      · rw [List.getElem_append_left (by rw [hlen]; exact h1)]
        simp [show ¬ (s.fill.toNat + 1 ≤ j) by omega, show s.rate.toNat - 1 ≠ j by omega, show s.fill.toNat ≠ j by omega]
      · subst h1
        rw [List.getElem_append_right (by rw [hlen])]
        by_cases h2 : s.rate.toNat - 1 = s.fill.toNat <;> simp [h2, hlen]
      · rw [List.getElem_append_right (by rw [hlen]; omega)]
        have h3 : j - s.fill.toNat = (j - s.fill.toNat - 1) + 1 := by omega
        simp only [hlen]
        by_cases h2 : s.rate.toNat - 1 = j
        · subst h2
          have : s.fill.toNat + 1 ≤ s.rate.toNat - 1 ∧
              s.rate.toNat - 1 < s.fill.toNat + 1 + (s.rate.toNat - (s.fill.toNat + 1)) := by omega
          rw [List.getElem_cons]
          simp [this, show s.rate.toNat - 1 - s.fill.toNat ≠ 0 by omega]
        · have : s.fill.toNat + 1 ≤ j ∧ j < s.fill.toNat + 1 + (s.rate.toNat - (s.fill.toNat + 1)) := by omega
          rw [List.getElem_cons]
          simp [this, h2, show j - s.fill.toNat ≠ 0 by omega]
  · intro k hk
    by_cases hk2 : k < 144
    · rw [Vector.getElem?_eq_getElem hk2, Vector.getElem?_eq_getElem hk2]
      simp only [Vector.getElem_set, hubuf k hk2]
      rw [if_neg (by omega), if_neg (by omega), if_neg (by omega)]
    · simp [hk2]

/-- What finishing the sponge does: pad, absorb the block, permute (R116). -/
theorem finishSponge_spec (s : State) (hf : s.fill.toNat < s.rate.toNat) (hr : s.rate.toNat ≤ 144) :
    ∃ t, finishSponge s = .ok t ∧ t = { s with a := t.a, buf := t.buf } ∧
      t.buf.toList.take s.rate.toNat = paddedBlock (s.buf.toList.take s.fill.toNat) s.rate.toNat ∧
      (∀ k, s.rate.toNat ≤ k → t.buf[k]? = s.buf[k]?) ∧
      t.a = permute (absorb s.a (paddedBlock (s.buf.toList.take s.fill.toNat) s.rate.toNat) s.rate.toNat) := by
  obtain ⟨t, ht, hregs, hbuf, hrest⟩ := padBuffer_spec s hf hr
  have htr : t.rate = s.rate := by rw [hregs]
  have hta : t.a = s.a := by rw [hregs]
  refine ⟨State.runPermute { t with a := absorb s.a (t.buf.toList.take s.rate.toNat) s.rate.toNat }, ?_, ?_, ?_, ?_, ?_⟩
  · rw [finishSponge, ht]
    simp only [except_ok_bind]
    rw [absorbBlock_eq t (by rw [htr]; exact hr), htr, hta]
    rfl
  · rw [State.runPermute, hregs]
  · exact hbuf
  · exact hrest
  · simp [hbuf]

end Sys2Proof.Machine
end

