-- ==== Sys2Proof/Laws/Exec.lean ====
section
/-! SUPPORT. Once for each command: everything it can do if it answers a next state (43_call_control.md R170 to R178). The
later proofs cite these cases instead of unfolding a meaning. -/

namespace Sys2Proof.Machine

/-- A raised misuse fault is the state R213 describes, with `F` = 1 in the response. -/
theorem raiseMisuse_eq (s : State) (c : Cause) :
    s.raiseMisuse c = { s with phase := .fault, cause := c, rsp := some (rspWord true c.data) } := rfl

/-- A command dropped in `FAULT` changes nothing but the response (R214). -/
theorem dropped_eq (s : State) : s.dropped = { s with rsp := some (rspWord s.flagF s.cause.data) } := rfl

/-- `respond` changes nothing but the response (R78). -/
theorem respond_eq (s : State) (data : Half) : s.respond data = { s with rsp := some (rspWord s.flagF data) } := rfl

theorem execNop_next {s t : State} (h : execNop s = .next t) :
    (s.phase = .fault ∧ t = s.dropped) ∨ (s.phase ≠ .fault ∧ t = s.respond 0#16) := by
  rcases unlessFault_next h with ⟨hp, ht⟩ | ⟨hp, h⟩
  · exact .inl ⟨hp, ht⟩
  · cases h; exact .inr ⟨hp, rfl⟩

theorem execHstart_next {len : Int} {s t : State} (h : execHstart len s = .next t) :
    (s.phase = .fault ∧ t = s.dropped) ∨ (s.phase ≠ .fault ∧ s.phase ≠ .idle ∧ t = s.raiseMisuse .seq) ∨
      (s.phase = .idle ∧ ∃ c, checkLength len = some c ∧ t = s.raiseMisuse c) ∨
      (s.phase = .idle ∧ checkLength len = none ∧
        t = State.respond { s with
          a := zeroLanes, fill := 0#8, len := BitVec.ofInt 16 len, rate := BitVec.ofInt 8 (rateOf len),
          mode := .hash, phase := .absorb } 0#16) := by
  rcases unlessFault_next h with ⟨hp, ht⟩ | ⟨hp, h⟩
  · exact .inl ⟨hp, ht⟩
  rcases requirePhase_next h with ⟨hi, h⟩ | ⟨hi, ht⟩
  · split at h
    · cases h; exact .inr (.inr (.inl ⟨hi, _, ‹_›, rfl⟩))
    · cases h; exact .inr (.inr (.inr ⟨hi, ‹_›, rfl⟩))
  · exact .inr (.inl ⟨hp, hi, ht⟩)

theorem execPstart_next {s t : State} (h : execPstart s = .next t) :
    (s.phase = .fault ∧ t = s.dropped) ∨ (s.phase ≠ .fault ∧ s.phase ≠ .idle ∧ t = s.raiseMisuse .seq) ∨
      (s.phase = .idle ∧
        t = State.respond { s with a := zeroLanes, fill := 0#8, mode := .perm, phase := .absorb } 0#16) := by
  rcases unlessFault_next h with ⟨hp, ht⟩ | ⟨hp, h⟩
  · exact .inl ⟨hp, ht⟩
  rcases requirePhase_next h with ⟨hi, h⟩ | ⟨hi, ht⟩
  · cases h; exact .inr (.inr ⟨hi, rfl⟩)
  · exact .inr (.inl ⟨hp, hi, ht⟩)

theorem execRstart_next {s t : State} (h : execRstart s = .next t) :
    (s.phase = .fault ∧ t = s.dropped) ∨ (s.phase ≠ .fault ∧ s.phase ≠ .idle ∧ t = s.raiseMisuse .seq) ∨
      (s.phase = .idle ∧
        t = State.respond { s with
          sreg := Vector.replicate 32 0#8, fill := 0#8, mode := .red, phase := .absorb } 0#16) := by
  rcases unlessFault_next h with ⟨hp, ht⟩ | ⟨hp, h⟩
  · exact .inl ⟨hp, ht⟩
  rcases requirePhase_next h with ⟨hi, h⟩ | ⟨hi, ht⟩
  · cases h; exact .inr (.inr ⟨hi, rfl⟩)
  · exact .inr (.inl ⟨hp, hi, ht⟩)

/-- What `PUSH` in `HASH` mode can do (R114). -/
theorem pushHash_next {b : Byte} {s t : State} (h : pushHash b s = .next t) :
    ∃ u, s.writeByte .buf s.fill.toNat b = .ok u ∧
      ((s.fill + 1#8 = s.rate ∧ ∃ v, absorbBlock { u with fill := s.fill + 1#8 } = .ok v ∧
          t = State.respond { v.runPermute with fill := 0#8 } 0#16) ∨
        (s.fill + 1#8 ≠ s.rate ∧ t = State.respond { u with fill := s.fill + 1#8 } 0#16)) := by
  obtain ⟨w, hw, ht⟩ := complete_next h
  obtain ⟨u, hu, hw⟩ := except_bind_ok hw
  have hfr := writeByte_buf_frame hu
  have hfill : u.fill = s.fill := by rw [hfr]
  have hrate : u.rate = s.rate := by rw [hfr]
  refine ⟨u, hu, ?_⟩
  rw [← hrate]
  simp only [hfill] at hw
  split at hw
  · obtain ⟨v, hv, hw⟩ := except_bind_ok hw
    cases hw
    exact .inl ⟨‹_›, v, hv, ht⟩
  · cases hw
    exact .inr ⟨‹_›, ht⟩

/-- What `PUSH` in `PERM` mode can do (R173). -/
theorem pushPerm_next {b : Byte} {s t : State} (h : pushPerm b s = .next t) :
    (s.fill = 200#8 ∧ t = s.raiseMisuse .oplen) ∨
      (s.fill ≠ 200#8 ∧ ∃ u, s.writeByte .st s.fill.toNat b = .ok u ∧
        t = State.respond { u with fill := s.fill + 1#8 } 0#16) := by
  unfold pushPerm at h
  split at h
  · cases h; exact .inl ⟨‹_›, rfl⟩
  · obtain ⟨w, hw, ht⟩ := complete_next h
    obtain ⟨u, hu, hw⟩ := except_bind_ok hw
    cases hw
    have hfill : u.fill = s.fill := by rw [writeByte_st_frame hu]
    exact .inr ⟨‹_›, u, hu, by rw [ht, hfill]⟩

/-- What `PUSH` in `RED` mode can do (R153). -/
theorem pushRed_next {b : Byte} {s t : State} (h : pushRed b s = .next t) :
    (s.fill = 32#8 ∧ t = s.raiseMisuse .oplen) ∨
      (s.fill ≠ 32#8 ∧ ∃ u, s.writeByte .sreg s.fill.toNat b = .ok u ∧
        t = State.respond { u with fill := s.fill + 1#8 } 0#16) := by
  unfold pushRed at h
  split at h
  · cases h; exact .inl ⟨‹_›, rfl⟩
  · obtain ⟨w, hw, ht⟩ := complete_next h
    obtain ⟨u, hu, hw⟩ := except_bind_ok hw
    cases hw
    have hfill : u.fill = s.fill := by rw [writeByte_sreg_frame hu]
    exact .inr ⟨‹_›, u, hu, by rw [ht, hfill]⟩

theorem execPush_next {b : Byte} {s t : State} (h : execPush b s = .next t) :
    (s.phase = .fault ∧ t = s.dropped) ∨ (s.phase ≠ .fault ∧ s.phase ≠ .absorb ∧ t = s.raiseMisuse .seq) ∨
      (s.phase = .absorb ∧ s.mode = .hash ∧ pushHash b s = .next t) ∨
      (s.phase = .absorb ∧ s.mode = .perm ∧ pushPerm b s = .next t) ∨
      (s.phase = .absorb ∧ s.mode = .red ∧ pushRed b s = .next t) := by
  rcases unlessFault_next h with ⟨hp, ht⟩ | ⟨hp, h⟩
  · exact .inl ⟨hp, ht⟩
  rcases requirePhase_next h with ⟨hi, h⟩ | ⟨hi, ht⟩
  · cases hm : s.mode <;> rw [hm] at h
    · cases h
    · exact .inr (.inr (.inl ⟨hi, rfl, h⟩))
    · exact .inr (.inr (.inr (.inl ⟨hi, rfl, h⟩)))
    · exact .inr (.inr (.inr (.inr ⟨hi, rfl, h⟩)))
  · exact .inr (.inl ⟨hp, hi, ht⟩)

/-- What `FIN` in `HASH` mode can do (R116). -/
theorem finHash_next {s t : State} (h : finHash s = .next t) :
    ∃ u, finishSponge s = .ok u ∧ t = (u.present (s.len.setWidth 8) .state).respond 0#16 := by
  obtain ⟨w, hw, ht⟩ := complete_next h
  obtain ⟨u, hu, hw⟩ := except_bind_ok hw
  cases hw
  have hlen : u.len = s.len := by rw [finishSponge_frame hu]
  exact ⟨u, hu, by rw [ht, hlen]⟩

/-- What `FIN` in `PERM` mode can do (R174). -/
theorem finPerm_next {s t : State} (h : finPerm s = .next t) :
    (s.fill ≠ 200#8 ∧ t = s.raiseMisuse .oplen) ∨
      (s.fill = 200#8 ∧ t = (s.runPermute.present 200#8 .state).respond 0#16) := by
  unfold finPerm at h
  split at h
  · cases h; exact .inl ⟨‹_›, rfl⟩
  · cases h; exact .inr ⟨Decidable.not_not.1 ‹_›, rfl⟩

/-- What `FIN` in `RED` mode can do (R154). -/
theorem finRed_next {s t : State} (h : finRed s = .next t) :
    (s.fill ≠ 32#8 ∧ t = s.raiseMisuse .oplen) ∨
      (s.fill = 32#8 ∧ t = (s.runReduce.present 32#8 .scalar).respond 0#16) := by
  unfold finRed at h
  split at h
  · cases h; exact .inl ⟨‹_›, rfl⟩
  · cases h; exact .inr ⟨Decidable.not_not.1 ‹_›, rfl⟩

theorem execFin_next {s t : State} (h : execFin s = .next t) :
    (s.phase = .fault ∧ t = s.dropped) ∨ (s.phase ≠ .fault ∧ s.phase ≠ .absorb ∧ t = s.raiseMisuse .seq) ∨
      (s.phase = .absorb ∧ s.mode = .hash ∧ finHash s = .next t) ∨
      (s.phase = .absorb ∧ s.mode = .perm ∧ finPerm s = .next t) ∨
      (s.phase = .absorb ∧ s.mode = .red ∧ finRed s = .next t) := by
  rcases unlessFault_next h with ⟨hp, ht⟩ | ⟨hp, h⟩
  · exact .inl ⟨hp, ht⟩
  rcases requirePhase_next h with ⟨hi, h⟩ | ⟨hi, ht⟩
  · cases hm : s.mode <;> rw [hm] at h
    · cases h
    · exact .inr (.inr (.inl ⟨hi, rfl, h⟩))
    · exact .inr (.inr (.inr (.inl ⟨hi, rfl, h⟩)))
    · exact .inr (.inr (.inr (.inr ⟨hi, rfl, h⟩)))
  · exact .inr (.inl ⟨hp, hi, ht⟩)

theorem execFinr_next {s t : State} (h : execFinr s = .next t) :
    (s.phase = .fault ∧ t = s.dropped) ∨ (s.phase ≠ .fault ∧ s.phase ≠ .absorb ∧ t = s.raiseMisuse .seq) ∨
      (s.phase = .absorb ∧ s.mode ≠ .hash ∧ t = s.raiseMisuse .seq) ∨
      (s.phase = .absorb ∧ s.mode = .hash ∧ s.len ≠ 32#16 ∧ t = s.raiseMisuse .finrLen) ∨
      (s.phase = .absorb ∧ s.mode = .hash ∧ s.len = 32#16 ∧
        ∃ u, finishSponge s = .ok u ∧ t = (u.loadDigest.runReduce.present 32#8 .scalar).respond 0#16) := by
  rcases unlessFault_next h with ⟨hp, ht⟩ | ⟨hp, h⟩
  · exact .inl ⟨hp, ht⟩
  rcases requirePhase_next h with ⟨hi, h⟩ | ⟨hi, ht⟩
  · split at h
    · cases h; exact .inr (.inr (.inl ⟨hi, ‹_›, rfl⟩))
    split at h
    · cases h; exact .inr (.inr (.inr (.inl ⟨hi, Decidable.not_not.1 ‹_›, ‹_›, rfl⟩)))
    · obtain ⟨w, hw, ht⟩ := complete_next h
      obtain ⟨u, hu, hw⟩ := except_bind_ok hw
      cases hw
      exact .inr (.inr (.inr (.inr ⟨hi, Decidable.not_not.1 ‹_›, Decidable.not_not.1 ‹_›, u, hu, ht⟩)))
  · exact .inr (.inl ⟨hp, hi, ht⟩)

theorem execPop_next {s t : State} (h : execPop s = .next t) :
    (s.phase = .fault ∧ t = s.dropped) ∨ (s.phase ≠ .fault ∧ s.phase ≠ .out ∧ t = s.raiseMisuse .seq) ∨
      (s.phase = .out ∧ s.optr = s.olen ∧ t = s.raiseMisuse .outEmpty) ∨
      (s.phase = .out ∧ s.optr ≠ s.olen ∧ ∃ d, s.byte? s.osrc.store s.optr.toNat = some d ∧
        t = State.respond { s with optr := s.optr + 1#8 } (d.setWidth 16)) := by
  rcases unlessFault_next h with ⟨hp, ht⟩ | ⟨hp, h⟩
  · exact .inl ⟨hp, ht⟩
  rcases requirePhase_next h with ⟨hi, h⟩ | ⟨hi, ht⟩
  · split at h
    · cases h; exact .inr (.inr (.inl ⟨hi, ‹_›, rfl⟩))
    · split at h
      · cases h; exact .inr (.inr (.inr ⟨hi, ‹_›, _, readByte_ok.1 ‹_›, rfl⟩))
      · cases h
  · exact .inr (.inl ⟨hp, hi, ht⟩)

theorem execEndCall_next {s t : State} (h : execEndCall s = .next t) :
    (s.phase = .fault ∧ t = s.dropped) ∨ (s.phase ≠ .fault ∧ s.phase ≠ .out ∧ t = s.raiseMisuse .seq) ∨
      (s.phase = .out ∧ t = s.scrub.respond 0#16) := by
  rcases unlessFault_next h with ⟨hp, ht⟩ | ⟨hp, h⟩
  · exact .inl ⟨hp, ht⟩
  rcases requirePhase_next h with ⟨hi, h⟩ | ⟨hi, ht⟩
  · cases h; exact .inr (.inr ⟨hi, rfl⟩)
  · exact .inr (.inl ⟨hp, hi, ht⟩)

theorem execIllegal_next {s t : State} (h : execIllegal s = .next t) :
    (s.phase = .fault ∧ t = s.dropped) ∨ (s.phase ≠ .fault ∧ t = s.raiseMisuse .illegal) := by
  rcases unlessFault_next h with ⟨hp, ht⟩ | ⟨hp, h⟩
  · exact .inl ⟨hp, ht⟩
  · cases h; exact .inr ⟨hp, rfl⟩

/-- What a `STAT` can do: answer, change nothing else (R176). -/
theorem answerStat_next {s t : State} {v : Half} (h : answerStat s v = .next t) : t = s.respond v := by
  cases h; rfl

/-- The seven `STAT` commands, with the register each answers (R35). -/
theorem exec_stat (s : State) :
    exec .statStatus s = answerStat s s.srStatus ∧ exec .statCause s = answerStat s s.srCause ∧
      exec .statLen s = answerStat s s.srLen ∧ exec .statRate s = answerStat s s.srRate ∧
      exec .statFill s = answerStat s s.srFill ∧ exec .statOutp s = answerStat s s.srOutp ∧
      exec .statId s = answerStat s s.srId := ⟨rfl, rfl, rfl, rfl, rfl, rfl, rfl⟩

/-- Everything a step can do (R42, R178, R230). -/
theorem step_cases {s : State} {o : Out} (h : step s = o) :
    (s.inputs = [] ∧ o = .next s) ∨
      ∃ p rest, s.inputs = p :: rest ∧
        ((p.rst = true ∧ o = .next { State.reset with inputs := rest }) ∨
          (p.rst = false ∧ (∃ r, s.rsp = some r) ∧ p.rspReady = true ∧ o = .next { s with inputs := rest, rsp := none }) ∨
          (p.rst = false ∧ (∃ r, s.rsp = some r) ∧ p.rspReady = false ∧ o = .next { s with inputs := rest }) ∨
          (p.rst = false ∧ s.rsp = none ∧ p.cmd = none ∧ o = .next { s with inputs := rest }) ∨
          (p.rst = false ∧ s.rsp = none ∧ ∃ w, p.cmd = some w ∧ o = accept w { s with inputs := rest })) := by
  subst h
  unfold step nextMoment
  split
  · exact .inl ⟨‹_›, rfl⟩
  · rename_i p rest hin
    refine .inr ⟨p, rest, hin, ?_⟩
    cases hr : p.rst
    · cases hs : s.rsp with
      | some r => cases hy : p.rspReady <;> simp [hostMoment, hr, hy]
      | none => cases hc : p.cmd <;> simp [hostMoment, hr, hc]
    · simp [hostMoment, hr, State.assertReset]

/-- Everything the acceptance of a word can do (R75, R178). -/
theorem accept_cases (w : Word) (s : State) :
    (∃ i, decode w = .ok i ∧ accept w s = exec i s) ∨ (∃ e, decode w = .error e ∧ accept w s = execIllegal s) := by
  unfold accept
  split
  · exact .inl ⟨_, ‹_›, rfl⟩
  · exact .inr ⟨_, ‹_›, rfl⟩

end Sys2Proof.Machine
end

