-- ==== Sys2Proof/Laws/PerInstr.lean ====
section
/-! SUPPORT. The family `EncodedZ`, one lemma per constructor of `Instr`: the field `Z` of every encoded command is zero
(30_encoding.md R71). -/

namespace Sys2Proof.Laws.EncodedZ

open Machine

/-- `Z` of a word built from an opcode and an immediate is zero (R71). -/
theorem zField_commandWord (opc : Byte) (imm : Half) : zField (commandWord opc imm) = 0#8 := by
  apply BitVec.eq_of_getLsbD_eq
  intro i hi
  simp only [zField, commandWord, BitVec.getLsbD_extractLsb', BitVec.getLsbD_append]
  simp [hi]

/-- The field `Z` of the command's word is zero. -/
def Statement (i : Instr) : Prop := zField (encode i) = 0#8

theorem nop : Statement .nop := zField_commandWord _ _
theorem hstart (len : Int) : Statement (.hstart len) := zField_commandWord _ _
theorem pstart : Statement .pstart := zField_commandWord _ _
theorem rstart : Statement .rstart := zField_commandWord _ _
theorem push (b : Byte) : Statement (.push b) := zField_commandWord _ _
theorem fin : Statement .fin := zField_commandWord _ _
theorem finr : Statement .finr := zField_commandWord _ _
theorem pop : Statement .pop := zField_commandWord _ _
theorem statStatus : Statement .statStatus := zField_commandWord _ _
theorem statCause : Statement .statCause := zField_commandWord _ _
theorem statLen : Statement .statLen := zField_commandWord _ _
theorem statRate : Statement .statRate := zField_commandWord _ _
theorem statFill : Statement .statFill := zField_commandWord _ _
theorem statOutp : Statement .statOutp := zField_commandWord _ _
theorem statId : Statement .statId := zField_commandWord _ _
theorem endCall : Statement .endCall := zField_commandWord _ _

end Sys2Proof.Laws.EncodedZ
end

