-- ==== Sys2Proof/Tests/Slice0.lean ====
section
/-! SUPPORT. Tests: ill-formed syntax refused, every command's word written out from 30_encoding.md, one-step tests with
values from the vectors of 95_test_vectors.md, and for each statement with hypotheses a state and operands that meet
them. -/

namespace Sys2Proof.Tests

open Machine

/-! ## Helpers -/

/-- One field of the state a command leaves. -/
def after {α : Type} (o : Out) (f : State → α) : Option α :=
  match o with
  | .next t => some (f t)
  | .fault _ => none
  | .refused _ => none

/-- `PHASE`, `CAUSE` and the response: what a misuse fault shows. -/
def shown (s : State) : Phase × Cause × Option Word := (s.phase, s.cause, s.rsp)

/-- A `HASH` call of length 32 with `fill` bytes in the buffer. -/
def hashing (fill : Byte) : State :=
  { State.reset with mode := .hash, phase := .absorb, len := 32#16, rate := 136#8, fill := fill }

/-- A `HASH` call of length 96, whose rate is 8. -/
def hashing96 (fill : Byte) : State :=
  { State.reset with mode := .hash, phase := .absorb, len := 96#16, rate := 8#8, fill := fill }

/-- A raw permutation call with `fill` bytes loaded. -/
def permuting (fill : Byte) : State := { State.reset with mode := .perm, phase := .absorb, fill := fill }

/-- A raw reduction call with `fill` bytes loaded. -/
def reducing (fill : Byte) : State := { State.reset with mode := .red, phase := .absorb, fill := fill }

/-- The result of a 32-byte hash, `optr` bytes of it read; lane 0 holds the first bytes of V1's digest. -/
def digested (optr : Byte) : State :=
  { State.reset with
    a := zeroLanes.set 0 0x3C23F7860146D2C5#64, mode := .hash, phase := .out, len := 32#16, rate := 136#8,
    olen := 32#8, optr := optr }

/-- The result of a raw reduction, 31 bytes of it read; the value is 2^252. -/
def reduced : State :=
  { State.reset with
    sreg := zeroScalar.set 31 0x10#8, mode := .red, phase := .out, osrc := .scalar, olen := 32#8, optr := 31#8 }

/-- The fault phase after `HSTART 0` (P5a). -/
def failed : State := { State.reset with phase := .fault, cause := .lenNonpos }

/-- A state with one moment of the host ahead. -/
def withPin (s : State) (p : Pins) : State := { s with inputs := [p] }

/-! ## Well-formedness: each check refuses an ill-formed term -/

theorem test_wf_hstart_above : (Instr.hstart 32768).wf = false := by decide
theorem test_wf_hstart_below : (Instr.hstart (-32769)).wf = false := by decide
theorem test_wf_hstart_top : (Instr.hstart 32767).wf = true := by decide
theorem test_wf_hstart_bottom : (Instr.hstart (-32768)).wf = true := by decide

/-! ## Decoding: words written out bit by bit from R71 to R73 (opcode, zero byte, immediate) -/

theorem test_decode_nop : decode 0b00000000_00000000_0000000000000000#32 = .ok .nop := by decide
theorem test_decode_hstart : decode 0b00000001_00000000_0000000000100000#32 = .ok (.hstart 32) := by decide
theorem test_decode_hstart_negative : decode 0b00000001_00000000_1111111111111111#32 = .ok (.hstart (-1)) := by decide
theorem test_decode_hstart_least : decode 0b00000001_00000000_1000000000000000#32 = .ok (.hstart (-32768)) := by decide
theorem test_decode_pstart : decode 0b00000010_00000000_0000000000000000#32 = .ok .pstart := by decide
theorem test_decode_rstart : decode 0b00000011_00000000_0000000000000000#32 = .ok .rstart := by decide
theorem test_decode_push : decode 0b00000100_00000000_00000000_01100001#32 = .ok (.push 0x61#8) := by decide
theorem test_decode_fin : decode 0b00000101_00000000_0000000000000000#32 = .ok .fin := by decide
theorem test_decode_finr : decode 0b00000110_00000000_0000000000000000#32 = .ok .finr := by decide
theorem test_decode_pop : decode 0b00000111_00000000_0000000000000000#32 = .ok .pop := by decide
theorem test_decode_stat0 : decode 0b00001000_00000000_0000000000000000#32 = .ok .statStatus := by decide
theorem test_decode_stat1 : decode 0b00001000_00000000_0000000000000001#32 = .ok .statCause := by decide
theorem test_decode_stat2 : decode 0b00001000_00000000_0000000000000010#32 = .ok .statLen := by decide
theorem test_decode_stat3 : decode 0b00001000_00000000_0000000000000011#32 = .ok .statRate := by decide
theorem test_decode_stat4 : decode 0b00001000_00000000_0000000000000100#32 = .ok .statFill := by decide
theorem test_decode_stat5 : decode 0b00001000_00000000_0000000000000101#32 = .ok .statOutp := by decide
theorem test_decode_stat6 : decode 0b00001000_00000000_0000000000000110#32 = .ok .statId := by decide
theorem test_decode_end : decode 0b00001001_00000000_0000000000000000#32 = .ok .endCall := by decide

/-- The illegal words of V15. -/
theorem test_decode_illegal :
    [0x00000001#32, 0x01010020#32, 0x04000100#32, 0x05010000#32, 0x07000001#32, 0x08000007#32, 0x0A000000#32,
      0x80000000#32, 0xFFFFFFFF#32].all (fun w => (decode w).toOption.isNone) = true := by decide

/-- The words of P1, P2 and P6 are what the encoder makes. -/
theorem test_encode :
    [Instr.hstart 32, .push 0x61#8, .fin, .pop, .endCall, .finr, .rstart, .pstart, .hstart (-1), .statOutp].map encode =
      [0x01000020#32, 0x04000061#32, 0x05000000#32, 0x07000000#32, 0x09000000#32, 0x06000000#32, 0x03000000#32,
        0x02000000#32, 0x0100FFFF#32, 0x08000005#32] := by decide

/-- The table's word of `STAT 3`, through the host's hook. -/
theorem test_decodeTableWord : decodeTableWord 32 0x08000003 = some .statRate := by decide

/-! ## One step of each command (V14, V16, V17, P1 to P8) -/

theorem test_nop_idle : after (exec .nop State.reset) shown = some (.idle, .none, some 0#32) := by decide
theorem test_nop_in_fault :
    after (exec .nop failed) shown = some (.fault, .lenNonpos, some 0x80000001#32) := by decide

theorem test_hstart_valid :
    after (exec (.hstart 96) State.reset) (fun t => (t.phase, t.mode, t.len, t.rate, t.rsp)) =
      some (.absorb, .hash, 96#16, 8#8, some 0#32) := by decide

/-- The cause boundaries of V14. -/
theorem test_hstart_faults :
    [0, -32768, 24, 28, 29, 31, 99, 100, 101, 199, 201, 32767].map (fun len =>
      after (exec (.hstart len) State.reset) (·.cause)) =
    [.lenNonpos, .lenNonpos, .bufOvf, .bufOvf, .lenAlign, .lenAlign, .lenAlign, .rateZero, .lenRange, .lenRange,
      .lenRange, .lenRange].map some := by decide

theorem test_pstart : after (exec .pstart State.reset) (fun t => (t.phase, t.mode, t.rsp)) =
    some (.absorb, .perm, some 0#32) := by decide
theorem test_pstart_in_call : after (exec .pstart (hashing 1#8)) shown = some (.fault, .seq, some 0x80000007#32) := by
  decide
theorem test_rstart : after (exec .rstart State.reset) (fun t => (t.phase, t.mode, t.rsp)) =
    some (.absorb, .red, some 0#32) := by decide
theorem test_rstart_in_out : after (exec .rstart (digested 0#8)) shown = some (.fault, .seq, some 0x80000007#32) := by
  decide

theorem test_push_hash : after (exec (.push 0x62#8) (hashing 1#8)) (fun t => (t.buf[1], t.fill, t.rsp)) =
    some (0x62#8, 2#8, some 0#32) := by decide +kernel
theorem test_push_perm : after (exec (.push 0xAB#8) (permuting 199#8)) (fun t => (t.a[24], t.fill, t.rsp)) =
    some (0xAB00000000000000#64, 200#8, some 0#32) := by decide +kernel

theorem test_fin_red : after (exec .fin { reducing 32#8 with sreg := Vector.replicate 32 0xFF#8 })
    (fun t => (t.sreg[0], t.sreg[15], t.sreg[31], t.olen, t.osrc)) =
      some (0x1C#8, 0xC6#8, 0x0F#8, 32#8, .scalar) := by decide +kernel
theorem test_fin_red_short : after (exec .fin (reducing 31#8)) shown = some (.fault, .oplen, some 0x80000008#32) := by
  decide

theorem test_finr_in_perm : after (exec .finr (permuting 0#8)) shown = some (.fault, .seq, some 0x80000007#32) := by
  decide
theorem test_finr_len : after (exec .finr (hashing96 0#8)) shown = some (.fault, .finrLen, some 0x80000009#32) := by
  decide

theorem test_pop : after (exec .pop (digested 1#8)) (fun t => (t.optr, t.rsp)) = some (2#8, some 0xD2#32) := by
  decide +kernel
theorem test_pop_past_end : after (exec .pop (digested 32#8)) shown = some (.fault, .outEmpty, some 0x8000000A#32) := by
  decide

/-- `STAT 0..6` in the middle of a read-out (V17: `OUTP` is 0x2002 after two `POP`). -/
theorem test_stat_out :
    [Instr.statStatus, .statCause, .statLen, .statRate, .statFill, .statOutp, .statId].map (fun i =>
      after (exec i (digested 2#8)) (·.rsp)) =
    [0x0006#32, 0#32, 0x20#32, 0x88#32, 0#32, 0x2002#32, 0x4B01#32].map (fun w => some (some w)) := by decide

/-- `STAT 0..6` in `FAULT`: answered, with bit 31 set (P5a). -/
theorem test_stat_fault :
    [Instr.statStatus, .statCause, .statLen, .statRate, .statFill, .statOutp, .statId].map (fun i =>
      after (exec i failed) (·.rsp)) =
    [0x80000003#32, 0x80000001#32, 0x80000000#32, 0x80000000#32, 0x80000000#32, 0x80000000#32, 0x80004B01#32].map
      (fun w => some (some w)) := by decide

theorem test_end : after (exec .endCall (digested 8#8)) (fun t => decide ({ t with rsp := none } = State.reset)) =
    some true := by decide +kernel
theorem test_end_idle : after (exec .endCall State.reset) shown = some (.fault, .seq, some 0x80000007#32) := by decide

/-- `ILLEGAL` before `SEQ` and before anything else (V16). -/
theorem test_illegal_first : after (accept 0x05010000#32 (permuting 3#8)) shown =
    some (.fault, .illegal, some 0x80000006#32) := by decide
theorem test_illegal_in_fault : after (accept 0xFFFFFFFF#32 failed) shown =
    some (.fault, .lenNonpos, some 0x80000001#32) := by decide

/-- Reset wins over a command presented at the same moment (R237). -/
theorem test_reset_wins : after (step (withPin failed ⟨true, some 0#32, true⟩)) (fun t => decide (t = State.reset)) =
    some true := by decide +kernel

/-- The placed instruction is what the next step runs. -/
theorem test_withFetchWord : after (step (State.reset.withFetchWord 32 0x01000040)) (·.rate) = some 72#8 := by decide

/-! ## The engines -/

/-- The 24 values of `RC[r]` as the table of R96 prints them, three to a line with their `r`. -/
theorem test_round_constants :
    roundConstant 0 = 0x0000000000000001#64 ∧ roundConstant 8 = 0x000000000000008A#64 ∧ roundConstant 16 = 0x8000000000008002#64 ∧
    roundConstant 1 = 0x0000000000008082#64 ∧ roundConstant 9 = 0x0000000000000088#64 ∧ roundConstant 17 = 0x8000000000000080#64 ∧
    roundConstant 2 = 0x800000000000808A#64 ∧ roundConstant 10 = 0x0000000080008009#64 ∧ roundConstant 18 = 0x000000000000800A#64 ∧
    roundConstant 3 = 0x8000000080008000#64 ∧ roundConstant 11 = 0x000000008000000A#64 ∧ roundConstant 19 = 0x800000008000000A#64 ∧
    roundConstant 4 = 0x000000000000808B#64 ∧ roundConstant 12 = 0x000000008000808B#64 ∧ roundConstant 20 = 0x8000000080008081#64 ∧
    roundConstant 5 = 0x0000000080000001#64 ∧ roundConstant 13 = 0x800000000000008B#64 ∧ roundConstant 21 = 0x8000000000008080#64 ∧
    roundConstant 6 = 0x8000000080008081#64 ∧ roundConstant 14 = 0x8000000000008089#64 ∧ roundConstant 22 = 0x0000000080000001#64 ∧
    roundConstant 7 = 0x8000000000008009#64 ∧ roundConstant 15 = 0x8000000000008003#64 ∧ roundConstant 23 = 0x8000000080008008#64 := by
  decide +kernel

/-- The bits of the constants from the shift register of R96: bit 2^j − 1 of `RC[t]` is output number 7`t` + `j`. -/
theorem test_round_constants_register :
    let bits := (List.range 168).foldl (fun (p : Nat × List Bool) _ =>
      let r := p.1 * 2
      (if r ≥ 256 then r ^^^ 0x171 else r, p.2 ++ [p.1 % 2 == 1])) (1, [])
    roundConstantBits.toList = (List.range 24).map fun t =>
      (List.range 7).filterMap fun j => if bits.2.getD (7 * t + j) false then some (2 ^ j - 1) else none := by
  decide +kernel

/-- The rotations of the chain are the triangular numbers modulo 64 (R97). -/
theorem test_rotation_amounts :
    chainSteps.toList.map (·.1) = (List.range 24).map (fun i => (i + 1) * (i + 2) / 2 % 64) := by decide +kernel

/-- The destinations of the chain are the walk from lane 1 by the coordinate rule of R99 (R98). -/
theorem test_chain_walk :
    (chainSteps.toList.map fun p => p.2.val) = ((1 :: chainSteps.toList.map fun p => p.2.val).take 24).map
      fun i => i / 5 + 5 * ((2 * (i % 5) + 3 * (i / 5)) % 5) := by decide +kernel

/-- Round 1 of V4: the lanes after θ and after χ of the state with lane 0 = 1. -/
theorem test_theta : theta (zeroLanes.set 0 1#64) = Vector.ofFn fun i : Fin 25 =>
    if i.val = 0 then 1#64 else if i.val % 5 = 1 then 1#64 else if i.val % 5 = 4 then 2#64 else 0#64 := by
  decide +kernel

/-- Round 1 of V4, the whole round: nine lanes after ι. -/
theorem test_round : let a := keccakRound (zeroLanes.set 0 1#64) 1
    [a[0], a[1], a[2], a[3], a[4], a[6], a[13], a[15], a[20]] =
      [0x8083#64, 0x100000000000#64, 0x8000#64, 1#64, 0x100000008000#64, 0x200000200000#64, 0x202#64, 0x10000400#64,
        0x10000000000#64] := by
  decide +kernel

/-- V1: `hash("", 32)`. -/
theorem test_hash_empty : (hash [] 32).toOption = some [
    0xC5#8, 0xD2#8, 0x46#8, 0x01#8, 0x86#8, 0xF7#8, 0x23#8, 0x3C#8, 0x92#8, 0x7E#8, 0x7D#8, 0xB2#8, 0xDC#8, 0xC7#8, 0x03#8,
    0xC0#8, 0xE5#8, 0x00#8, 0xB6#8, 0x53#8, 0xCA#8, 0x82#8, 0x27#8, 0x3B#8, 0x7B#8, 0xFA#8, 0xD8#8, 0x04#8, 0x5D#8, 0x85#8,
    0xA4#8, 0x70#8] := by
  decide +kernel

/-- R117: one free byte left in the block merges marker and last bit. -/
theorem test_padding_merges : paddedBlock (List.replicate 7 0xAA#8) 8 = List.replicate 7 0xAA#8 ++ [0x81#8] := by decide

/-- V11: `L` and 15·`L` − 1. -/
theorem test_reduce_modulus : reduceModL (natScalar groupOrder) = zeroScalar := by decide +kernel
theorem test_reduce_15L : reduceModL (natScalar (15 * groupOrder - 1)) = natScalar (groupOrder - 1) := by decide +kernel

/-- V12: the traces of `L` − 1 after the odd pass, the first sequential pass and the last one. -/
theorem test_limb_trace :
    let s := oddPass (evenPass (loadLimbs (natScalar (groupOrder - 1))))
    s = #v[-666644, -470296, -654183, 997805, -136657, 683901, 0, 0, 0, 0, 0, 0, 1] ∧
      floorPass12 (foldTop s) = (Vector.replicate 13 2097151).set 12 (-1) ∧
      reducedLimbs (natScalar (groupOrder - 1)) =
        #v[1430508, 1626855, 1442968, 997804, 1960495, 683900, 0, 0, 0, 0, 0, 2097152, 0] := by
  decide +kernel

/-- An operand whose limb 2 is 2^20 after the odd pass, one above the bound R144 gives (notes/assumptions/9.md). -/
theorem test_rounded_bound : (oddPass (evenPass (loadLimbs (natScalar (2 ^ 62 - 2 ^ 41)))))[2] = 1048576 := by
  decide +kernel

theorem test_pack_top : (packLimbs #v[0, 0, 0, 0, 0, 0, 0, 0, 0, 0, 0, 2097152, 0])[31] = 0x10#8 := by decide +kernel

/-! ## The assembler (R80, R81) -/

theorem test_assemble : assembleLine ['P', 'U', 'S', 'H', ' ', '0', 'x', '6', '1', ' ', ';', 'a'] =
    .ok (some 0x04000061#32) := by decide +kernel
theorem test_pseudo_popn : (Pseudo.popn 3).expand = [.pop, .pop, .pop] := by decide

/-! ## Witnesses: states and operands that meet the hypotheses of the statements -/

theorem witness_decodeEncode :
    (Instr.hstart 32767).wf = true ∧ (Instr.hstart (-32768)).wf = true ∧ (Instr.push 255#8).wf = true := by decide

theorem witness_decodedWord : decode 0x01008000#32 = .ok (.hstart (-32768)) ∧ decode 0x08000006#32 = .ok .statId := by
  decide

theorem witness_step : let s := withPin (hashing 0#8) (Pins.present 0x04000061#32)
    s.inputs = Pins.present 0x04000061#32 :: [] ∧ (Pins.present 0x04000061#32).rst = false ∧ s.rsp = none ∧
      (Pins.present 0x04000061#32).cmd = some 0x04000061#32 ∧ decode 0x04000061#32 = .ok (.push 0x61#8) := by
  refine ⟨rfl, rfl, rfl, rfl, by decide⟩

theorem not_legal_push_256 : ¬ legalWord 0x04000100#32 := by unfold legalWord; decide

theorem witness_illegal_idle : let s := withPin State.reset (Pins.present 0x04000100#32)
    s.inputs = Pins.present 0x04000100#32 :: [] ∧ s.rsp = none ∧ ¬ legalWord 0x04000100#32 ∧ s.phase ≠ .fault :=
  ⟨rfl, rfl, not_legal_push_256, by decide⟩

theorem witness_illegal_fault : let s := withPin failed (Pins.present 0x04000100#32)
    s.inputs = Pins.present 0x04000100#32 :: [] ∧ s.rsp = none ∧ ¬ legalWord 0x04000100#32 ∧ s.phase = .fault :=
  ⟨rfl, rfl, not_legal_push_256, rfl⟩

theorem witness_handshake : State.reset.inputs = [] ∧
    (withPin { failed with rsp := some 0x80000001#32 } Pins.take).inputs = Pins.take :: [] ∧ Pins.take.rst = false ∧
    (withPin { failed with rsp := some 0x80000001#32 } Pins.take).rsp = some 0x80000001#32 ∧
    (withPin failed Pins.take).rsp = none ∧ Pins.take.cmd = none :=
  ⟨rfl, rfl, rfl, rfl, rfl, rfl⟩

theorem witness_reset : let p : Pins := ⟨true, some 0#32, true⟩
    (withPin failed p).inputs = p :: [] ∧ p.rst = true := ⟨rfl, rfl⟩

theorem witness_ports : (∀ i ∈ [Instr.nop, .hstart 0, .statCause], i.wf = true) ∧ State.reset.rsp = none ∧
    State.reset.inputs = [] ∧
    ∃ t, runCommands [Instr.nop, .hstart 0, .statCause] State.reset = some (t, [0#32, 0x80000001#32, 0x80000001#32]) :=
  ⟨by decide, rfl, rfl, _, rfl⟩

theorem inv_hashing : Inv (withPin (hashing 0#8) (Pins.present 0x04000061#32)) := by
  constructor <;> simp [withPin, hashing, State.reset, zeroLanes, zeroScalar, zeroBuffer, validLengths, rateOf]
  intro k _ h
  simp [h]

theorem inv_idle : Inv (withPin State.reset Pins.take) := by
  constructor <;> simp [withPin, State.reset, zeroLanes, zeroScalar, zeroBuffer]

theorem witness_stepKeepsInvariant : Inv (withPin (hashing 0#8) (Pins.present 0x04000061#32)) ∧
    ∃ t, step (withPin (hashing 0#8) (Pins.present 0x04000061#32)) = .next t :=
  ⟨inv_hashing, _, rfl⟩

theorem witness_idle : Inv (withPin State.reset Pins.take) ∧ (withPin State.reset Pins.take).phase = .idle :=
  ⟨inv_idle, rfl⟩

theorem witness_faultEntry : ∃ t, accept 0x0A000000#32 (permuting 3#8) = .next t ∧ (permuting 3#8).phase ≠ .fault ∧
    t.phase = .fault :=
  ⟨_, rfl, by decide, rfl⟩

theorem witness_fault : failed.phase = .fault ∧ ∃ t, step (withPin failed (Pins.present 0x09000000#32)) = .next t :=
  ⟨rfl, _, rfl⟩

theorem witness_faultHidesData :
    failed.phase = .fault ∧ SameView failed { failed with sreg := zeroScalar.set 0 1#8, a := zeroLanes.set 0 1#64 } ∧
      ∃ t, step failed = .next t :=
  ⟨rfl, ⟨rfl, rfl, rfl, rfl, rfl, rfl, rfl, rfl, rfl, rfl, rfl⟩, _, rfl⟩

theorem witness_seq : (hashing 0#8).phase ≠ .fault ∧ (hashing 0#8).phase ≠ .idle ∧ (hashing 0#8).phase ≠ .out ∧
    (digested 0#8).phase ≠ .fault ∧ (digested 0#8).phase ≠ .absorb ∧
    (permuting 0#8).phase = .absorb ∧ (permuting 0#8).mode ≠ .hash := by decide

/-- `PUSH`, `FIN` and `FINR` out of `ABSORB`, in each mode. -/
theorem witness_seq_modes :
    [digested 0#8, { digested 0#8 with mode := .perm }, reduced].map (fun s => (s.mode, s.phase)) =
      [(.hash, .out), (.perm, .out), (.red, .out)] := by decide

theorem witness_oplen : (permuting 200#8).phase = .absorb ∧ (permuting 200#8).mode = .perm ∧
    (permuting 200#8).fill = 200#8 ∧ (permuting 199#8).fill ≠ 200#8 ∧ (reducing 32#8).phase = .absorb ∧
    (reducing 32#8).mode = .red ∧ (reducing 32#8).fill = 32#8 ∧ (reducing 31#8).fill ≠ 32#8 := by decide

theorem witness_oplen_hash : (hashing96 0#8).phase = .absorb ∧ (hashing96 0#8).mode = .hash ∧
    (hashing96 0#8).cause ≠ .oplen ∧ ∃ t, accept 0x06000000#32 (hashing96 0#8) = .next t :=
  ⟨rfl, rfl, by decide, _, rfl⟩

/-- `HASH` mode in `OUT`, all bytes read. -/
theorem witness_oplen_hash_out : (digested 32#8).phase = .out ∧ (digested 32#8).mode = .hash ∧
    (digested 32#8).cause ≠ .oplen ∧ ∃ t, accept 0x07000000#32 (digested 32#8) = .next t :=
  ⟨rfl, rfl, by decide, _, rfl⟩

/-- The ends of the five ranges of lengths: 0; 101 and 201; 100; 1 and 28; 29 and 99. -/
theorem witness_lengths : State.reset.phase = .idle ∧ (0 : Int) ≤ 0 ∧ (100 : Int) < 101 ∧ (101 : Int) ≠ 200 ∧
    (100 : Int) < 201 ∧ (201 : Int) ≠ 200 ∧ (1 : Int) ≤ 28 ∧ (28 : Int) ≤ 28 ∧ (29 : Int) ≤ 99 ∧ (29 : Int) % 8 ≠ 0 ∧
    (99 : Int) % 8 ≠ 0 := by decide

theorem witness_hstart : State.reset.phase = .idle ∧
    ((200, 136) : Nat × Nat) ∈ [(32, 136), (40, 120), (48, 104), (56, 88), (64, 72), (72, 56), (80, 40), (88, 24), (96, 8),
      (200, 136)] := by decide

theorem witness_nop : State.reset.phase ≠ .fault ∧ failed.phase = .fault := by decide

/-- For `PSTART`, `RSTART` and, with the states exchanged, for `POP` and `END` outside their phase. -/
theorem witness_start : State.reset.phase = .idle ∧ (digested 0#8).phase ≠ .idle ∧ (digested 0#8).phase ≠ .fault ∧
    State.reset.phase ≠ .out ∧ State.reset.phase ≠ .fault ∧ (digested 0#8).phase = .out := by decide

/-- A buffer that fills with the next byte, and one that does not. -/
theorem witness_pushHash : (hashing96 7#8).phase = .absorb ∧ (hashing96 7#8).mode = .hash ∧
    (hashing96 7#8).fill.toNat < (hashing96 7#8).rate.toNat ∧ (hashing96 7#8).rate.toNat ≤ 144 ∧
    (hashing96 7#8).rate.toNat % 8 = 0 ∧ (hashing96 7#8).fill.toNat + 1 = (hashing96 7#8).rate.toNat ∧
    (hashing 0#8).fill.toNat < (hashing 0#8).rate.toNat ∧ (hashing 0#8).rate.toNat ≤ 144 ∧
    (hashing 0#8).rate.toNat % 8 = 0 ∧ (hashing 0#8).fill.toNat + 1 ≠ (hashing 0#8).rate.toNat := by decide

theorem witness_pushPerm : (permuting 199#8).phase = .absorb ∧ (permuting 199#8).mode = .perm ∧
    (permuting 199#8).fill.toNat < 200 ∧ (permuting 200#8).fill = 200#8 := by decide

theorem witness_pushRed : (reducing 31#8).phase = .absorb ∧ (reducing 31#8).mode = .red ∧
    (reducing 31#8).fill.toNat < 32 ∧ (reducing 32#8).fill = 32#8 := by decide

/-- The last free byte of the block of `FIN`, and an empty block, with the length `FINR` needs. -/
theorem witness_finHash : (hashing 135#8).phase = .absorb ∧ (hashing 135#8).mode = .hash ∧
    (hashing 135#8).len = 32#16 ∧ (hashing 135#8).fill.toNat < (hashing 135#8).rate.toNat ∧
    (hashing 135#8).rate.toNat ≤ 144 ∧ (hashing 135#8).rate.toNat % 8 = 0 ∧
    (hashing 0#8).fill.toNat < (hashing 0#8).rate.toNat ∧ (hashing96 0#8).len ≠ 32#16 := by decide

theorem witness_finPerm : (permuting 200#8).phase = .absorb ∧ (permuting 200#8).mode = .perm ∧
    (permuting 200#8).fill = 200#8 ∧ (permuting 0#8).fill ≠ 200#8 := by decide

theorem witness_finRed : (reducing 32#8).phase = .absorb ∧ (reducing 32#8).mode = .red ∧
    (reducing 32#8).fill = 32#8 ∧ (reducing 33#8).fill ≠ 32#8 := by decide

theorem witness_pop : (digested 31#8).phase = .out ∧ (digested 31#8).osrc = .state ∧
    (digested 31#8).optr ≠ (digested 31#8).olen ∧ (digested 31#8).optr.toNat < 200 ∧
    reduced.phase = .out ∧ reduced.osrc = .scalar ∧ reduced.optr ≠ reduced.olen ∧ reduced.optr.toNat < 32 ∧
    (digested 32#8).optr = (digested 32#8).olen := by decide

theorem witness_response : ∃ t, accept 0x07000000#32 reduced = .next t ∧ t.phase ≠ .fault := ⟨_, rfl, by decide⟩

theorem witness_phaseMoves : ∃ t, exec .pstart State.reset = .next t ∧ State.reset.phase ≠ .fault := ⟨_, rfl, by decide⟩

theorem witness_padding : (List.replicate 7 0#8).length < 8 ∧ (List.replicate 7 0#8).length + 1 = 8 ∧
    ([] : List Byte).length + 1 < 8 := by decide

theorem witness_fullWidth : ∃ d, hash [] 200 = .ok d := ⟨_, rfl⟩

theorem witness_hasAbsorbed_nothing : HasAbsorbed [] (hashing 0#8) :=
  ⟨rfl, rfl, by decide, rfl, rfl, rfl, rfl⟩

/-- A block that the next byte fills. -/
theorem witness_hasAbsorbed_seven : HasAbsorbed (List.replicate 7 0#8) (hashing96 7#8) :=
  ⟨rfl, rfl, by decide, rfl, rfl, rfl, by decide +kernel⟩

theorem witness_hashCall : 96 ∈ validLengths ∧ Inv (withPin State.reset Pins.take) ∧
    (withPin State.reset Pins.take).phase = .idle :=
  ⟨by decide, inv_idle, rfl⟩

theorem witness_reduceLaws : scalarNat (natScalar (groupOrder - 1)) < groupOrder := by decide +kernel

/-- The ends of the ranges that packing takes. -/
theorem witness_pack : let s : Limbs := (Vector.replicate 13 2097151 |>.set 11 2097152).set 12 0
    (∀ i : Fin 11, 0 ≤ s[i.val] ∧ s[i.val] < 2097152) ∧ 0 ≤ s[11] ∧ s[11] ≤ 2097152 ∧ s[12] = 0 := by
  decide +kernel

theorem witness_assembler : assembleCommand [['S', 'T', 'A', 'T'], ['O', 'U', 'T', 'P']] = .ok (some 0x08000005#32) := by
  decide +kernel

end Sys2Proof.Tests
end

section
/-! SUPPORT. The lengths `hash` accepts and how many bytes it answers (00_scope.md R3, 41_sponge.md R110, R112, R122). -/

namespace Sys2Proof.Machine

/-! ## `rate(len)` and `check(len)` -/

theorem rateOf_half {len : Int} (h : len ≠ 200) : rateOf len = 200 - 2 * len := if_neg h

/-- The lines of R112 in closed form. The buffer line gives the lower bound 29 of the half lengths, the rate line excludes
100, and the last line asks for whole lanes. -/
theorem checkLength_eq_none_iff (len : Int) :
    checkLength len = none ↔ len = 200 ∨ (29 ≤ len ∧ len < 100 ∧ len % 8 = 0) := by
  by_cases hfull : len = 200
  · subst hfull
    exact iff_of_true rfl (.inl rfl)
  · simp only [checkLength, rateOf_half hfull, Config.lenMaxHalf, Config.bufCap]
    constructor
    · intro hnone
      split_ifs at hnone
      omega
    · intro hlen
      repeat rw [if_neg (by omega)]

/-- The table of R122 in the same closed form. -/
theorem exists_mem_validLengths_iff (len : Int) :
    (∃ n ∈ validLengths, len = (n : Int)) ↔ len = 200 ∨ (29 ≤ len ∧ len < 100 ∧ len % 8 = 0) := by
  simp only [validLengths, List.mem_cons, List.not_mem_nil, or_false, exists_eq_or_imp, exists_eq_left]
  omega

/-- The five lines of R112 let through exactly the table of R122. -/
theorem checkLength_eq_none_iff_valid (len : Int) :
    checkLength len = none ↔ ∃ n ∈ validLengths, len = (n : Int) :=
  (checkLength_eq_none_iff len).trans (exists_mem_validLengths_iff len).symm

/-! ## `hash` -/

/-- The lanes after all full blocks of the message and its padded tail, at the rate `r` (R110). -/
def digestLanes (m : List Byte) (r : Nat) : Lanes :=
  permute (absorb (absorbBlocks r (m.length / r) zeroLanes m) (paddedBlock (m.drop (m.length / r * r)) r) r)

theorem hash_of_checkLength_none (m : List Byte) {len : Int} (h : checkLength len = none) :
    hash m len = .ok ((stateBytes (digestLanes m (rateOf len).toNat)).take len.toNat) := by
  simp only [hash, h, digestLanes]

theorem hash_of_checkLength_some (m : List Byte) {len : Int} {c : Cause} (h : checkLength len = some c) :
    hash m len = .error c := by
  simp only [hash, h]

theorem hash_eq_ok_iff (m d : List Byte) (len : Int) :
    hash m len = .ok d ↔
      checkLength len = none ∧ (stateBytes (digestLanes m (rateOf len).toNat)).take len.toNat = d := by
  cases hcheck : checkLength len with
  | none => simp [hash_of_checkLength_none m hcheck]
  | some c => simp [hash_of_checkLength_some m hcheck]

@[simp] theorem length_stateBytes (a : Lanes) : (stateBytes a).length = 200 := List.length_ofFn

/-- The state has enough bytes for every length that passes the check, so the digest is never cut short (R110). -/
theorem length_of_hash_eq_ok {m d : List Byte} {len : Int} (h : hash m len = .ok d) : (d.length : Int) = len := by
  obtain ⟨hcheck, rfl⟩ := (hash_eq_ok_iff m d len).mp h
  have hlen := (checkLength_eq_none_iff len).mp hcheck
  rw [List.length_take, length_stateBytes]
  omega

theorem exists_hash_eq_ok_iff (m : List Byte) (len : Int) : (∃ d, hash m len = .ok d) ↔ checkLength len = none := by
  simp [hash_eq_ok_iff]

/-- Settles O43: `hash` answers exactly when R112 finds nothing, which is exactly on the table of R122, and then takes
`len` of the 200 state bytes. -/
theorem hashSucceedsExactlyOnValidLengths : Obligations.HashSucceedsExactlyOnValidLengths := by
  intro m len
  constructor
  · rw [exists_hash_eq_ok_iff, checkLength_eq_none_iff_valid]
  · intro d hd
    exact length_of_hash_eq_ok hd

end Sys2Proof.Machine
end

section
/-! SUPPORT. What a moment at the ports does (10_state.md R42) and what the registers hold after reset (R38). -/

namespace Sys2Proof.Machine

/-! ## Moments of the host -/

theorem step_of_nil {s : State} (h : s.inputs = []) : step s = .next s := by
  simp only [step, nextMoment, h]

theorem step_of_cons {s : State} {p : Pins} {rest : List Pins} (h : s.inputs = p :: rest) :
    step s = hostMoment p { s with inputs := rest } := by
  simp only [step, nextMoment, h]

/-- With a response pending only the host's taking it matters (R42). -/
theorem hostMoment_of_pending {p : Pins} {s : State} {r : Word} (hrst : p.rst = false) (hrsp : s.rsp = some r) :
    hostMoment p s = .next { s with rsp := if p.rspReady then none else some r } := by
  simp only [hostMoment, hrst, hrsp, Bool.false_eq_true, if_false]
  split
  · rfl
  · rw [← hrsp]

theorem hostMoment_of_quiet {p : Pins} {s : State} (hrst : p.rst = false) (hrsp : s.rsp = none) (hcmd : p.cmd = none) :
    hostMoment p s = .next s := by
  simp [hostMoment, hrst, hrsp, hcmd]

/-- Settles O7: the two moments in which no command is accepted, and the wait for the host. -/
theorem responseHandshake : Obligations.ResponseHandshake := by
  refine ⟨fun s hin => step_of_nil hin, fun s p rest hin hrst => ⟨fun r hrsp => ?_, fun hrsp hcmd => ?_⟩⟩
  · exact (step_of_cons hin).trans (hostMoment_of_pending hrst hrsp)
  · exact (step_of_cons hin).trans (hostMoment_of_quiet hrst hrsp hcmd)

/-! ## Reset -/

/-- Settles O9: the three stores are constant vectors, the registers and outputs are read off the definition. -/
theorem resetValues : Obligations.ResetValues := by
  refine ⟨fun i => ?_, fun k => ?_, fun k => ?_, rfl, rfl, rfl, rfl, rfl, rfl, rfl, rfl, rfl, rfl, rfl, rfl, rfl⟩
  · exact Vector.getElem_replicate i.isLt
  · exact Vector.getElem_replicate k.isLt
  · exact Vector.getElem_replicate k.isLt

end Sys2Proof.Machine
end

section
/-! SUPPORT. The successful commands as one relation, and the three outcomes of a command: dropped in `FAULT`, a misuse fault,
or success (43_call_control.md R170 to R178, 60_exceptions.md R212 to R214). What every command keeps and who writes each
register is read off it. -/

namespace Sys2Proof.Machine

/-- `Completes s i t`: the command `i`, with no misuse, takes `s` to `t`. Each constructor is one successful path of the
command; the state it ends in writes out what changes, so that everything else is seen to stay. -/
inductive Completes (s : State) : Instr → State → Prop where
  /-- `NOP` (R171). -/
  | nop : Completes s .nop (s.respond 0#16)
  /-- `HSTART` with a valid length (R113). -/
  | hstart {len : Int} (hp : s.phase = .idle) (hlen : checkLength len = none) :
      Completes s (.hstart len) (State.respond { s with
        a := zeroLanes, fill := 0#8, len := BitVec.ofInt 16 len, rate := BitVec.ofInt 8 (rateOf len),
        mode := .hash, phase := .absorb } 0#16)
  /-- `PSTART` (R172). -/
  | pstart (hp : s.phase = .idle) :
      Completes s .pstart (State.respond { s with a := zeroLanes, fill := 0#8, mode := .perm, phase := .absorb } 0#16)
  /-- `RSTART` (R152). -/
  | rstart (hp : s.phase = .idle) :
      Completes s .rstart
        (State.respond { s with sreg := zeroScalar, fill := 0#8, mode := .red, phase := .absorb } 0#16)
  /-- `PUSH` in `HASH` mode that leaves room in the block (R114). -/
  | pushHash {b : Byte} {buf : Vector Byte 144} (hp : s.phase = .absorb) (hm : s.mode = .hash)
      (hw : s.writeByte .buf s.fill.toNat b = .ok { s with buf := buf }) (hroom : s.fill + 1#8 ≠ s.rate) :
      Completes s (.push b) (State.respond { s with buf := buf, fill := s.fill + 1#8 } 0#16)
  /-- `PUSH` in `HASH` mode that fills the block, which is absorbed (R114, R115). -/
  | pushHashFull {b : Byte} {buf : Vector Byte 144} {a : Lanes} (hp : s.phase = .absorb) (hm : s.mode = .hash)
      (hw : s.writeByte .buf s.fill.toNat b = .ok { s with buf := buf }) (hfull : s.fill + 1#8 = s.rate)
      (ha : absorbBlock { s with buf := buf, fill := s.fill + 1#8 } =
        .ok { s with buf := buf, fill := s.fill + 1#8, a := a }) :
      Completes s (.push b) (State.respond { s with a := permute a, buf := buf, fill := 0#8 } 0#16)
  /-- `PUSH` in `PERM` mode (R173). -/
  | pushPerm {b : Byte} {a : Lanes} (hp : s.phase = .absorb) (hm : s.mode = .perm) (hroom : s.fill ≠ 200#8)
      (hw : s.writeByte .st s.fill.toNat b = .ok { s with a := a }) :
      Completes s (.push b) (State.respond { s with a := a, fill := s.fill + 1#8 } 0#16)
  /-- `PUSH` in `RED` mode (R153). -/
  | pushRed {b : Byte} {sreg : Scalar} (hp : s.phase = .absorb) (hm : s.mode = .red) (hroom : s.fill ≠ 32#8)
      (hw : s.writeByte .sreg s.fill.toNat b = .ok { s with sreg := sreg }) :
      Completes s (.push b) (State.respond { s with sreg := sreg, fill := s.fill + 1#8 } 0#16)
  /-- `FIN` in `HASH` mode (R116). -/
  | finHash {a : Lanes} {buf : Vector Byte 144} (hp : s.phase = .absorb) (hm : s.mode = .hash)
      (hf : finishSponge s = .ok { s with a := a, buf := buf }) :
      Completes s .fin
        ((State.present { s with a := a, buf := buf } (s.len.setWidth 8) .state).respond 0#16)
  /-- `FIN` in `PERM` mode (R174). -/
  | finPerm (hp : s.phase = .absorb) (hm : s.mode = .perm) (hfill : s.fill = 200#8) :
      Completes s .fin ((s.runPermute.present 200#8 .state).respond 0#16)
  /-- `FIN` in `RED` mode (R154). -/
  | finRed (hp : s.phase = .absorb) (hm : s.mode = .red) (hfill : s.fill = 32#8) :
      Completes s .fin ((s.runReduce.present 32#8 .scalar).respond 0#16)
  /-- `FINR` (R155). -/
  | finr {a : Lanes} {buf : Vector Byte 144} (hp : s.phase = .absorb) (hm : s.mode = .hash) (hlen : s.len = 32#16)
      (hf : finishSponge s = .ok { s with a := a, buf := buf }) :
      Completes s .finr
        (((State.loadDigest { s with a := a, buf := buf }).runReduce.present 32#8 .scalar).respond 0#16)
  /-- `POP` (R175). -/
  | pop {d : Byte} (hp : s.phase = .out) (hleft : s.optr ≠ s.olen)
      (hd : s.byte? s.osrc.store s.optr.toNat = some d) :
      Completes s .pop (State.respond { s with optr := s.optr + 1#8 } (d.setWidth 16))
  /-- The seven `STAT` commands (R176). -/
  | stat {i : Instr} (value : Half) (h : exec i s = answerStat s value) : Completes s i (s.respond value)
  /-- `END` (R177). -/
  | endCall (hp : s.phase = .out) : Completes s .endCall (s.scrub.respond 0#16)

/-- The three outcomes of a command that answers a next state. -/
def Outcomes (s : State) (i : Instr) (t : State) : Prop :=
  (s.phase = .fault ∧ t = s.dropped) ∨ (s.phase ≠ .fault ∧ ∃ c, c ≠ .none ∧ t = s.raiseMisuse c) ∨ Completes s i t

namespace Outcomes

variable {s t : State} {i : Instr}

theorem dropped (hp : s.phase = .fault) : Outcomes s i s.dropped := .inl ⟨hp, rfl⟩

theorem misuse {c : Cause} (hp : s.phase ≠ .fault) (hc : c ≠ .none) : Outcomes s i (s.raiseMisuse c) :=
  .inr (.inl ⟨hp, c, hc, rfl⟩)

theorem completes (h : Completes s i t) : Outcomes s i t := .inr (.inr h)

end Outcomes

/-- A length is never rejected with the cause 0 (R112). -/
theorem checkLength_ne_some_none (len : Int) : checkLength len ≠ some .none := by
  unfold checkLength
  split_ifs <;> simp

section
variable {s t : State}

theorem execHstart_outcomes {len : Int} (h : execHstart len s = .next t) : Outcomes s (.hstart len) t := by
  rcases execHstart_next h with ⟨hp, rfl⟩ | ⟨hp, -, rfl⟩ | ⟨hp, c, hc, rfl⟩ | ⟨hp, hlen, rfl⟩
  · exact .dropped hp
  · exact .misuse hp (by decide)
  · exact .misuse (by simp [hp]) fun h0 => checkLength_ne_some_none len (h0 ▸ hc)
  · exact .completes (.hstart hp hlen)

theorem execPstart_outcomes (h : execPstart s = .next t) : Outcomes s .pstart t := by
  rcases execPstart_next h with ⟨hp, rfl⟩ | ⟨hp, -, rfl⟩ | ⟨hp, rfl⟩
  · exact .dropped hp
  · exact .misuse hp (by decide)
  · exact .completes (.pstart hp)

theorem execRstart_outcomes (h : execRstart s = .next t) : Outcomes s .rstart t := by
  rcases execRstart_next h with ⟨hp, rfl⟩ | ⟨hp, -, rfl⟩ | ⟨hp, rfl⟩
  · exact .dropped hp
  · exact .misuse hp (by decide)
  · exact .completes (.rstart hp)

theorem pushHash_outcomes {b : Byte} (hp : s.phase = .absorb) (hm : s.mode = .hash) (h : pushHash b s = .next t) :
    Outcomes s (.push b) t := by
  obtain ⟨u, hw, hcases⟩ := pushHash_next h
  obtain ⟨buf, rfl⟩ : ∃ buf, u = { s with buf := buf } := ⟨_, writeByte_buf_frame hw⟩
  rcases hcases with ⟨hfull, v, hv, rfl⟩ | ⟨hroom, rfl⟩
  · obtain ⟨a, rfl⟩ : ∃ a, v = { s with buf := buf, fill := s.fill + 1#8, a := a } := ⟨_, absorbBlock_frame hv⟩
    exact .completes (.pushHashFull hp hm hw hfull hv)
  · exact .completes (.pushHash hp hm hw hroom)

theorem pushPerm_outcomes {b : Byte} (hp : s.phase = .absorb) (hm : s.mode = .perm) (h : pushPerm b s = .next t) :
    Outcomes s (.push b) t := by
  rcases pushPerm_next h with ⟨-, rfl⟩ | ⟨hroom, u, hw, rfl⟩
  · exact .misuse (by simp [hp]) (by decide)
  · obtain ⟨a, rfl⟩ : ∃ a, u = { s with a := a } := ⟨_, writeByte_st_frame hw⟩
    exact .completes (.pushPerm hp hm hroom hw)

theorem pushRed_outcomes {b : Byte} (hp : s.phase = .absorb) (hm : s.mode = .red) (h : pushRed b s = .next t) :
    Outcomes s (.push b) t := by
  rcases pushRed_next h with ⟨-, rfl⟩ | ⟨hroom, u, hw, rfl⟩
  · exact .misuse (by simp [hp]) (by decide)
  · obtain ⟨sreg, rfl⟩ : ∃ sreg, u = { s with sreg := sreg } := ⟨_, writeByte_sreg_frame hw⟩
    exact .completes (.pushRed hp hm hroom hw)

theorem execPush_outcomes {b : Byte} (h : execPush b s = .next t) : Outcomes s (.push b) t := by
  rcases execPush_next h with ⟨hp, rfl⟩ | ⟨hp, -, rfl⟩ | ⟨hp, hm, h⟩ | ⟨hp, hm, h⟩ | ⟨hp, hm, h⟩
  · exact .dropped hp
  · exact .misuse hp (by decide)
  · exact pushHash_outcomes hp hm h
  · exact pushPerm_outcomes hp hm h
  · exact pushRed_outcomes hp hm h

theorem finHash_outcomes (hp : s.phase = .absorb) (hm : s.mode = .hash) (h : finHash s = .next t) :
    Outcomes s .fin t := by
  obtain ⟨u, hf, rfl⟩ := finHash_next h
  obtain ⟨a, buf, rfl⟩ : ∃ a buf, u = { s with a := a, buf := buf } := ⟨_, _, finishSponge_frame hf⟩
  exact .completes (.finHash hp hm hf)

theorem finPerm_outcomes (hp : s.phase = .absorb) (hm : s.mode = .perm) (h : finPerm s = .next t) :
    Outcomes s .fin t := by
  rcases finPerm_next h with ⟨-, rfl⟩ | ⟨hfill, rfl⟩
  · exact .misuse (by simp [hp]) (by decide)
  · exact .completes (.finPerm hp hm hfill)

theorem finRed_outcomes (hp : s.phase = .absorb) (hm : s.mode = .red) (h : finRed s = .next t) :
    Outcomes s .fin t := by
  rcases finRed_next h with ⟨-, rfl⟩ | ⟨hfill, rfl⟩
  · exact .misuse (by simp [hp]) (by decide)
  · exact .completes (.finRed hp hm hfill)

theorem execFin_outcomes (h : execFin s = .next t) : Outcomes s .fin t := by
  rcases execFin_next h with ⟨hp, rfl⟩ | ⟨hp, -, rfl⟩ | ⟨hp, hm, h⟩ | ⟨hp, hm, h⟩ | ⟨hp, hm, h⟩
  · exact .dropped hp
  · exact .misuse hp (by decide)
  · exact finHash_outcomes hp hm h
  · exact finPerm_outcomes hp hm h
  · exact finRed_outcomes hp hm h

theorem execFinr_outcomes (h : execFinr s = .next t) : Outcomes s .finr t := by
  rcases execFinr_next h with ⟨hp, rfl⟩ | ⟨hp, -, rfl⟩ | ⟨hp, -, rfl⟩ | ⟨hp, -, -, rfl⟩ | ⟨hp, hm, hlen, u, hf, rfl⟩
  · exact .dropped hp
  · exact .misuse hp (by decide)
  · exact .misuse (by simp [hp]) (by decide)
  · exact .misuse (by simp [hp]) (by decide)
  · obtain ⟨a, buf, rfl⟩ : ∃ a buf, u = { s with a := a, buf := buf } := ⟨_, _, finishSponge_frame hf⟩
    exact .completes (.finr hp hm hlen hf)

theorem execPop_outcomes (h : execPop s = .next t) : Outcomes s .pop t := by
  rcases execPop_next h with ⟨hp, rfl⟩ | ⟨hp, -, rfl⟩ | ⟨hp, -, rfl⟩ | ⟨hp, hleft, d, hd, rfl⟩
  · exact .dropped hp
  · exact .misuse hp (by decide)
  · exact .misuse (by simp [hp]) (by decide)
  · exact .completes (.pop hp hleft hd)

theorem execEndCall_outcomes (h : execEndCall s = .next t) : Outcomes s .endCall t := by
  rcases execEndCall_next h with ⟨hp, rfl⟩ | ⟨hp, -, rfl⟩ | ⟨hp, rfl⟩
  · exact .dropped hp
  · exact .misuse hp (by decide)
  · exact .completes (.endCall hp)

theorem execNop_outcomes (h : execNop s = .next t) : Outcomes s .nop t := by
  rcases execNop_next h with ⟨hp, rfl⟩ | ⟨-, rfl⟩
  · exact .dropped hp
  · exact .completes .nop

theorem answerStat_outcomes {i : Instr} {value : Half} (hi : exec i s = answerStat s value)
    (h : exec i s = .next t) : Outcomes s i t := by
  obtain rfl : t = s.respond value := answerStat_next (hi ▸ h)
  exact .completes (.stat value hi)

/-- Everything a command can do (R178). -/
theorem exec_outcomes {i : Instr} (h : exec i s = .next t) : Outcomes s i t := by
  obtain ⟨hstatus, hcause, hlen, hrate, hfill, houtp, hid⟩ := exec_stat s
  cases i with
  | nop => exact execNop_outcomes h
  | hstart len => exact execHstart_outcomes h
  | pstart => exact execPstart_outcomes h
  | rstart => exact execRstart_outcomes h
  | push b => exact execPush_outcomes h
  | fin => exact execFin_outcomes h
  | finr => exact execFinr_outcomes h
  | pop => exact execPop_outcomes h
  | statStatus => exact answerStat_outcomes hstatus h
  | statCause => exact answerStat_outcomes hcause h
  | statLen => exact answerStat_outcomes hlen h
  | statRate => exact answerStat_outcomes hrate h
  | statFill => exact answerStat_outcomes hfill h
  | statOutp => exact answerStat_outcomes houtp h
  | statId => exact answerStat_outcomes hid h
  | endCall => exact execEndCall_outcomes h

end

/-! ## Who writes what -/

/-- Settles O38: dropped and faulting commands write no store; each successful one shows in its last state which stores it
writes. -/
theorem whoWritesEachStore : Obligations.WhoWritesEachStore := by
  intro i s t h
  rcases exec_outcomes h with ⟨-, rfl⟩ | ⟨-, c, -, rfl⟩ | hdone
  · simp
  · simp
  · cases hdone with
    | nop | stat | pop => simp
    -- listed as writers in whatever mode they run
    | hstart | pstart | rstart | endCall | finr => simp
    -- listed as writers in the mode `hm` alone
    | pushHash _ hm | pushHashFull _ hm | pushPerm _ hm | pushRed _ hm => simp [hm]
    | finHash _ hm | finPerm _ hm | finRed _ hm => simp [hm]

/-- Settles O39: only START-type commands and `END` show these registers in their last state, and `CAUSE` changes only where a
misuse is raised. -/
theorem whoWritesControlRegisters : Obligations.WhoWritesControlRegisters := by
  intro i s t h
  rcases exec_outcomes h with ⟨-, rfl⟩ | ⟨hp, c, -, rfl⟩ | hdone
  · simp
  · simp [hp]
  · cases hdone with
    | nop | stat | pop => simp
    | hstart | pstart | rstart | endCall => simp
    | pushHash | pushHashFull | pushPerm | pushRed => simp
    | finHash | finPerm | finRed | finr => simp

end Sys2Proof.Machine
end

section
/-! SUPPORT. The between-command invariant (10_state.md R39, R40): what it says of a state in `IDLE` and in a `HASH` call, and
that every step keeps it. A lemma for each kind of command names the clauses the command touches; all other clauses are
carried over from the state before. -/

namespace Sys2Proof

open Machine

/-! ## The response channel -/

/-- The clause `response` of the invariant, for the flag `f` and the pending response `r` (R78). -/
def ResponseForm (f : Bool) (r : Option Word) : Prop :=
  ∀ w, r = some w → w.extractLsb' 16 15 = 0#15 ∧ w.getLsbD 31 = f

theorem responseForm_none (f : Bool) : ResponseForm f none := by
  intro w hw
  cases hw

/-- Every response the block builds has the form of R78. -/
theorem responseForm_rspWord (f : Bool) (data : Half) : ResponseForm f (some (rspWord f data)) := by
  rintro w ⟨⟩
  constructor
  · apply BitVec.eq_of_getLsbD_eq
    intro i hi
    simp only [rspWord, BitVec.getLsbD_extractLsb', BitVec.getLsbD_append]
    simp [hi]
  · simp only [rspWord, BitVec.getLsbD_append]
    simp

theorem responseForm_respond (s : State) (data : Half) : ResponseForm (s.respond data).flagF (s.respond data).rsp :=
  responseForm_rspWord s.flagF data

/-! ## The lengths and rates of a `HASH` call -/

theorem rateOf_bounds {n : Nat} (h : n ∈ validLengths) : 8 ≤ rateOf n ∧ rateOf n ≤ 136 := by
  have : ∀ n ∈ validLengths, 8 ≤ rateOf (n : Nat) ∧ rateOf (n : Nat) ≤ 136 := by decide
  exact this n h

theorem le_200_of_mem_validLengths {n : Nat} (h : n ∈ validLengths) : n ≤ 200 := by
  have : ∀ n ∈ validLengths, n ≤ 200 := by decide
  exact this n h

/-- `LEN` and `RATE` as `HSTART` writes them for a length that passes the check (R113). -/
theorem hstart_registers {len : Int} (h : checkLength len = none) :
    (BitVec.ofInt 16 len).toNat ∈ validLengths ∧
      ((BitVec.ofInt 8 (rateOf len)).toNat : Int) = rateOf (BitVec.ofInt 16 len).toNat := by
  have hregs : ∀ n ∈ validLengths, (BitVec.ofInt 16 (n : Nat)).toNat = n ∧
      ((BitVec.ofInt 8 (rateOf (n : Nat))).toNat : Int) = rateOf (n : Nat) := by decide
  obtain ⟨n, hn, rfl⟩ := (checkLength_eq_none_iff_valid len).mp h
  obtain ⟨hlen, hrate⟩ := hregs n hn
  rw [hlen, hrate]
  exact ⟨hn, rfl⟩

/-! ## Bytes of the stores -/

theorem byte?_st_reset {k : Nat} (hk : k < 200) : State.reset.byte? .st k = some 0#8 := by
  rw [byte?_st _ hk]
  simp [State.reset]

theorem byte?_sreg_reset {k : Nat} (hk : k < 32) : State.reset.byte? .sreg k = some 0#8 := by
  rw [byte?_sreg _ hk]
  simp [State.reset]

/-- A byte write leaves the bytes above it, where the invariant says what an unfilled store holds (R59). -/
theorem byte?_above_of_writeByte {s t : State} {S : Store} {k : Nat} {b : Byte} (hw : s.writeByte S k b = .ok t)
    {j : Nat} (hj : k < j) : t.byte? S j = s.byte? S j := by
  obtain ⟨-, -, hother, -⟩ := writeByte_spec hw
  exact hother S j (.inr (by omega))

/-! ## The value of a reduced scalar -/

/-- `LEbytes_32` of `natScalar` and of `leBytes` are the same bytes (R16, R140). -/
theorem natScalar_toList {v : Nat} (hv : v < 256 ^ 32) : (natScalar v).toList = leBytes 32 v := by
  apply List.ext_getElem
  · simp
  · intro k hk hk'
    rw [leNat_getElem _ _ hk', leNat_leBytes, Nat.mod_eq_of_lt hv]
    simp [natScalar]

theorem scalarNat_natScalar {v : Nat} (hv : v < 256 ^ 32) : scalarNat (natScalar v) = v := by
  rw [scalarNat, natScalar_toList hv, leNat_leBytes, Nat.mod_eq_of_lt hv]

/-- The result of `reduceModL` is reduced (R140). -/
theorem scalarNat_reduceModL_lt (x : Scalar) : scalarNat (reduceModL x) < groupOrder := by
  have hlt : scalarNat x % groupOrder < groupOrder := Nat.mod_lt _ (by norm_num [groupOrder])
  have hfit : groupOrder ≤ 256 ^ 32 := by norm_num [groupOrder]
  unfold reduceModL
  rwa [scalarNat_natScalar (hlt.trans_le hfit)]

/-! ## What the invariant says of a state -/

namespace Inv

variable {s : State}

theorem cause_eq_none (h : Inv s) (hp : s.phase ≠ .fault) : s.cause = .none := by
  by_contra hc
  exact hp (h.cause_iff.mpr hc)

/-- In `IDLE` nothing of a call is left (R39). -/
theorem eq_reset_of_idle (h : Inv s) (hp : s.phase = .idle) :
    s = { State.reset with rsp := s.rsp, inputs := s.inputs } := by
  have hnf : s.phase ≠ .fault := by simp [hp]
  have hm : s.mode = .none := (h.idle_iff hnf).mp hp
  have hc : s.cause = .none := h.cause_eq_none hnf
  obtain ⟨ha, hsreg, hfill, hosrc, holen, hoptr⟩ := h.no_call hm
  obtain ⟨hlen, hrate, hbuf⟩ := h.not_hash (by simp [hm])
  cases s
  simp only at hp hm hc ha hsreg hfill hosrc holen hoptr hlen hrate hbuf
  subst hp hm hc ha hsreg hfill hosrc holen hoptr hlen hrate hbuf
  rfl

/-- The rate of a `HASH` call fits the buffer (R60). -/
theorem rate_le (h : Inv s) (hm : s.mode = .hash) : s.rate.toNat ≤ 136 := by
  obtain ⟨hlen, hrate, -⟩ := h.hash_len hm
  have := rateOf_bounds hlen
  omega

/-! ## Updates outside a call -/

/-- The response channel and the host's further moments are free but for the form of the response. -/
theorem channel (h : Inv s) {r : Option Word} (hr : ResponseForm s.flagF r) (inputs : List Pins) :
    Inv { s with rsp := r, inputs := inputs } :=
  { h with response := hr }

theorem respond (h : Inv s) (data : Half) : Inv (s.respond data) :=
  h.channel (responseForm_respond s data) s.inputs

theorem inputs (h : Inv s) (inputs : List Pins) : Inv { s with inputs := inputs } :=
  h.channel h.response inputs

/-- Fault entry writes `PHASE` and `CAUSE` together and keeps the registers of the call (R213). -/
theorem raiseMisuse (h : Inv s) {c : Cause} (hc : c ≠ .none) : Inv (s.raiseMisuse c) :=
  { h with
    response := responseForm_rspWord true c.data
    cause_iff := by simp [hc]
    idle_iff := by simp
    absorbing := by simp
    hash_fill := by simp
    perm_fill := by simp
    red_fill := by simp
    out_read := by simp
    out_scalar := by simp
    out_len := by simp }

/-- The reset state, whatever the host does next (R38). -/
theorem reset (inputs : List Pins) : Inv { State.reset with inputs := inputs } where
  response := responseForm_none _
  cause_iff := by simp [State.reset]
  idle_iff := by simp [State.reset]
  no_call _ := ⟨rfl, rfl, rfl, rfl, rfl, rfl⟩
  not_hash _ := ⟨rfl, rfl, rfl⟩
  hash_len := by simp [State.reset]
  scalar_unused := by simp [State.reset]
  lanes_unused := by simp [State.reset]
  absorbing := by simp [State.reset]
  hash_fill := by simp [State.reset]
  perm_fill := by simp [State.reset]
  red_fill := by simp [State.reset]
  out_read := by simp [State.reset]
  out_scalar := by simp [State.reset]
  out_len := by simp [State.reset]

/-- `END` leaves the reset state: outside `FAULT` the register it does not write, `CAUSE`, is 0 (R177). -/
theorem scrub (h : Inv s) (hp : s.phase ≠ .fault) (data : Half) : Inv (s.scrub.respond data) := by
  have hscrub : s.scrub.respond data = { State.reset with rsp := some (rspWord false data), inputs := s.inputs } := by
    simp only [State.scrub, h.cause_eq_none hp]
    rfl
  rw [hscrub]
  exact (reset s.inputs).channel (responseForm_rspWord false data) s.inputs

/-! ## START-type commands -/

/-- A call in the mode `m` that has just started: everything but `PHASE`, `MODE`, `LEN` and `RATE` is at reset (R113, R152,
R172). -/
theorem started {m : Mode} {len : Half} {rate : Byte} (data : Half) (inputs : List Pins) (hm : m ≠ .none)
    (hraw : m ≠ .hash → len = 0#16 ∧ rate = 0#8)
    (hhash : m = .hash → len.toNat ∈ validLengths ∧ (rate.toNat : Int) = rateOf len.toNat) :
    Inv (State.respond
      { State.reset with mode := m, phase := .absorb, len := len, rate := rate, inputs := inputs } data) where
  response := responseForm_respond _ _
  cause_iff := by simp [State.reset]
  idle_iff := by simp [hm]
  no_call _ := ⟨rfl, rfl, rfl, rfl, rfl, rfl⟩
  not_hash hnh := ⟨(hraw hnh).1, (hraw hnh).2, rfl⟩
  hash_len hh := by
    obtain ⟨hlen, hrate⟩ := hhash hh
    exact ⟨hlen, hrate, fun k _ hk => by simp [State.reset, hk]⟩
  scalar_unused _ := rfl
  lanes_unused _ := rfl
  absorbing _ := ⟨rfl, rfl, rfl⟩
  hash_fill _ hh := by
    obtain ⟨hlen, hrate⟩ := hhash hh
    have := rateOf_bounds hlen
    have hroom : 0 < rate.toNat := by omega
    exact hroom
  perm_fill _ _ := ⟨Nat.zero_le _, fun k _ hk => byte?_st_reset hk⟩
  red_fill _ _ := ⟨Nat.zero_le _, fun k _ hk => byte?_sreg_reset hk⟩
  out_read := by simp
  out_scalar := by simp
  out_len := by simp

theorem hstart (h : Inv s) (hp : s.phase = .idle) {len : Int} (hlen : checkLength len = none) :
    Inv (State.respond { s with
      a := zeroLanes, fill := 0#8, len := BitVec.ofInt 16 len, rate := BitVec.ofInt 8 (rateOf len),
      mode := .hash, phase := .absorb } 0#16) := by
  rw [h.eq_reset_of_idle hp]
  exact started 0#16 s.inputs (by decide) (fun hnh => absurd rfl hnh) fun _ => hstart_registers hlen

theorem pstart (h : Inv s) (hp : s.phase = .idle) :
    Inv (State.respond { s with a := zeroLanes, fill := 0#8, mode := .perm, phase := .absorb } 0#16) := by
  rw [h.eq_reset_of_idle hp]
  exact started 0#16 s.inputs (by decide) (fun _ => ⟨rfl, rfl⟩) nofun

theorem rstart (h : Inv s) (hp : s.phase = .idle) :
    Inv (State.respond { s with sreg := zeroScalar, fill := 0#8, mode := .red, phase := .absorb } 0#16) := by
  rw [h.eq_reset_of_idle hp]
  exact started 0#16 s.inputs (by decide) (fun _ => ⟨rfl, rfl⟩) nofun

/-! ## `PUSH` -/

/-- In `HASH` mode the lanes and the bytes of `BUF` below `RATE` are free, and `FILL` is below `RATE` (R40 (b)). -/
theorem absorb_hash (h : Inv s) (hp : s.phase = .absorb) (hm : s.mode = .hash) (a : Lanes) {buf : Vector Byte 144}
    {fill : Byte} (hbuf : ∀ k, s.rate.toNat ≤ k → buf[k]? = s.buf[k]?) (hfill : fill.toNat < s.rate.toNat)
    (data : Half) : Inv (State.respond { s with a := a, buf := buf, fill := fill } data) :=
  { h with
    response := responseForm_respond _ _
    no_call := by simp [hm]
    not_hash := by simp [hm]
    hash_len := fun _ => by
      obtain ⟨hlen, hrate, hzero⟩ := h.hash_len hm
      exact ⟨hlen, hrate, fun k hk hk' => (hbuf k hk).trans (hzero k hk hk')⟩
    lanes_unused := by simp [hm]
    hash_fill := fun _ _ => hfill
    perm_fill := by simp [hm]
    red_fill := by simp [hm]
    out_read := by simp [hp] }

theorem pushHash (h : Inv s) (hp : s.phase = .absorb) (hm : s.mode = .hash) {b : Byte} {buf : Vector Byte 144}
    (hw : s.writeByte .buf s.fill.toNat b = .ok { s with buf := buf }) (hroom : s.fill + 1#8 ≠ s.rate) :
    Inv (State.respond { s with buf := buf, fill := s.fill + 1#8 } 0#16) := by
  have hfill : s.fill.toNat < s.rate.toNat := h.hash_fill hp hm
  exact h.absorb_hash hp hm s.a (fun j hj => byte?_above_of_writeByte hw (hfill.trans_le hj)) (by bv_omega) 0#16

theorem pushHashFull (h : Inv s) (hp : s.phase = .absorb) (hm : s.mode = .hash) {b : Byte} {buf : Vector Byte 144}
    (hw : s.writeByte .buf s.fill.toNat b = .ok { s with buf := buf }) (a : Lanes) :
    Inv (State.respond { s with a := a, buf := buf, fill := 0#8 } 0#16) := by
  have hfill : s.fill.toNat < s.rate.toNat := h.hash_fill hp hm
  have hempty : (0#8).toNat < s.rate.toNat := Nat.zero_lt_of_lt hfill
  exact h.absorb_hash hp hm a (fun j hj => byte?_above_of_writeByte hw (hfill.trans_le hj)) hempty 0#16

theorem pushPerm (h : Inv s) (hp : s.phase = .absorb) (hm : s.mode = .perm) (hroom : s.fill ≠ 200#8) {b : Byte}
    {a : Lanes} (hw : s.writeByte .st s.fill.toNat b = .ok { s with a := a }) :
    Inv (State.respond { s with a := a, fill := s.fill + 1#8 } 0#16) :=
  { h with
    response := responseForm_respond _ _
    no_call := by simp [hm]
    lanes_unused := by simp [hm]
    hash_fill := by simp [hm]
    perm_fill := fun _ _ => by
      obtain ⟨hle, hzero⟩ := h.perm_fill hp hm
      have hlt : s.fill.toNat < 200 := by bv_omega
      have hnext : (s.fill + 1#8).toNat = s.fill.toNat + 1 := by bv_omega
      refine ⟨hnext.trans_le hlt, fun k hk hk' => ?_⟩
      have hbelow : s.fill.toNat < k := hnext.symm.trans_le hk
      exact (byte?_above_of_writeByte hw hbelow).trans (hzero k hbelow.le hk')
    red_fill := by simp [hm]
    out_read := by simp [hp] }

theorem pushRed (h : Inv s) (hp : s.phase = .absorb) (hm : s.mode = .red) (hroom : s.fill ≠ 32#8) {b : Byte}
    {sreg : Scalar} (hw : s.writeByte .sreg s.fill.toNat b = .ok { s with sreg := sreg }) :
    Inv (State.respond { s with sreg := sreg, fill := s.fill + 1#8 } 0#16) :=
  { h with
    response := responseForm_respond _ _
    no_call := by simp [hm]
    scalar_unused := by simp [hm]
    hash_fill := by simp [hm]
    perm_fill := by simp [hm]
    red_fill := fun _ _ => by
      obtain ⟨hle, hzero⟩ := h.red_fill hp hm
      have hlt : s.fill.toNat < 32 := by bv_omega
      have hnext : (s.fill + 1#8).toNat = s.fill.toNat + 1 := by bv_omega
      refine ⟨hnext.trans_le hlt, fun k hk hk' => ?_⟩
      have hbelow : s.fill.toNat < k := hnext.symm.trans_le hk
      exact (byte?_above_of_writeByte hw hbelow).trans (hzero k hbelow.le hk')
    out_read := by simp [hp]
    out_scalar := by simp [hp] }

/-! ## FIN-type commands -/

/-- A finished hash: the result, from whichever store, has a valid length, and a scalar result is reduced (R116, R155). -/
theorem finished_hash (h : Inv s) (hp : s.phase = .absorb) (hm : s.mode = .hash) {a : Lanes} {buf : Vector Byte 144}
    (hf : finishSponge s = .ok { s with a := a, buf := buf }) {sreg : Scalar} {n : Byte} {src : Source}
    (hn : n.toNat ∈ validLengths) (hstate : src = .state → n.toNat = s.len.toNat ∧ sreg = zeroScalar)
    (hscalar : src = .scalar → n = 32#8 ∧ scalarNat sreg < groupOrder) (data : Half) :
    Inv ((State.present { s with a := a, buf := buf, sreg := sreg } n src).respond data) :=
  { h with
    response := responseForm_respond _ _
    cause_iff := by simp [h.cause_eq_none, hp]
    idle_iff := by simp [hm]
    no_call := by simp [hm]
    not_hash := by simp [hm]
    hash_len := fun _ => by
      obtain ⟨hlen, hrate, hzero⟩ := h.hash_len hm
      obtain ⟨u, hu, -, -, habove, -⟩ := finishSponge_spec s (h.hash_fill hp hm) ((h.rate_le hm).trans (by decide))
      obtain rfl : u = { s with a := a, buf := buf } := by simpa [hu] using hf
      exact ⟨hlen, hrate, fun k hk hk' => (habove k hk).trans (hzero k hk hk')⟩
    scalar_unused := by
      rintro (hperm | ⟨-, hsrc⟩)
      · simp [hm] at hperm
      · exact (hstate hsrc).2
    lanes_unused := by simp [hm]
    absorbing := by simp
    hash_fill := by simp
    perm_fill := by simp
    red_fill := by simp
    out_read := fun _ => ⟨rfl, Nat.zero_le _, hn⟩
    out_scalar := fun _ hsrc => hscalar hsrc
    out_len := fun _ => ⟨fun _ hsrc => (hstate hsrc).1, by simp [hm], by simp [hm]⟩ }

theorem finHash (h : Inv s) (hp : s.phase = .absorb) (hm : s.mode = .hash) {a : Lanes} {buf : Vector Byte 144}
    (hf : finishSponge s = .ok { s with a := a, buf := buf }) :
    Inv ((State.present { s with a := a, buf := buf } (s.len.setWidth 8) .state).respond 0#16) := by
  obtain ⟨hlen, -, -⟩ := h.hash_len hm
  obtain ⟨hosrc, -, -⟩ := h.absorbing hp
  have holen : (s.len.setWidth 8).toNat = s.len.toNat := by
    have := le_200_of_mem_validLengths hlen
    rw [BitVec.toNat_setWidth]
    omega
  have hsreg : s.sreg = zeroScalar := h.scalar_unused (.inr ⟨hm, hosrc⟩)
  exact h.finished_hash (src := .state) hp hm hf (holen ▸ hlen) (fun _ => ⟨holen, hsreg⟩) nofun 0#16

theorem finr (h : Inv s) (hp : s.phase = .absorb) (hm : s.mode = .hash) {a : Lanes} {buf : Vector Byte 144}
    (hf : finishSponge s = .ok { s with a := a, buf := buf }) :
    Inv (((State.loadDigest { s with a := a, buf := buf }).runReduce.present 32#8 .scalar).respond 0#16) :=
  h.finished_hash (src := .scalar) hp hm hf (by decide) nofun (fun _ => ⟨rfl, scalarNat_reduceModL_lt _⟩) 0#16

theorem finPerm (h : Inv s) (hp : s.phase = .absorb) (hm : s.mode = .perm) :
    Inv ((s.runPermute.present 200#8 .state).respond 0#16) :=
  { h with
    response := responseForm_respond _ _
    cause_iff := by simp [h.cause_eq_none, hp]
    idle_iff := by simp [hm]
    no_call := by simp [hm]
    scalar_unused := fun _ => h.scalar_unused (.inl hm)
    lanes_unused := by simp [hm]
    absorbing := by simp
    hash_fill := by simp
    perm_fill := by simp
    red_fill := by simp
    out_read := fun _ => ⟨rfl, Nat.zero_le _, by simp [validLengths]⟩
    out_scalar := by simp
    out_len := by simp [hm] }

theorem finRed (h : Inv s) (hp : s.phase = .absorb) (hm : s.mode = .red) :
    Inv ((s.runReduce.present 32#8 .scalar).respond 0#16) :=
  { h with
    response := responseForm_respond _ _
    cause_iff := by simp [h.cause_eq_none, hp]
    idle_iff := by simp [hm]
    no_call := by simp [hm]
    scalar_unused := by simp [hm]
    absorbing := by simp
    hash_fill := by simp
    perm_fill := by simp
    red_fill := by simp
    out_read := fun _ => ⟨rfl, Nat.zero_le _, by simp [validLengths]⟩
    out_scalar := fun _ _ => ⟨rfl, scalarNat_reduceModL_lt _⟩
    out_len := by simp [hm] }

/-! ## `POP` -/

/-- A byte that is left is one `OPTR` may advance over (R40 (e)). -/
theorem pop (h : Inv s) (hp : s.phase = .out) (hleft : s.optr ≠ s.olen) (data : Half) :
    Inv (State.respond { s with optr := s.optr + 1#8 } data) :=
  { h with
    response := responseForm_respond _ _
    no_call := fun hm => by
      have hidle := (h.idle_iff (by simp [hp])).mpr hm
      simp [hp] at hidle
    absorbing := by simp [hp]
    out_read := fun _ => by
      obtain ⟨hfill, hread, holen⟩ := h.out_read hp
      have hnext : (s.optr + 1#8).toNat ≤ s.olen.toNat := by bv_omega
      exact ⟨hfill, hnext, holen⟩ }

/-! ## Commands and steps -/

/-- A successful command keeps the invariant. -/
theorem completes (h : Inv s) {i : Instr} {t : State} (hdone : Completes s i t) : Inv t := by
  cases hdone with
  | nop => exact h.respond _
  | hstart hp hlen => exact h.hstart hp hlen
  | pstart hp => exact h.pstart hp
  | rstart hp => exact h.rstart hp
  | pushHash hp hm hw hroom => exact h.pushHash hp hm hw hroom
  | pushHashFull hp hm hw => exact h.pushHashFull hp hm hw _
  | pushPerm hp hm hroom hw => exact h.pushPerm hp hm hroom hw
  | pushRed hp hm hroom hw => exact h.pushRed hp hm hroom hw
  | finHash hp hm hf => exact h.finHash hp hm hf
  | finPerm hp hm => exact h.finPerm hp hm
  | finRed hp hm => exact h.finRed hp hm
  | finr hp hm _ hf => exact h.finr hp hm hf
  | pop hp hleft => exact h.pop hp hleft _
  | stat value => exact h.respond value
  | endCall hp => exact h.scrub (by simp [hp]) _

theorem exec (h : Inv s) {i : Instr} {t : State} (ht : Machine.exec i s = .next t) : Inv t := by
  rcases exec_outcomes ht with ⟨-, rfl⟩ | ⟨-, c, hc, rfl⟩ | hdone
  · exact h.respond _
  · exact h.raiseMisuse hc
  · exact h.completes hdone

/-- Any word accepted, legal or not, keeps the invariant (R75, R178). -/
theorem accept (h : Inv s) {w : Word} {t : State} (ht : Machine.accept w s = .next t) : Inv t := by
  rcases accept_cases w s with ⟨i, -, heq⟩ | ⟨e, -, heq⟩
  · exact h.exec (heq ▸ ht)
  · rcases execIllegal_next (heq ▸ ht) with ⟨-, rfl⟩ | ⟨-, rfl⟩
    · exact h.respond _
    · exact h.raiseMisuse (by decide)

theorem step (h : Inv s) {t : State} (ht : Machine.step s = .next t) : Inv t := by
  rcases step_cases ht with ⟨-, ⟨⟩⟩ | ⟨p, rest, -, hmoment⟩
  · exact h
  · rcases hmoment with ⟨-, ⟨⟩⟩ | ⟨-, -, -, ⟨⟩⟩ | ⟨-, -, -, ⟨⟩⟩ | ⟨-, -, -, ⟨⟩⟩ | ⟨-, -, w, -, haccept⟩
    · exact reset rest
    · exact h.channel (responseForm_none _) rest
    · exact h.inputs rest
    · exact h.inputs rest
    · exact (h.inputs rest).accept haccept.symm

end Inv

/-- Settles O11: by cases on what a step can do, each command by the lemma that names the clauses it touches. -/
theorem stepKeepsInvariant : Obligations.StepKeepsInvariant :=
  fun _ _ h ht => h.step ht

/-- Settles O12: the reset state with nothing to come from the host. -/
theorem resetMeetsInvariant : Obligations.ResetMeetsInvariant :=
  Inv.reset []

/-- Settles O14: outside `FAULT` the clauses of a state without a call fix every register. -/
theorem idleMeansResetRegisters : Obligations.IdleMeansResetRegisters :=
  fun _ h hp => h.eq_reset_of_idle hp

end Sys2Proof
end

section
/-! SUPPORT. From a state that meets the between-command invariant every command answers a next state: the invariant
bounds each store index a command uses (20_memory.md R59) and gives a call its mode (43_call_control.md R178). -/

namespace Sys2Proof

open Machine

/-! ## The guards and the chain of store operations -/

theorem exists_unlessFault_next {s : State} {go : Out} (h : s.phase ≠ .fault → ∃ t, go = .next t) :
    ∃ t, unlessFault s go = .next t := by
  by_cases hp : s.phase = .fault
  · exact ⟨_, unlessFault_of_fault hp go⟩
  · rw [unlessFault_of_ne hp]
    exact h hp

theorem exists_requirePhase_next {s : State} {p : Phase} {go : Out} (h : s.phase = p → ∃ t, go = .next t) :
    ∃ t, requirePhase s p go = .next t := by
  by_cases hp : s.phase = p
  · rw [requirePhase_of_eq hp]
    exact h hp
  · exact ⟨_, requirePhase_of_ne hp go⟩

/-- Checks 0 and 2 of R212 always answer, so a command with a phase need only answer in that phase. -/
theorem exists_guarded_next {s : State} {p : Phase} {go : Out} (h : s.phase = p → ∃ t, go = .next t) :
    ∃ t, unlessFault s (requirePhase s p go) = .next t :=
  exists_unlessFault_next fun _ => exists_requirePhase_next h

theorem exists_complete_next {r : Except Fault State} (h : ∃ u, r = .ok u) : ∃ t, complete r = .next t := by
  obtain ⟨u, rfl⟩ := h
  exact ⟨_, complete_ok u⟩

/-- Add one operation in front of a chain of store operations. -/
theorem exists_bind_ok {x : Except Fault State} {f : State → Except Fault State} (hx : ∃ u, x = .ok u)
    (hf : ∀ u, x = .ok u → ∃ v, f u = .ok v) : ∃ v, (x >>= f) = .ok v := by
  obtain ⟨u, rfl⟩ := hx
  exact hf u rfl

/-- A command whose one fallible operation is a byte write answers when the index is inside the store (R59). -/
theorem exists_complete_writeByte_next {s : State} {S : Store} {k : Nat} (b : Byte) (hk : k < S.size)
    (f : State → State) : ∃ t, complete (s.writeByte S k b >>= fun u => .ok (f u)) = .next t :=
  exists_complete_next (exists_bind_ok ((writeByte_ok_iff s S k b).mpr hk) fun u _ => ⟨f u, rfl⟩)

/-! ## Commands that use no store index -/

theorem exists_execNop_next (s : State) : ∃ t, execNop s = .next t :=
  exists_unlessFault_next fun _ => ⟨_, complete_ok s⟩

theorem exists_execHstart_next (len : Int) (s : State) : ∃ t, execHstart len s = .next t :=
  exists_guarded_next fun _ => by
    cases checkLength len with
    | none => exact ⟨_, complete_ok _⟩
    | some c => exact ⟨s.raiseMisuse c, rfl⟩

theorem exists_execPstart_next (s : State) : ∃ t, execPstart s = .next t :=
  exists_guarded_next fun _ => ⟨_, complete_ok _⟩

theorem exists_execRstart_next (s : State) : ∃ t, execRstart s = .next t :=
  exists_guarded_next fun _ => ⟨_, complete_ok _⟩

theorem exists_finPerm_next (s : State) : ∃ t, finPerm s = .next t := by
  unfold finPerm
  split
  · exact ⟨_, rfl⟩
  · exact ⟨_, complete_ok _⟩

theorem exists_finRed_next (s : State) : ∃ t, finRed s = .next t := by
  unfold finRed
  split
  · exact ⟨_, rfl⟩
  · exact ⟨_, complete_ok _⟩

theorem exists_answerStat_next (s : State) (value : Half) : ∃ t, answerStat s value = .next t := ⟨_, rfl⟩

theorem exists_execEndCall_next (s : State) : ∃ t, execEndCall s = .next t :=
  exists_guarded_next fun _ => ⟨_, complete_ok _⟩

theorem exists_execIllegal_next (s : State) : ∃ t, execIllegal s = .next t :=
  exists_unlessFault_next fun _ => ⟨_, rfl⟩

namespace Inv

variable {s : State}

/-! ## `PUSH` -/

/-- A call that takes input has a mode (R40 (a), R178). -/
theorem mode_ne_none_of_absorb (h : Inv s) (hp : s.phase = .absorb) : s.mode ≠ .none := by
  intro hm
  have hidle := (h.idle_iff (by simp [hp])).mpr hm
  simp [hp] at hidle

/-- `FILL` is below `RATE`, which fits `BUF`; absorbing the block reads `BUF` below `RATE` only (R60, R114, R115). -/
theorem exists_pushHash_next (h : Inv s) (hp : s.phase = .absorb) (hm : s.mode = .hash) (b : Byte) :
    ∃ t, Machine.pushHash b s = .next t := by
  have hrate : s.rate.toNat ≤ 136 := h.rate_le hm
  have hfill : s.fill.toNat < 144 := by
    have := h.hash_fill hp hm
    omega
  refine exists_complete_next (exists_bind_ok ⟨_, writeByte_buf s b hfill⟩ fun u hw => ?_)
  rw [writeByte_buf_frame hw]
  dsimp only
  split
  · exact exists_bind_ok ⟨_, absorbBlock_eq _ (hrate.trans (by decide))⟩ fun v _ => ⟨_, rfl⟩
  · exact ⟨_, rfl⟩

theorem exists_pushPerm_next (h : Inv s) (hp : s.phase = .absorb) (hm : s.mode = .perm) (b : Byte) :
    ∃ t, Machine.pushPerm b s = .next t := by
  unfold Machine.pushPerm
  split
  · exact ⟨_, rfl⟩
  · rename_i hroom
    obtain ⟨hle, -⟩ := h.perm_fill hp hm
    have hlt : s.fill.toNat < 200 := by bv_omega
    exact exists_complete_writeByte_next (S := .st) b hlt _

theorem exists_pushRed_next (h : Inv s) (hp : s.phase = .absorb) (hm : s.mode = .red) (b : Byte) :
    ∃ t, Machine.pushRed b s = .next t := by
  unfold Machine.pushRed
  split
  · exact ⟨_, rfl⟩
  · rename_i hroom
    obtain ⟨hle, -⟩ := h.red_fill hp hm
    have hlt : s.fill.toNat < 32 := by bv_omega
    exact exists_complete_writeByte_next (S := .sreg) b hlt _

theorem exists_execPush_next (h : Inv s) (b : Byte) : ∃ t, execPush b s = .next t :=
  exists_guarded_next fun hp => by
    cases hm : s.mode with
    | none => exact absurd hm (h.mode_ne_none_of_absorb hp)
    | hash => exact h.exists_pushHash_next hp hm b
    | perm => exact h.exists_pushPerm_next hp hm b
    | red => exact h.exists_pushRed_next hp hm b

/-! ## FIN-type commands -/

/-- Padding and absorbing the final block stay inside `BUF` (R60, R116). -/
theorem exists_finishSponge_ok (h : Inv s) (hp : s.phase = .absorb) (hm : s.mode = .hash) :
    ∃ u, finishSponge s = .ok u := by
  obtain ⟨u, hu, -⟩ := finishSponge_spec s (h.hash_fill hp hm) ((h.rate_le hm).trans (by decide))
  exact ⟨u, hu⟩

theorem exists_finHash_next (h : Inv s) (hp : s.phase = .absorb) (hm : s.mode = .hash) :
    ∃ t, Machine.finHash s = .next t :=
  exists_complete_next (exists_bind_ok (h.exists_finishSponge_ok hp hm) fun _ _ => ⟨_, rfl⟩)

theorem exists_execFin_next (h : Inv s) : ∃ t, execFin s = .next t :=
  exists_guarded_next fun hp => by
    cases hm : s.mode with
    | none => exact absurd hm (h.mode_ne_none_of_absorb hp)
    | hash => exact h.exists_finHash_next hp hm
    | perm => exact exists_finPerm_next s
    | red => exact exists_finRed_next s

theorem exists_execFinr_next (h : Inv s) : ∃ t, execFinr s = .next t :=
  exists_guarded_next fun hp => by
    by_cases hm : s.mode = .hash
    · by_cases hlen : s.len = 32#16
      · rw [if_neg (not_not.mpr hm), if_neg (not_not.mpr hlen)]
        exact exists_complete_next (exists_bind_ok (h.exists_finishSponge_ok hp hm) fun _ _ => ⟨_, rfl⟩)
      · rw [if_neg (not_not.mpr hm), if_pos hlen]
        exact ⟨_, rfl⟩
    · rw [if_pos hm]
      exact ⟨_, rfl⟩

/-! ## `POP` -/

/-- A result is no longer than the store it is read from: at most 200 bytes of `ST`, 32 of `SREG` (R33, R40 (e)). -/
theorem olen_le_size (h : Inv s) (hp : s.phase = .out) : s.olen.toNat ≤ s.osrc.store.size := by
  cases hsrc : s.osrc with
  | state =>
    obtain ⟨-, -, holen⟩ := h.out_read hp
    exact le_200_of_mem_validLengths holen
  | scalar =>
    obtain ⟨holen, -⟩ := h.out_scalar hp hsrc
    simp [holen, Source.store, Store.size]

theorem exists_execPop_next (h : Inv s) : ∃ t, execPop s = .next t :=
  exists_guarded_next fun hp => by
    by_cases hend : s.optr = s.olen
    · rw [if_pos hend]
      exact ⟨_, rfl⟩
    · obtain ⟨-, hread, -⟩ := h.out_read hp
      have hsize := h.olen_le_size hp
      have hindex : s.optr.toNat < s.osrc.store.size := by bv_omega
      obtain ⟨d, hd⟩ := Option.isSome_iff_exists.mp ((byte?_isSome s s.osrc.store s.optr.toNat).mpr hindex)
      rw [if_neg hend, readByte_of_byte? hd]
      exact ⟨_, rfl⟩

/-! ## Commands and steps -/

theorem exists_exec_next (h : Inv s) (i : Instr) : ∃ t, Machine.exec i s = .next t := by
  cases i with
  | nop => exact exists_execNop_next s
  | hstart len => exact exists_execHstart_next len s
  | pstart => exact exists_execPstart_next s
  | rstart => exact exists_execRstart_next s
  | push b => exact h.exists_execPush_next b
  | fin => exact h.exists_execFin_next
  | finr => exact h.exists_execFinr_next
  | pop => exact h.exists_execPop_next
  | statStatus => exact exists_answerStat_next s _
  | statCause => exact exists_answerStat_next s _
  | statLen => exact exists_answerStat_next s _
  | statRate => exact exists_answerStat_next s _
  | statFill => exact exists_answerStat_next s _
  | statOutp => exact exists_answerStat_next s _
  | statId => exact exists_answerStat_next s _
  | endCall => exact exists_execEndCall_next s

/-- Any word accepted, legal or not, has a next state (R75, R178). -/
theorem exists_accept_next (h : Inv s) (w : Word) : ∃ t, Machine.accept w s = .next t := by
  rcases accept_cases w s with ⟨i, -, heq⟩ | ⟨e, -, heq⟩
  · exact heq ▸ h.exists_exec_next i
  · exact heq ▸ exists_execIllegal_next s

theorem exists_step_next (h : Inv s) : ∃ t, Machine.step s = .next t := by
  rcases step_cases (s := s) rfl with ⟨-, hstay⟩ | ⟨p, rest, -, hmoment⟩
  · exact ⟨_, hstay⟩
  · rcases hmoment with ⟨-, hreset⟩ | ⟨-, -, -, htaken⟩ | ⟨-, -, -, hkept⟩ | ⟨-, -, -, hquiet⟩ | ⟨-, -, w, -, haccept⟩
    · exact ⟨_, hreset⟩
    · exact ⟨_, htaken⟩
    · exact ⟨_, hkept⟩
    · exact ⟨_, hquiet⟩
    · exact haccept ▸ (h.inputs rest).exists_accept_next w

end Inv

/-- Settles O13: by cases on what a step can do, each command by the clause that bounds the store index it uses. -/
theorem invariantStatesProgress : Obligations.InvariantStatesProgress :=
  fun _ h => h.exists_step_next

end Sys2Proof
end

section
/-! SUPPORT. The decoder against the encoder (30_encoding.md R71 to R76, R82). One equivalence, `decode_eq_ok_iff`, says which
command a word decodes to; the round trip, its converse and the count of the legal words are read off it. -/

namespace Sys2Proof

open Machine

/-! ## The fields of a command word -/

@[simp] theorem opcField_commandWord (opc : Byte) (imm : Half) : opcField (commandWord opc imm) = opc := by
  rw [opcField, commandWord, BitVec.extractLsb'_append_eq_of_le (by decide), BitVec.extractLsb'_append_eq_left]

@[simp] theorem immField_commandWord (opc : Byte) (imm : Half) : immField (commandWord opc imm) = imm :=
  BitVec.extractLsb'_append_eq_right

/-- A word is its three fields (R71). -/
theorem commandWord_fields {w : Word} (hz : zField w = 0#8) : commandWord (opcField w) (immField w) = w := by
  have hhigh : opcField w ++ zField w = w.extractLsb' 16 16 := BitVec.extractLsb'_append_extractLsb'_eq_extractLsb' rfl
  rw [commandWord, ← hz, hhigh]
  exact BitVec.extractLsb'_append_extractLsb'

theorem decode_commandWord (opc : Byte) (imm : Half) : decode (commandWord opc imm) = decodeOpcode opc imm := by
  rw [decode, if_pos (Laws.EncodedZ.zField_commandWord opc imm), opcField_commandWord, immField_commandWord]

/-! ## The readings of the immediate -/

theorem lengthImm_immLength (imm : Half) : lengthImm (immLength imm) = imm := BitVec.ofInt_toInt

/-- The lengths that fit the field are read back (R72 (a)). -/
theorem immLength_lengthImm {len : Int} (hlow : -32768 ≤ len) (hhigh : len ≤ 32767) :
    immLength (lengthImm len) = len :=
  BitVec.toInt_ofInt_eq_self (by decide) hlow (Int.lt_add_one_of_le hhigh)

theorem immLength_bounds (imm : Half) : -32768 ≤ immLength imm ∧ immLength imm ≤ 32767 :=
  ⟨BitVec.le_toInt imm, BitVec.toInt_le⟩

theorem immByte_setWidth (b : Byte) : immByte (b.setWidth 16) = b := by
  rw [immByte, BitVec.extractLsb'_setWidth_of_le (by decide), BitVec.extractLsb'_eq_self]

/-- The byte of `PUSH` is a reading without loss exactly when the high byte of the immediate is zero (R72 (b)). -/
theorem immHighByte_eq_zero_iff (imm : Half) : immHighByte imm = 0#8 ↔ imm.toNat ≤ 0x00FF := by
  rw [← BitVec.toNat_inj, immHighByte, BitVec.extractLsb'_toNat, Nat.shiftRight_eq_div_pow]
  simp only [BitVec.toNat_ofNat]
  omega

theorem setWidth_immByte {imm : Half} (h : immHighByte imm = 0#8) : (immByte imm).setWidth 16 = imm := by
  have hle := (immHighByte_eq_zero_iff imm).mp h
  apply BitVec.eq_of_toNat_eq
  rw [immByte, BitVec.toNat_setWidth, BitVec.extractLsb'_toNat, Nat.shiftRight_zero]
  omega

/-! ## Which command the fields stand for -/

/-- The command `i` can be encoded, and `opc` and `imm` are its fields (R72, R73). -/
def HasFields (i : Instr) (opc : Byte) (imm : Half) : Prop :=
  i.wf = true ∧ opcodeOf i = opc ∧ immediateOf i = imm

theorem decodePlain_hasFields {i j : Instr} {opc : Byte} {imm : Half} (hwf : j.wf = true)
    (himm : immediateOf j = 0#16) (h : decodePlain j imm = .ok i) (hopc : opc.toNat = (opcodeOf j).toNat) :
    HasFields i opc imm := by
  unfold decodePlain at h
  split at h
  · cases h
    exact ⟨hwf, BitVec.eq_of_toNat_eq hopc.symm, himm.trans (Eq.symm ‹_›)⟩
  · cases h

theorem decodePush_hasFields {i : Instr} {opc : Byte} {imm : Half} (hopc : opc.toNat = 0x04)
    (h : decodePush imm = .ok i) : HasFields i opc imm := by
  unfold decodePush at h
  split at h
  · cases h
    exact ⟨rfl, BitVec.eq_of_toNat_eq hopc.symm, setWidth_immByte ‹_›⟩
  · cases h

theorem decodeStat_hasFields {i : Instr} {opc : Byte} {imm : Half} (hopc : opc.toNat = 0x08)
    (h : decodeStat imm = .ok i) : HasFields i opc imm := by
  unfold decodeStat at h
  split at h <;> cases h
  all_goals
    rename_i hsel
    exact ⟨rfl, BitVec.eq_of_toNat_eq hopc.symm, BitVec.eq_of_toNat_eq hsel.symm⟩

/-- The decoder reads only commands with the fields it was given (R73). -/
theorem decodeOpcode_hasFields {i : Instr} {opc : Byte} {imm : Half} (h : decodeOpcode opc imm = .ok i) :
    HasFields i opc imm := by
  unfold decodeOpcode at h
  split at h
  next hopc => exact decodePlain_hasFields rfl rfl h hopc
  next hopc =>
    cases h
    exact ⟨decide_eq_true (immLength_bounds imm), BitVec.eq_of_toNat_eq hopc.symm, lengthImm_immLength imm⟩
  next hopc => exact decodePlain_hasFields rfl rfl h hopc
  next hopc => exact decodePlain_hasFields rfl rfl h hopc
  next hopc => exact decodePush_hasFields hopc h
  next hopc => exact decodePlain_hasFields rfl rfl h hopc
  next hopc => exact decodePlain_hasFields rfl rfl h hopc
  next hopc => exact decodePlain_hasFields rfl rfl h hopc
  next hopc => exact decodeStat_hasFields hopc h
  next hopc => exact decodePlain_hasFields rfl rfl h hopc
  next => cases h

theorem decodeOpcode_hstart {len : Int} (hwf : (Instr.hstart len).wf = true) :
    decodeOpcode 0x01#8 (lengthImm len) = .ok (.hstart len) := by
  obtain ⟨hlow, hhigh⟩ := of_decide_eq_true hwf
  exact congrArg (fun n => Except.ok (Instr.hstart n)) (immLength_lengthImm hlow hhigh)

theorem decodeOpcode_push (b : Byte) : decodeOpcode 0x04#8 (b.setWidth 16) = .ok (.push b) := by
  have hhigh : immHighByte (b.setWidth 16) = 0#8 := by
    rw [immHighByte_eq_zero_iff, BitVec.toNat_setWidth]
    omega
  change decodePush (b.setWidth 16) = _
  rw [decodePush, if_pos hhigh, immByte_setWidth]

/-- Each command that can be encoded is read from its own fields (R73). -/
theorem decodeOpcode_of_wf {i : Instr} (hwf : i.wf = true) : decodeOpcode (opcodeOf i) (immediateOf i) = .ok i := by
  cases i with
  | hstart len => exact decodeOpcode_hstart hwf
  | push b => exact decodeOpcode_push b
  | nop | pstart | rstart | fin | finr | pop | endCall => rfl
  | statStatus | statCause | statLen | statRate | statFill | statOutp | statId => rfl

/-- Everything the decoder accepts: a word is read as the command `i` exactly when it is the word of `i` and the operand of
`i` fits its field (R76, R82). -/
theorem decode_eq_ok_iff (w : Word) (i : Instr) : decode w = .ok i ↔ i.wf = true ∧ encode i = w := by
  constructor
  · intro h
    unfold decode at h
    split at h
    next hz =>
      obtain ⟨hwf, hopc, himm⟩ := decodeOpcode_hasFields h
      exact ⟨hwf, by rw [encode, hopc, himm, commandWord_fields hz]⟩
    next => cases h
  · rintro ⟨hwf, rfl⟩
    rw [encode, decode_commandWord, decodeOpcode_of_wf hwf]

/-- Settles O1: the word of a command has the command's fields, from which the decoder reads it back. -/
theorem decodeEncodeRoundTrip : Obligations.DecodeEncodeRoundTrip :=
  fun i hwf => (decode_eq_ok_iff (encode i) i).mpr ⟨hwf, rfl⟩

/-- Settles O2: the decoder reads only commands with the word's own fields, and the fields make up the word. -/
theorem decodedWordIsItsEncoding : Obligations.DecodedWordIsItsEncoding :=
  fun w i h => (decode_eq_ok_iff w i).mp h

theorem encode_inj_of_wf {i j : Instr} (hi : i.wf = true) (hj : j.wf = true) (h : encode i = encode j) : i = j := by
  have hdecode := decodeEncodeRoundTrip i hi
  rw [h, decodeEncodeRoundTrip j hj] at hdecode
  exact (Except.ok.inj hdecode).symm

/-- Settles O4: each word is evaluated by the decode procedure. -/
theorem workedExamplesDecode : Obligations.WorkedExamplesDecode := by
  refine ⟨rfl, rfl, rfl, rfl, rfl, rfl, fun w hw => ?_⟩
  simp only [List.mem_cons, List.not_mem_nil, or_false] at hw
  rcases hw with rfl | rfl | rfl | rfl | rfl <;> exact ⟨_, rfl⟩

/-! ## The legal words -/

/-- The condition of R74 on `OPC` and `IMM`; `legalWord` adds `Z` = 0. -/
def LegalFields (opc : Byte) (imm : Half) : Prop :=
  (opc ∈ [0x00#8, 0x02#8, 0x03#8, 0x05#8, 0x06#8, 0x07#8, 0x09#8] ∧ imm = 0#16) ∨ opc = 0x01#8 ∨
    (opc = 0x04#8 ∧ imm.toNat ≤ 0x00FF) ∨ (opc = 0x08#8 ∧ imm.toNat ≤ 0x0006)

theorem legalWord_iff (w : Word) : legalWord w ↔ zField w = 0#8 ∧ LegalFields (opcField w) (immField w) := Iff.rfl

theorem legalWord_commandWord_iff (opc : Byte) (imm : Half) :
    legalWord (commandWord opc imm) ↔ LegalFields opc imm := by
  rw [legalWord_iff, opcField_commandWord, immField_commandWord]
  exact and_iff_right (Laws.EncodedZ.zField_commandWord opc imm)

/-- Every command has the fields of a legal word, whatever its operand: `HSTART` takes any immediate (R74). -/
theorem legalFields_of_instr (i : Instr) : LegalFields (opcodeOf i) (immediateOf i) := by
  cases i with
  | nop | pstart | rstart | fin | finr | pop | endCall => exact .inl ⟨by decide, rfl⟩
  | hstart len => exact .inr (.inl rfl)
  | push b =>
    have hb := b.isLt
    refine .inr (.inr (.inl ⟨rfl, ?_⟩))
    rw [immediateOf, BitVec.toNat_setWidth]
    omega
  | statStatus | statCause | statLen | statRate | statFill | statOutp | statId =>
    exact .inr (.inr (.inr ⟨rfl, by decide⟩))

theorem legalWord_encode (i : Instr) : legalWord (encode i) :=
  (legalWord_commandWord_iff _ _).mpr (legalFields_of_instr i)

theorem exists_decodeStat_ok {imm : Half} (h : imm.toNat ≤ 6) : ∃ i, decodeStat imm = .ok i := by
  obtain ⟨n, hn, rfl⟩ : ∃ n ≤ 6, imm = BitVec.ofNat 16 n := ⟨imm.toNat, h, by simp⟩
  interval_cases n <;> exact ⟨_, rfl⟩

theorem exists_decodeOpcode_ok {opc : Byte} {imm : Half} (h : LegalFields opc imm) :
    ∃ i, decodeOpcode opc imm = .ok i := by
  rcases h with ⟨hopc, rfl⟩ | rfl | ⟨rfl, himm⟩ | ⟨rfl, himm⟩
  · simp only [List.mem_cons, List.not_mem_nil, or_false] at hopc
    rcases hopc with rfl | rfl | rfl | rfl | rfl | rfl | rfl <;> exact ⟨_, rfl⟩
  · exact ⟨_, rfl⟩
  · exact ⟨_, if_pos ((immHighByte_eq_zero_iff imm).mpr himm)⟩
  · exact exists_decodeStat_ok himm

/-- The decoder accepts exactly the legal words (R74). -/
theorem legalWord_iff_exists_decode_ok (w : Word) : legalWord w ↔ ∃ i, decode w = .ok i := by
  constructor
  · rintro ⟨hz, hfields⟩
    rw [← commandWord_fields hz, decode_commandWord]
    exact exists_decodeOpcode_ok hfields
  · rintro ⟨i, h⟩
    obtain ⟨-, rfl⟩ := (decode_eq_ok_iff w i).mp h
    exact legalWord_encode i

theorem not_legalWord_iff_exists_decode_error (w : Word) : ¬ legalWord w ↔ ∃ e, decode w = .error e := by
  rw [legalWord_iff_exists_decode_ok]
  cases decode w <;> simp

/-! ## Counting the legal words -/

/-- The commands without operand. -/
def plainInstrs : List Instr := [.nop, .pstart, .rstart, .fin, .finr, .pop, .endCall]

/-- `HSTART` with each of the 2^16 lengths. -/
def hstartInstrs : List Instr := (List.finRange (2 ^ 16)).map fun n => .hstart (immLength (BitVec.ofFin n))

/-- `PUSH` with each of the 2^8 bytes. -/
def pushInstrs : List Instr := (List.finRange (2 ^ 8)).map fun n => .push (BitVec.ofFin n)

/-- `STAT` with each of the seven selectors. -/
def statInstrs : List Instr := [.statStatus, .statCause, .statLen, .statRate, .statFill, .statOutp, .statId]

/-- Every command that can be encoded. -/
def encodableInstrs : List Instr := hstartInstrs ++ (pushInstrs ++ (plainInstrs ++ statInstrs))

theorem length_hstartInstrs : hstartInstrs.length = 2 ^ 16 := by rw [hstartInstrs, List.length_map, List.length_finRange]

theorem length_pushInstrs : pushInstrs.length = 2 ^ 8 := by rw [pushInstrs, List.length_map, List.length_finRange]

theorem length_encodableInstrs : encodableInstrs.length = 65806 :=
  calc encodableInstrs.length
    _ = hstartInstrs.length + (pushInstrs.length + (plainInstrs.length + statInstrs.length)) := by
      simp only [encodableInstrs, List.length_append]
    _ = 2 ^ 16 + (2 ^ 8 + (7 + 7)) := by
      rw [length_hstartInstrs, length_pushInstrs]
      rfl

theorem mem_hstartInstrs_iff (i : Instr) : i ∈ hstartInstrs ↔ ∃ imm, i = .hstart (immLength imm) := by
  simp only [hstartInstrs, List.mem_map, List.mem_finRange, true_and]
  exact ⟨fun ⟨n, h⟩ => ⟨.ofFin n, h.symm⟩, fun ⟨imm, h⟩ => ⟨imm.toFin, h.symm⟩⟩

theorem mem_pushInstrs_iff (i : Instr) : i ∈ pushInstrs ↔ ∃ b, i = .push b := by
  simp only [pushInstrs, List.mem_map, List.mem_finRange, true_and]
  exact ⟨fun ⟨n, h⟩ => ⟨.ofFin n, h.symm⟩, fun ⟨b, h⟩ => ⟨b.toFin, h.symm⟩⟩

theorem hstart_mem_hstartInstrs_iff (len : Int) : .hstart len ∈ hstartInstrs ↔ (Instr.hstart len).wf = true := by
  rw [mem_hstartInstrs_iff]
  constructor
  · rintro ⟨imm, h⟩
    rw [h]
    exact decide_eq_true (immLength_bounds imm)
  · intro hwf
    obtain ⟨hlow, hhigh⟩ := of_decide_eq_true hwf
    exact ⟨lengthImm len, by rw [immLength_lengthImm hlow hhigh]⟩

theorem mem_encodableInstrs_iff (i : Instr) : i ∈ encodableInstrs ↔ i.wf = true := by
  simp only [encodableInstrs, List.mem_append]
  cases i with
  | hstart len => simp [plainInstrs, statInstrs, mem_pushInstrs_iff, hstart_mem_hstartInstrs_iff]
  | push b => simp [mem_pushInstrs_iff, Instr.wf]
  | nop | pstart | rstart | fin | finr | pop | endCall => simp [plainInstrs, Instr.wf]
  | statStatus | statCause | statLen | statRate | statFill | statOutp | statId => simp [statInstrs, Instr.wf]

theorem nodup_hstartInstrs : hstartInstrs.Nodup := by
  refine (List.nodup_finRange _).map fun m n h => ?_
  exact BitVec.ofFin.inj (BitVec.toInt_inj.mp (Instr.hstart.inj h))

theorem nodup_pushInstrs : pushInstrs.Nodup :=
  (List.nodup_finRange _).map fun _ _ h => BitVec.ofFin.inj (Instr.push.inj h)

theorem nodup_encodableInstrs : encodableInstrs.Nodup := by
  refine .append nodup_hstartInstrs (.append nodup_pushInstrs (by decide) ?_) ?_
  · intro i hpush hrest
    obtain ⟨b, rfl⟩ := (mem_pushInstrs_iff i).mp hpush
    simp [plainInstrs, statInstrs] at hrest
  · intro i hhstart hrest
    obtain ⟨imm, rfl⟩ := (mem_hstartInstrs_iff i).mp hhstart
    simp [mem_pushInstrs_iff, plainInstrs, statInstrs] at hrest

theorem nodup_map_encode : (encodableInstrs.map encode).Nodup :=
  nodup_encodableInstrs.map_on fun i hi j hj =>
    encode_inj_of_wf ((mem_encodableInstrs_iff i).mp hi) ((mem_encodableInstrs_iff j).mp hj)

theorem mem_map_encode_iff (w : Word) : w ∈ encodableInstrs.map encode ↔ legalWord w := by
  simp only [List.mem_map, mem_encodableInstrs_iff, legalWord_iff_exists_decode_ok, decode_eq_ok_iff]

/-- Settles O3: the legal words are those the decoder accepts, and they are listed as the words of the encodable commands. -/
theorem legalWordsAreTheDecodedOnes : Obligations.LegalWordsAreTheDecodedOnes :=
  ⟨legalWord_iff_exists_decode_ok, not_legalWord_iff_exists_decode_error, encodableInstrs.map encode, nodup_map_encode,
    List.length_map _ |>.trans length_encodableInstrs, mem_map_encode_iff⟩

end Sys2Proof
end

section
/-! SUPPORT. The acceptance of a word: an illegal one (30_encoding.md R75, 60_exceptions.md R207, R214) and the response every
accepted word leaves (R78, R79). -/

namespace Sys2Proof

open Machine

/-! ## Illegal words -/

/-- The response of a misuse fault as a number (R78, R213). -/
theorem rspWord_true_data (c : Cause) : rspWord true c.data = BitVec.ofNat 32 (0x80000000 + c.code.toNat) := by
  cases c <;> rfl

theorem raiseMisuse_eq_faulted (s : State) (c : Cause) : s.raiseMisuse c = faulted s c := by
  rw [raiseMisuse_eq, rspWord_true_data, faulted]

theorem dropped_of_fault {s : State} (hp : s.phase = .fault) :
    s.dropped = { s with rsp := some (BitVec.ofNat 32 (0x80000000 + s.cause.code.toNat)) } := by
  rw [dropped_eq, (flagF_eq_true s).mpr hp, rspWord_true_data]

theorem hostMoment_of_command {p : Pins} {s : State} {w : Word} (hrst : p.rst = false) (hrsp : s.rsp = none)
    (hcmd : p.cmd = some w) : hostMoment p s = accept w s := by
  simp [hostMoment, hrst, hrsp, hcmd]

theorem accept_of_not_legalWord {w : Word} (hw : ¬ legalWord w) (s : State) : accept w s = execIllegal s := by
  obtain ⟨e, he⟩ := (not_legalWord_iff_exists_decode_error w).mp hw
  simp only [accept, he]

theorem execIllegal_of_ne_fault {s : State} (hp : s.phase ≠ .fault) : execIllegal s = .next (faulted s .illegal) := by
  rw [execIllegal, unlessFault_of_ne hp, raiseMisuse_eq_faulted]

theorem execIllegal_of_fault {s : State} (hp : s.phase = .fault) :
    execIllegal s = .next { s with rsp := some (BitVec.ofNat 32 (0x80000000 + s.cause.code.toNat)) } := by
  rw [execIllegal, unlessFault_of_fault hp, dropped_of_fault hp]

/-- Settles O6: the word reaches `execIllegal` on the state whose moment has passed, whose phase is that of the state before. -/
theorem illegalWordFaultsOrIsDropped : Obligations.IllegalWordFaultsOrIsDropped := by
  intro s p rest w hin hrst hrsp hcmd hw
  have hstep : step s = execIllegal { s with inputs := rest } :=
    calc step s
      _ = hostMoment p { s with inputs := rest } := step_of_cons hin
      _ = accept w { s with inputs := rest } := hostMoment_of_command hrst hrsp hcmd
      _ = execIllegal { s with inputs := rest } := accept_of_not_legalWord hw _
  constructor
  · intro hp
    exact hstep.trans (execIllegal_of_ne_fault hp)
  · intro hp
    exact hstep.trans (execIllegal_of_fault hp)

/-! ## The response of an accepted word -/

theorem rspWord_data (f : Bool) (data : Half) : (rspWord f data).extractLsb' 0 16 = data :=
  BitVec.extractLsb'_append_eq_right

/-- `t` answers with the form of R78, `DATA` being `data`. -/
def AnswersWith (t : State) (data : Option Half) : Prop :=
  ∃ r, t.rsp = some r ∧ r.getLsbD 31 = decide (t.phase = .fault) ∧ r.extractLsb' 16 15 = 0#15 ∧
    some (r.extractLsb' 0 16) = data

theorem answersWith_respond (s : State) (data : Half) : AnswersWith (s.respond data) (some data) := by
  obtain ⟨hzero, hflag⟩ := responseForm_respond s data _ rfl
  exact ⟨_, rfl, hflag, hzero, congrArg some (rspWord_data s.flagF data)⟩

/-- `DATA` of a command that returns `data` where it succeeds: the cause where `PHASE` = `FAULT` after it (R79). -/
def dataUnlessFault (t : State) (data : Option Half) : Option Half :=
  if t.phase = .fault then some t.cause.data else data

theorem answers_dropped {s : State} (hp : s.phase = .fault) (data : Option Half) :
    AnswersWith s.dropped (dataUnlessFault s.dropped data) := by
  rw [dataUnlessFault, dropped_phase, if_pos hp]
  exact answersWith_respond s s.cause.data

theorem answers_raiseMisuse (s : State) (c : Cause) (data : Option Half) :
    AnswersWith (s.raiseMisuse c) (dataUnlessFault (s.raiseMisuse c) data) :=
  answersWith_respond { s with phase := .fault, cause := c } c.data

theorem answers_respond {s : State} (hp : s.phase ≠ .fault) (data : Half) :
    AnswersWith (s.respond data) (dataUnlessFault (s.respond data) (some data)) := by
  rw [dataUnlessFault, respond_phase, if_neg hp]
  exact answersWith_respond s data

/-- `t` answers with `DATA` = 0, or with the cause in `FAULT`: the last rows of the table of R79. -/
abbrev AnswersZero (t : State) : Prop := AnswersWith t (dataUnlessFault t (some 0#16))

section
variable {s t : State}

theorem execIllegal_answersZero (h : execIllegal s = .next t) : AnswersZero t := by
  rcases execIllegal_next h with ⟨hp, rfl⟩ | ⟨-, rfl⟩
  · exact answers_dropped hp _
  · exact answers_raiseMisuse s _ _

theorem execNop_answersZero (h : execNop s = .next t) : AnswersZero t := by
  rcases execNop_next h with ⟨hp, rfl⟩ | ⟨hp, rfl⟩
  · exact answers_dropped hp _
  · exact answers_respond hp _

theorem execHstart_answersZero {len : Int} (h : execHstart len s = .next t) : AnswersZero t := by
  rcases execHstart_next h with ⟨hp, rfl⟩ | ⟨-, -, rfl⟩ | ⟨-, c, -, rfl⟩ | ⟨-, -, rfl⟩
  · exact answers_dropped hp _
  · exact answers_raiseMisuse s _ _
  · exact answers_raiseMisuse s _ _
  · exact answers_respond (by simp) _

theorem execPstart_answersZero (h : execPstart s = .next t) : AnswersZero t := by
  rcases execPstart_next h with ⟨hp, rfl⟩ | ⟨-, -, rfl⟩ | ⟨-, rfl⟩
  · exact answers_dropped hp _
  · exact answers_raiseMisuse s _ _
  · exact answers_respond (by simp) _

theorem execRstart_answersZero (h : execRstart s = .next t) : AnswersZero t := by
  rcases execRstart_next h with ⟨hp, rfl⟩ | ⟨-, -, rfl⟩ | ⟨-, rfl⟩
  · exact answers_dropped hp _
  · exact answers_raiseMisuse s _ _
  · exact answers_respond (by simp) _

/-! The phase check admits `PUSH` in `ABSORB` only, and no store operation leaves that phase. -/

theorem writeByte_phase {u : State} {S : Store} {k : Nat} {b : Byte} (h : s.writeByte S k b = .ok u) :
    u.phase = s.phase := by
  cases S with
  | st => rw [writeByte_st_frame h]
  | buf => rw [writeByte_buf_frame h]
  | sreg => rw [writeByte_sreg_frame h]

theorem absorbBlock_phase {u : State} (h : absorbBlock s = .ok u) : u.phase = s.phase := by
  rw [absorbBlock_frame h]

theorem pushHash_answersZero {b : Byte} (hp : s.phase = .absorb) (h : pushHash b s = .next t) : AnswersZero t := by
  obtain ⟨u, hu, ⟨-, v, hv, rfl⟩ | ⟨-, rfl⟩⟩ := pushHash_next h
  · exact answers_respond (by simp [absorbBlock_phase hv, writeByte_phase hu, hp]) _
  · exact answers_respond (by simp [writeByte_phase hu, hp]) _

theorem pushPerm_answersZero {b : Byte} (hp : s.phase = .absorb) (h : pushPerm b s = .next t) : AnswersZero t := by
  rcases pushPerm_next h with ⟨-, rfl⟩ | ⟨-, u, hu, rfl⟩
  · exact answers_raiseMisuse s _ _
  · exact answers_respond (by simp [writeByte_phase hu, hp]) _

theorem pushRed_answersZero {b : Byte} (hp : s.phase = .absorb) (h : pushRed b s = .next t) : AnswersZero t := by
  rcases pushRed_next h with ⟨-, rfl⟩ | ⟨-, u, hu, rfl⟩
  · exact answers_raiseMisuse s _ _
  · exact answers_respond (by simp [writeByte_phase hu, hp]) _

theorem execPush_answersZero {b : Byte} (h : execPush b s = .next t) : AnswersZero t := by
  rcases execPush_next h with ⟨hp, rfl⟩ | ⟨-, -, rfl⟩ | ⟨hp, -, h⟩ | ⟨hp, -, h⟩ | ⟨hp, -, h⟩
  · exact answers_dropped hp _
  · exact answers_raiseMisuse s _ _
  · exact pushHash_answersZero hp h
  · exact pushPerm_answersZero hp h
  · exact pushRed_answersZero hp h

/-- A FIN-type command that succeeds answers in `OUT`. -/
theorem answersZero_present (u : State) (n : Byte) (src : Source) : AnswersZero ((u.present n src).respond 0#16) :=
  answers_respond (by simp) _

theorem finHash_answersZero (h : finHash s = .next t) : AnswersZero t := by
  obtain ⟨u, -, rfl⟩ := finHash_next h
  exact answersZero_present u _ _

theorem finPerm_answersZero (h : finPerm s = .next t) : AnswersZero t := by
  rcases finPerm_next h with ⟨-, rfl⟩ | ⟨-, rfl⟩
  · exact answers_raiseMisuse s _ _
  · exact answersZero_present _ _ _

theorem finRed_answersZero (h : finRed s = .next t) : AnswersZero t := by
  rcases finRed_next h with ⟨-, rfl⟩ | ⟨-, rfl⟩
  · exact answers_raiseMisuse s _ _
  · exact answersZero_present _ _ _

theorem execFin_answersZero (h : execFin s = .next t) : AnswersZero t := by
  rcases execFin_next h with ⟨hp, rfl⟩ | ⟨-, -, rfl⟩ | ⟨-, -, h⟩ | ⟨-, -, h⟩ | ⟨-, -, h⟩
  · exact answers_dropped hp _
  · exact answers_raiseMisuse s _ _
  · exact finHash_answersZero h
  · exact finPerm_answersZero h
  · exact finRed_answersZero h

theorem execFinr_answersZero (h : execFinr s = .next t) : AnswersZero t := by
  rcases execFinr_next h with ⟨hp, rfl⟩ | ⟨-, -, rfl⟩ | ⟨-, -, rfl⟩ | ⟨-, -, -, rfl⟩ | ⟨-, -, -, u, -, rfl⟩
  · exact answers_dropped hp _
  · exact answers_raiseMisuse s _ _
  · exact answers_raiseMisuse s _ _
  · exact answers_raiseMisuse s _ _
  · exact answersZero_present _ _ _

theorem execEndCall_answersZero (h : execEndCall s = .next t) : AnswersZero t := by
  rcases execEndCall_next h with ⟨hp, rfl⟩ | ⟨-, -, rfl⟩ | ⟨-, rfl⟩
  · exact answers_dropped hp _
  · exact answers_raiseMisuse s _ _
  · exact answers_respond (by simp) _

/-- `POP` returns the byte `OPTR` points at in the state before (R79, R175). -/
theorem execPop_answers (h : execPop s = .next t) :
    AnswersWith t (dataUnlessFault t ((s.byte? s.osrc.store s.optr.toNat).map fun b => b.setWidth 16)) := by
  rcases execPop_next h with ⟨hp, rfl⟩ | ⟨-, -, rfl⟩ | ⟨-, -, rfl⟩ | ⟨hp, -, d, hd, rfl⟩
  · exact answers_dropped hp _
  · exact answers_raiseMisuse s _ _
  · exact answers_raiseMisuse s _ _
  · rw [hd]
    exact answers_respond (by simp [hp]) _

/-- `STAT` returns its register in every phase (R79, R176). -/
theorem answerStat_answers {value : Half} (h : answerStat s value = .next t) : AnswersWith t (some value) := by
  obtain rfl := answerStat_next h
  exact answersWith_respond s value

end

/-- Settles O36: by cases on the word and its command; every answer is built by `respond`, which has the form of R78. -/
theorem responseWordForm : Obligations.ResponseWordForm := by
  intro w s t h
  rcases accept_cases w s with ⟨i, hdecode, haccept⟩ | ⟨e, hdecode, haccept⟩
  · rw [haccept] at h
    rw [hdecode]
    cases i with
    | nop => exact execNop_answersZero h
    | hstart len => exact execHstart_answersZero h
    | pstart => exact execPstart_answersZero h
    | rstart => exact execRstart_answersZero h
    | push b => exact execPush_answersZero h
    | fin => exact execFin_answersZero h
    | finr => exact execFinr_answersZero h
    | pop => exact execPop_answers h
    | statStatus | statCause | statLen | statRate | statFill | statOutp | statId => exact answerStat_answers h
    | endCall => exact execEndCall_answersZero h
  · rw [haccept] at h
    rw [hdecode]
    exact execIllegal_answersZero h

end Sys2Proof
end

section
/-! SUPPORT. What the assembler emits for a command line (30_encoding.md R80): the operand checks keep every immediate within the
fields of a legal word. -/

namespace Sys2Proof

open Machine

theorem unsignedOperand_le {bound v : Nat} {o : AsmOperand} (h : unsignedOperand bound o = some v) : v ≤ bound := by
  unfold unsignedOperand at h
  split at h
  · split at h
    · cases h; assumption
    · cases h
  · split at h
    · cases h; assumption
    · cases h
  · cases h

/-- A register's name stands for one of the seven selectors. -/
theorem statOperand_le {v : Nat} {o : AsmOperand} (h : statOperand o = some v) : v ≤ 6 := by
  unfold statOperand at h
  split at h
  · split at h
    next hmem =>
      cases h
      exact Nat.le_of_lt_succ (List.idxOf_lt_length_of_mem hmem)
    next => cases h
  · exact unsignedOperand_le h

theorem legalWord_hstart (imm : Half) : legalWord (commandWord 0x01#8 imm) :=
  (legalWord_commandWord_iff _ _).mpr (.inr (.inl rfl))

theorem legalWord_push {v : Nat} (hv : v ≤ 255) : legalWord (commandWord 0x04#8 (BitVec.ofNat 16 v)) :=
  (legalWord_commandWord_iff _ _).mpr (.inr (.inr (.inl ⟨rfl, (Nat.mod_le _ _).trans hv⟩)))

theorem legalWord_stat {v : Nat} (hv : v ≤ 6) : legalWord (commandWord 0x08#8 (BitVec.ofNat 16 v)) :=
  (legalWord_commandWord_iff _ _).mpr (.inr (.inr (.inr ⟨rfl, (Nat.mod_le _ _).trans hv⟩)))

theorem operandCommand_legalWord {m : List Char} {o : AsmOperand} {w : Word} (h : operandCommand m o = .ok w) :
    legalWord w := by
  unfold operandCommand at h
  split_ifs at h
  · split at h
    · cases h; exact legalWord_hstart _
    · cases h
  · split at h
    next v hv => cases h; exact legalWord_push (unsignedOperand_le hv)
    next => cases h
  · split at h
    next v hv => cases h; exact legalWord_stat (statOperand_le hv)
    next => cases h

/-- Settles O59: a mnemonic alone gives the word of a command, one with an operand a word whose immediate was checked. -/
theorem assemblerEmitsLegalWords : Obligations.AssemblerEmitsLegalWords := by
  intro ws w h
  unfold assembleCommand at h
  split at h
  · cases h
  · split at h
    · cases h; exact legalWord_encode _
    · cases h
  next m o =>
    cases hword : operandCommand m (readOperand o) with
    | ok v =>
      rw [hword] at h
      cases h
      exact operandCommand_legalWord hword
    | error e =>
      rw [hword] at h
      cases h
  · cases h

end Sys2Proof
end

section
/-! SUPPORT. The ρπ chain (40_permutation.md R93, R97, R98) against its parallel form (R99): step `i` carries the lane named
before it in the chain to the lane it names, and no lane is named twice. -/

namespace Sys2Proof.Machine

/-! ## The walk of the chain -/

/-- The lanes the chain passes through, from lane 1: step `i` moves lane `chainLane i.castSucc` to lane `chainLane i.succ`. -/
def chainLane : Fin 25 → Fin 25 := Fin.cons 1 fun i : Fin 24 => chainSteps[i.val].2

/-- The rotation of step `i`. -/
def chainAmount (i : Fin 24) : Nat := chainSteps[i.val].1

theorem chainLane_succ_injective : Function.Injective fun i : Fin 24 => chainLane i.succ := by decide +kernel

/-- The chain never writes lane 0. -/
theorem chainLane_ne_zero (k : Fin 25) : chainLane k ≠ 0 := by
  revert k
  decide +kernel

/-- The tables of R99 list the steps of the chain by source lane. -/
theorem exists_chainLane_eq {i : Fin 25} (hi : i ≠ 0) : ∃ j : Fin 24, chainLane j.castSucc = i ∧
    rhoTargets[i.val] = chainLane j.succ ∧ rhoAmounts[i.val] = chainAmount j := by
  revert i
  decide +kernel

theorem rotl64_zero (v : Lane) : rotl64 v 0 = v := if_pos rfl

/-! ## One step -/

/-- A fold over `Fin n` carries a motive from 0 to `n`. -/
theorem foldl_finRange_induction {β : Type} {n : Nat} {f : β → Fin n → β} {b : β} (motive : Fin (n + 1) → β → Prop)
    (zero : motive 0 b) (succ : ∀ (i : Fin n) (c : β), motive i.castSucc c → motive i.succ (f c i)) :
    motive (Fin.last n) ((List.finRange n).foldl f b) := by
  rw [← Fin.foldl_eq_foldl_finRange]
  induction n with
  | zero => simpa using zero
  | succ n ih =>
    rw [Fin.foldl_succ_last]
    exact succ (Fin.last n) _ (ih (fun k => motive k.castSucc) zero fun i c => succ i.castSucc c)

theorem rhopiStep_snd (p : Lanes × Lane) (i : Fin 24) : (rhopiStep p i).2 = p.1[(chainLane i.succ).val] := rfl

theorem rhopiStep_target (p : Lanes × Lane) (i : Fin 24) :
    (rhopiStep p i).1[(chainLane i.succ).val] = rotl64 p.2 (chainAmount i) :=
  Vector.getElem_set_self _

theorem rhopiStep_of_ne (p : Lanes × Lane) {i : Fin 24} {d : Fin 25} (h : chainLane i.succ ≠ d) :
    (rhopiStep p i).1[d.val] = p.1[d.val] :=
  Vector.getElem_set_ne (chainLane i.succ).isLt d.isLt (Fin.val_ne_of_ne h)

/-! ## The whole chain -/

/-- The lanes and the carried lane before step `k` of the chain that starts from `a`. -/
structure ChainBefore (a : Lanes) (k : Fin 25) (p : Lanes × Lane) : Prop where
  carried : p.2 = a[(chainLane k).val]
  moved : ∀ i : Fin 24, i.castSucc < k →
    p.1[(chainLane i.succ).val] = rotl64 a[(chainLane i.castSucc).val] (chainAmount i)
  kept : ∀ d : Fin 25, (∀ i : Fin 24, i.castSucc < k → chainLane i.succ ≠ d) → p.1[d.val] = a[d.val]

theorem chainBefore_zero (a : Lanes) : ChainBefore a 0 (a, a[1]) where
  carried := rfl
  moved _ hi := absurd hi (Fin.not_lt_zero _)
  kept _ _ := rfl

theorem ChainBefore.succ {a : Lanes} {i : Fin 24} {p : Lanes × Lane} (h : ChainBefore a i.castSucc p) :
    ChainBefore a i.succ (rhopiStep p i) where
  carried := (rhopiStep_snd p i).trans <| h.kept _ fun _ hj heq =>
    (Fin.castSucc_lt_castSucc_iff.mp hj).ne (chainLane_succ_injective heq)
  moved j hj := by
    obtain hlt | rfl := (Fin.castSucc_lt_succ_iff.mp hj).lt_or_eq
    · rw [rhopiStep_of_ne p (chainLane_succ_injective.ne hlt.ne'), h.moved j (Fin.castSucc_lt_castSucc_iff.mpr hlt)]
    · rw [rhopiStep_target, h.carried]
  kept d hd := by
    rw [rhopiStep_of_ne p (hd i Fin.castSucc_lt_succ)]
    exact h.kept d fun j hj => hd j (hj.trans Fin.castSucc_lt_succ)

theorem chainBefore_last (a : Lanes) :
    ChainBefore a (Fin.last 24) ((List.finRange 24).foldl rhopiStep (a, a[1])) :=
  foldl_finRange_induction (ChainBefore a) (chainBefore_zero a) fun _ _ => ChainBefore.succ

theorem rhopi_chainLane_succ (a : Lanes) (i : Fin 24) :
    (rhopi a)[(chainLane i.succ).val] = rotl64 a[(chainLane i.castSucc).val] (chainAmount i) :=
  (chainBefore_last a).moved i (Fin.castSucc_lt_last i)

theorem rhopi_zero (a : Lanes) : (rhopi a)[0] = a[0] :=
  (chainBefore_last a).kept 0 fun i _ => chainLane_ne_zero i.succ

theorem rhopi_rhoTargets (a : Lanes) (i : Fin 25) :
    (rhopi a)[rhoTargets[i.val].val] = rotl64 a[i.val] rhoAmounts[i.val] := by
  by_cases hi : i = 0
  · subst hi
    have htarget : rhoTargets[(0 : Fin 25).val] = 0 := by decide +kernel
    have hamount : rhoAmounts[(0 : Fin 25).val] = 0 := by decide +kernel
    simp only [htarget, hamount, rotl64_zero]
    exact rhopi_zero a
  · obtain ⟨j, rfl, htarget, hamount⟩ := exists_chainLane_eq hi
    simp only [htarget, hamount]
    exact rhopi_chainLane_succ a j

/-- `DST` in coordinates (R99). -/
theorem rhoTargets_coordinates :
    ∀ x y : Fin 5, (rhoTargets[x.val + 5 * y.val]).val = y.val + 5 * ((2 * x.val + 3 * y.val) % 5) := by
  decide +kernel

end Sys2Proof.Machine

namespace Sys2Proof

open Machine

/-- Settles O40: lane 0 stays unrotated, every other lane is the source of one step of the chain. -/
theorem rhopiParallelForm : Obligations.RhopiParallelForm :=
  ⟨rhopi_rhoTargets, rhoTargets_coordinates⟩

/-- Settles O41: the kernel evaluates the 24 rounds. -/
theorem permuteOfZeroState : Obligations.PermuteOfZeroState := by
  unfold Obligations.PermuteOfZeroState
  decide +kernel

end Sys2Proof
end

section
/-! SUPPORT. The commands of a hash call (41_sponge.md R113 to R117): the state `HSTART`, `PUSH` and `FIN` end in, as equations
on the state they start from, and the bytes of the padded block. -/

namespace Sys2Proof.Machine

/-! ## The guards and the response -/

/-- Outside `FAULT` the response of a command that returns nothing is 0 (R78, R79). -/
theorem respond_zero_of_ne_fault {s : State} (h : s.phase ≠ .fault) : s.respond 0#16 = { s with rsp := some 0#32 } := by
  rw [respond_eq, (flagF_eq_false s).mpr h]
  rfl

/-- In its own phase a command passes checks 0 and 2 of R212. -/
theorem guarded_of_phase_eq {s : State} {p : Phase} (hp : s.phase = p) (hne : p ≠ .fault) (go : Out) :
    unlessFault s (requirePhase s p go) = go := by
  rw [unlessFault_of_ne (hp ▸ hne), requirePhase_of_eq hp]

/-- Out of its phase a command raises `SEQ` (R208). -/
theorem guarded_of_phase_ne {s : State} {p : Phase} (hp : s.phase ≠ p) (hne : s.phase ≠ .fault) (go : Out) :
    unlessFault s (requirePhase s p go) = .next (faulted s .seq) := by
  rw [unlessFault_of_ne hne, requirePhase_of_ne hp, raiseMisuse_eq_faulted]

/-! ## `HSTART` -/

/-- The valid lengths with their rates (R122). -/
def rateTable : List (Nat × Nat) :=
  [(32, 136), (40, 120), (48, 104), (56, 88), (64, 72), (72, 56), (80, 40), (88, 24), (96, 8), (200, 136)]

theorem mem_validLengths_of_mem_rateTable {n r : Nat} (h : (n, r) ∈ rateTable) : n ∈ validLengths := by
  have hlens : rateTable.map Prod.fst = validLengths := rfl
  exact hlens ▸ List.mem_map_of_mem (f := Prod.fst) h

theorem rateOf_of_mem_rateTable {n r : Nat} (h : (n, r) ∈ rateTable) : rateOf n = r := by
  have hrates : ∀ p ∈ rateTable, rateOf (p.1 : Nat) = (p.2 : Nat) := by decide
  exact hrates _ h

theorem checkLength_of_mem_validLengths {n : Nat} (h : n ∈ validLengths) : checkLength n = none :=
  (checkLength_eq_none_iff_valid n).mpr ⟨n, h, rfl⟩

theorem exec_hstart_of_checkLength_none {s : State} {len : Int} (hp : s.phase = .idle) (hlen : checkLength len = none) :
    exec (.hstart len) s = .next { s with
      a := zeroLanes, fill := 0#8, len := BitVec.ofInt 16 len, rate := BitVec.ofInt 8 (rateOf len),
      mode := .hash, phase := .absorb, rsp := some 0#32 } := by
  show execHstart len s = _
  rw [execHstart, guarded_of_phase_eq hp (by decide), hlen]
  exact congrArg _ (respond_zero_of_ne_fault (by simp))

/-- Settles O23: a length of the table passes the check, and its registers are the table's numbers. -/
theorem hstartBeginsHashCall : Obligations.HstartBeginsHashCall := by
  intro s n r hp hmem
  have hlen : checkLength n = none := checkLength_of_mem_validLengths (mem_validLengths_of_mem_rateTable hmem)
  rw [exec_hstart_of_checkLength_none hp hlen, rateOf_of_mem_rateTable hmem, BitVec.ofInt_natCast, BitVec.ofInt_natCast]
  rfl

/-! ## `PUSH` in `HASH` mode -/

/-- The bytes of `BUF` up to the one just written (R114). -/
theorem take_toList_set {n k : Nat} (v : Vector Byte n) (hk : k < n) (b : Byte) :
    (v.set k b).toList.take (k + 1) = v.toList.take k ++ [b] := by
  rw [Vector.toList_set, List.take_succ_eq_append_getElem (by simpa using hk), List.take_set_of_le le_rfl,
    List.getElem_set_self]

section
variable {s : State}

theorem exec_push_of_phase_ne (b : Byte) (hp : s.phase ≠ .absorb) (hne : s.phase ≠ .fault) :
    exec (.push b) s = .next (faulted s .seq) :=
  guarded_of_phase_ne hp hne _

theorem exec_push_of_hash (b : Byte) (hp : s.phase = .absorb) (hm : s.mode = .hash) :
    exec (.push b) s = pushHash b s := by
  show execPush b s = _
  rw [execPush, guarded_of_phase_eq hp (by decide), hm]

/-- `PUSH` that leaves room in the block (R114). -/
theorem exec_push_of_room (b : Byte) (hp : s.phase = .absorb) (hm : s.mode = .hash) (hfill : s.fill.toNat < 144)
    (hroom : s.fill.toNat + 1 ≠ s.rate.toNat) :
    exec (.push b) s = .next { s with
      buf := s.buf.set s.fill.toNat b, fill := s.fill + 1#8, rsp := some 0#32 } := by
  have hne : s.fill + 1#8 ≠ s.rate := by bv_omega
  rw [exec_push_of_hash b hp hm, pushHash, writeByte_buf s b hfill]
  simp only [except_ok_bind, if_neg hne]
  exact congrArg _ (respond_zero_of_ne_fault (by simp [hp]))

/-- `PUSH` that fills the block: it is absorbed and the lanes are permuted (R114, R115). -/
theorem exec_push_of_full (b : Byte) (hp : s.phase = .absorb) (hm : s.mode = .hash) (hfill : s.fill.toNat < 144)
    (hfull : s.fill.toNat + 1 = s.rate.toNat) :
    exec (.push b) s = .next { s with
      a := permute (absorb s.a (s.buf.toList.take s.fill.toNat ++ [b]) s.rate.toNat),
      buf := s.buf.set s.fill.toNat b, fill := 0#8, rsp := some 0#32 } := by
  have heq : s.fill + 1#8 = s.rate := by bv_omega
  rw [exec_push_of_hash b hp hm, pushHash, writeByte_buf s b hfill]
  simp only [except_ok_bind, if_pos heq]
  rw [absorbBlock_eq _ (by simpa using (by omega : s.rate.toNat ≤ 144))]
  simp only [← hfull, take_toList_set s.buf hfill b, except_ok_bind]
  exact congrArg _ (respond_zero_of_ne_fault (by simp [hp]))

end

/-- Settles O26: the two equations of `PUSH`, by whether its byte fills the block; both write the one byte of `BUF`. -/
theorem pushInHashMode : Obligations.PushInHashMode := by
  refine fun s b hm => ⟨fun hp hlt hle _ => ?_, exec_push_of_phase_ne b⟩
  have hfill : s.fill.toNat < 144 := by omega
  obtain ⟨-, hsame, hother, -⟩ := writeByte_spec (writeByte_buf s b hfill)
  by_cases hfull : s.fill.toNat + 1 = s.rate.toNat
  · exact ⟨_, exec_push_of_full b hp hm hfill hfull, rfl, hsame, fun k hk => hother .buf k (.inr hk),
      fun _ => rfl, rfl, fun hroom => absurd hfull hroom, fun _ => ⟨rfl, rfl⟩⟩
  · have hcount : (s.fill + 1#8).toNat = s.fill.toNat + 1 := by bv_omega
    exact ⟨_, exec_push_of_room b hp hm hfill hfull, rfl, hsame, fun k hk => hother .buf k (.inr hk),
      fun _ => rfl, rfl, fun _ => ⟨rfl, hcount⟩, fun h => absurd h hfull⟩

/-! ## `FIN` in `HASH` mode -/

theorem exec_fin_of_hash {s : State} (hp : s.phase = .absorb) (hm : s.mode = .hash) : exec .fin s = finHash s := by
  show execFin s = _
  rw [execFin, guarded_of_phase_eq hp (by decide), hm]

/-- `FIN` leaves the lanes and `BUF` of the finished sponge and presents `LEN` bytes (R116). -/
theorem exec_fin_of_finishSponge {s u : State} (hp : s.phase = .absorb) (hm : s.mode = .hash)
    (hu : finishSponge s = .ok u) :
    exec .fin s = .next { u.present (s.len.setWidth 8) .state with rsp := some 0#32 } := by
  have hlen : u.len = s.len := by rw [finishSponge_frame hu]
  rw [exec_fin_of_hash hp hm, finHash, hu]
  simp only [except_ok_bind, hlen]
  exact congrArg _ (respond_zero_of_ne_fault (by simp))

/-- Settles O29: `FIN` is the sponge's last block and the presentation of its lanes. -/
theorem finInHashMode : Obligations.FinInHashMode := by
  refine fun s hm => ⟨fun hp hlt hle _ => ?_, fun hp hne => guarded_of_phase_ne hp hne _⟩
  obtain ⟨u, hu, hframe, hbuf, hrest, ha⟩ := finishSponge_spec s hlt hle
  refine ⟨_, exec_fin_of_finishSponge hp hm hu, rfl, hbuf, hrest, ha, ?_⟩
  rw [State.present, hframe]

/-! ## The padded block -/

/-- The block before its last bit: the tail, the marker byte, zeros up to `r` bytes (R116). -/
def markedBlock (tail : List Byte) (r : Nat) : List Byte :=
  tail ++ Config.padFirst :: List.replicate (r - tail.length - 1) 0#8

/-- The padded block is the marked one with `0x80` ORed into its last byte (R116). -/
theorem paddedBlock_eq_modify (tail : List Byte) (r : Nat) :
    paddedBlock tail r = (markedBlock tail r).modify (r - 1) (· ||| Config.padLast) := rfl

theorem markedBlock_getElem?_tail {tail : List Byte} {r k : Nat} (hk : k < tail.length) :
    (markedBlock tail r)[k]? = tail[k]? :=
  List.getElem?_append_left hk

theorem markedBlock_getElem?_marker (tail : List Byte) (r : Nat) :
    (markedBlock tail r)[tail.length]? = some Config.padFirst := by
  simp [markedBlock]

theorem markedBlock_getElem?_zero {tail : List Byte} {r k : Nat} (hlow : tail.length < k) (hhigh : k < r) :
    (markedBlock tail r)[k]? = some 0#8 := by
  obtain ⟨j, rfl⟩ : ∃ j, k = tail.length + (j + 1) := ⟨k - tail.length - 1, by omega⟩
  rw [markedBlock, List.getElem?_append_right (by omega), Nat.add_sub_cancel_left, List.getElem?_cons_succ,
    List.getElem?_replicate, if_pos (by omega)]

theorem paddedBlock_getElem?_of_ne_last {tail : List Byte} {r k : Nat} (hk : k ≠ r - 1) :
    (paddedBlock tail r)[k]? = (markedBlock tail r)[k]? := by
  rw [paddedBlock_eq_modify, List.getElem?_modify_ne _ _ hk.symm]

theorem paddedBlock_getElem?_last (tail : List Byte) (r : Nat) :
    (paddedBlock tail r)[r - 1]? = (markedBlock tail r)[r - 1]?.map (· ||| Config.padLast) := by
  rw [paddedBlock_eq_modify, List.getElem?_modify_eq]
  rfl

/-- Settles O42: every byte but the last is the marked block's; the last is its byte there, a zero or the marker, with
`0x80` ORed in. -/
theorem paddedBlockBytes : Obligations.PaddedBlockBytes := by
  intro tail r h
  refine ⟨paddedBlock_length tail r h, fun k hk => ?_, fun hr => ⟨?_, ?_⟩, fun hr => ?_, fun k hlow hhigh => ?_⟩
  · rw [paddedBlock_getElem?_of_ne_last (by omega), markedBlock_getElem?_tail hk]
  · rw [paddedBlock_getElem?_of_ne_last (by omega), markedBlock_getElem?_marker]
  · rw [paddedBlock_getElem?_last, markedBlock_getElem?_zero (by omega) (by omega)]
    rfl
  · rw [paddedBlock_getElem?_last, show r - 1 = tail.length by omega, markedBlock_getElem?_marker]
    rfl
  · rw [paddedBlock_getElem?_of_ne_last (by omega), markedBlock_getElem?_zero hlow (by omega)]

end Sys2Proof.Machine
end

section
/-! SUPPORT. The streaming commands against the function `hash` (41_sponge.md R110, R119, R120): the block loop one block at a
time from the end of the message, and what `PUSH` and `FIN` make of a message absorbed so far. -/

namespace Sys2Proof.Machine

/-! ## The block loop -/

/-- The loop reads its `q` blocks and nothing after them (R110). -/
theorem absorbBlocks_append {r q : Nat} {m : List Byte} (h : q * r ≤ m.length) (a : Lanes) (tail : List Byte) :
    absorbBlocks r q a (m ++ tail) = absorbBlocks r q a m := by
  induction q generalizing a m with
  | zero => rfl
  | succ q ih =>
    have hr : (q + 1) * r = q * r + r := Nat.succ_mul q r
    rw [absorbBlocks, absorbBlocks, List.take_append_of_le_length (by omega), List.drop_append_of_le_length (by omega),
      ih (by rw [List.length_drop]; omega)]

/-- The last pass of the loop takes the block after the first `q` (R110). -/
theorem absorbBlocks_succ_last (r q : Nat) (a : Lanes) (m : List Byte) :
    absorbBlocks r (q + 1) a m = permute (absorb (absorbBlocks r q a m) (m.drop (q * r)) r) := by
  induction q generalizing a m with
  | zero => simp only [absorbBlocks, absorb_take, Nat.zero_mul, List.drop_zero]
  | succ q ih =>
    rw [absorbBlocks, ih, List.drop_drop, show r + q * r = (q + 1) * r by ring]
    rfl

/-! ## The full-width digest -/

/-- Settles O44: 32 and 200 have one rate, so both digests are cut from the same lanes. -/
theorem fullWidthDigestExtendsShortOne : Obligations.FullWidthDigestExtendsShortOne := by
  intro m d hd
  obtain ⟨-, rfl⟩ := (hash_eq_ok_iff m d 200).mp hd
  have hrate : rateOf 32 = rateOf 200 := rfl
  rw [hash_of_checkLength_none m (len := 32) rfl, hrate, List.take_take]
  rfl

end Sys2Proof.Machine

namespace Sys2Proof

open Machine

namespace HasAbsorbed

variable {m : List Byte} {s : State}

theorem rate_bounds (h : HasAbsorbed m s) : 8 ≤ s.rate.toNat ∧ s.rate.toNat ≤ 136 := by
  obtain ⟨-, -, hlen, hrate, -⟩ := h
  have := rateOf_bounds hlen
  omega

theorem fill_lt_rate (h : HasAbsorbed m s) : s.fill.toNat < s.rate.toNat := by
  have hpos := h.rate_bounds
  obtain ⟨-, -, -, -, hfill, -⟩ := h
  rw [hfill]
  exact Nat.mod_lt _ (by omega)

/-- The message is its full blocks and the bytes in `BUF` (R120). -/
theorem length_eq (h : HasAbsorbed m s) :
    s.fill.toNat + m.length / s.rate.toNat * s.rate.toNat = m.length := by
  obtain ⟨-, -, -, -, hfill, -⟩ := h
  rw [hfill, Nat.mul_comm]
  exact Nat.mod_add_div _ _

/-- The bytes in `BUF` with one more are the message's bytes after the same full blocks (R120). -/
theorem take_buf_append (h : HasAbsorbed m s) (b : Byte) :
    s.buf.toList.take s.fill.toNat ++ [b] = (m ++ [b]).drop (m.length / s.rate.toNat * s.rate.toNat) := by
  have hlen := h.length_eq
  obtain ⟨-, -, -, -, -, -, hbuf⟩ := h
  rw [hbuf, List.drop_append_of_le_length (by omega)]

/-- The next byte is not read by the blocks already absorbed (R120). -/
theorem a_eq_absorbBlocks_append (h : HasAbsorbed m s) (b : Byte) :
    s.a = absorbBlocks s.rate.toNat (m.length / s.rate.toNat) zeroLanes (m ++ [b]) := by
  have hlen := h.length_eq
  obtain ⟨-, -, -, -, -, ha, -⟩ := h
  rw [ha, absorbBlocks_append (by omega)]

/-- A byte that leaves room in the block goes to the tail (R114, R120). -/
theorem push_of_room (h : HasAbsorbed m s) (b : Byte) (hfill : s.fill.toNat < 144)
    (hroom : s.fill.toNat + 1 ≠ s.rate.toNat) :
    HasAbsorbed (m ++ [b]) { s with
      buf := s.buf.set s.fill.toNat b, fill := s.fill + 1#8, rsp := some 0#32 } := by
  have hlt := h.fill_lt_rate
  have hlength := h.length_eq
  have hcount : (s.fill + 1#8).toNat = s.fill.toNat + 1 := by bv_omega
  obtain ⟨hquot, hrem⟩ : (m ++ [b]).length / s.rate.toNat = m.length / s.rate.toNat ∧
      (m ++ [b]).length % s.rate.toNat = s.fill.toNat + 1 := by
    rw [Nat.div_mod_unique (by omega), List.length_append, List.length_singleton, Nat.mul_comm]
    omega
  have ha := h.a_eq_absorbBlocks_append b
  have hbuf := h.take_buf_append b
  obtain ⟨hp, hm, hlen, hrate, -⟩ := h
  refine ⟨hp, hm, hlen, hrate, hcount.trans hrem.symm, ?_, ?_⟩
  · simpa only [hquot] using ha
  · simpa only [hcount, hquot, take_toList_set s.buf hfill b] using hbuf

/-- A byte that fills the block ends a pass of the block loop (R114, R120). -/
theorem push_of_full (h : HasAbsorbed m s) (b : Byte) (hfill : s.fill.toNat < 144)
    (hfull : s.fill.toNat + 1 = s.rate.toNat) :
    HasAbsorbed (m ++ [b]) { s with
      a := permute (absorb s.a (s.buf.toList.take s.fill.toNat ++ [b]) s.rate.toNat),
      buf := s.buf.set s.fill.toNat b, fill := 0#8, rsp := some 0#32 } := by
  have hlength := h.length_eq
  obtain ⟨hquot, hrem⟩ : (m ++ [b]).length / s.rate.toNat = m.length / s.rate.toNat + 1 ∧
      (m ++ [b]).length % s.rate.toNat = 0 := by
    rw [Nat.div_mod_unique (by omega), List.length_append, List.length_singleton, Nat.mul_comm, Nat.succ_mul]
    omega
  have ha := h.a_eq_absorbBlocks_append b
  have hbuf := h.take_buf_append b
  obtain ⟨hp, hm, hlen, hrate, -⟩ := h
  refine ⟨hp, hm, hlen, hrate, hrem.symm, ?_, ?_⟩
  · simp only [hquot, absorbBlocks_succ_last, hbuf, ← ha]
  · have hnone : (m ++ [b]).length ≤ (m.length / s.rate.toNat + 1) * s.rate.toNat := by
      rw [List.length_append, List.length_singleton, Nat.succ_mul]
      omega
    simp only [hquot, List.drop_eq_nil_of_le hnone]
    rfl

/-- The lanes after the padded tail are those of `hash` (R110, R116). -/
theorem finish_lanes (h : HasAbsorbed m s) :
    permute (absorb s.a (paddedBlock (s.buf.toList.take s.fill.toNat) s.rate.toNat) s.rate.toNat) =
      digestLanes m s.rate.toNat := by
  obtain ⟨-, -, -, -, -, ha, hbuf⟩ := h
  rw [ha, hbuf, digestLanes]

end HasAbsorbed

/-- Settles O45: the two equations of `PUSH`, by whether its byte fills the block. -/
theorem pushExtendsAbsorbedMessage : Obligations.PushExtendsAbsorbedMessage := by
  intro m b s h
  have hfill : s.fill.toNat < 144 := by
    have := h.fill_lt_rate
    have := h.rate_bounds
    omega
  have ⟨hp, hm, _⟩ := h
  by_cases hfull : s.fill.toNat + 1 = s.rate.toNat
  · exact ⟨_, exec_push_of_full b hp hm hfill hfull, rfl, h.push_of_full b hfill hfull, rfl⟩
  · exact ⟨_, exec_push_of_room b hp hm hfill hfull, rfl, h.push_of_room b hfill hfull, rfl⟩

/-- Settles O46: `FIN` finishes the sponge on the tail, whose lanes are those `hash` takes its bytes from. -/
theorem finDeliversTheHash : Obligations.FinDeliversTheHash := by
  intro m s h
  have hbounds := h.rate_bounds
  obtain ⟨u, hu, -, -, -, ha⟩ := finishSponge_spec s h.fill_lt_rate (by omega)
  have hlanes : u.a = digestLanes m s.rate.toNat := ha.trans h.finish_lanes
  obtain ⟨hp, hm, hlen, hrate, -⟩ := h
  have holen : (s.len.setWidth 8).toNat = s.len.toNat := by
    have := le_200_of_mem_validLengths hlen
    rw [BitVec.toNat_setWidth, Nat.mod_eq_of_lt (by omega)]
  refine ⟨_, exec_fin_of_finishSponge hp hm hu, rfl, rfl, rfl, holen, ?_⟩
  rw [hash_of_checkLength_none m (checkLength_of_mem_validLengths hlen), ← hrate]
  exact congrArg (fun a => Except.ok ((stateBytes a).take s.len.toNat)) hlanes.symm

end Sys2Proof
end

section
/-! SUPPORT. The function `reduceModL` and the decode of the datapath (42_reducer.md R140 to R143): the laws of the residue,
and byte windows as digits of the value. -/

namespace Sys2Proof.Machine

/-! ## The residue -/

theorem groupOrder_pos : 0 < groupOrder := by norm_num [groupOrder]

/-- A residue has its top byte at most 0x10 (R141). -/
theorem groupOrder_lt_top : groupOrder < 17 * 2 ^ 248 := by norm_num [groupOrder]

theorem scalarNat_lt (x : Scalar) : scalarNat x < 2 ^ 256 := by
  simpa [scalarNat, show (256 : Nat) ^ 32 = 2 ^ 256 by norm_num] using leNat_lt x.toList

/-- A scalar is determined by its value (R53). -/
theorem scalarNat_injective : Function.Injective scalarNat := fun _ _ h =>
  Vector.toList_inj.mp (leNat_injective (by simp) h)

/-- `reduceModL` leaves the residue (R140). -/
theorem scalarNat_reduceModL (x : Scalar) : scalarNat (reduceModL x) = scalarNat x % groupOrder := by
  have hfit : scalarNat x % groupOrder < 256 ^ 32 :=
    (Nat.mod_lt _ groupOrder_pos).trans (by norm_num [groupOrder])
  unfold reduceModL
  exact scalarNat_natScalar hfit

theorem reduceModL_of_lt {x : Scalar} (h : scalarNat x < groupOrder) : reduceModL x = x :=
  scalarNat_injective (by rw [scalarNat_reduceModL, Nat.mod_eq_of_lt h])

/-- The top byte of a scalar is its value without the low 248 bits (R53). -/
theorem scalar_top_byte (x : Scalar) : x[31].toNat = scalarNat x / 2 ^ 248 := by
  have hlt := scalarNat_lt x
  have hbyte := leNat_getElem x.toList 31 (by simp)
  rw [Vector.getElem_toList, ← scalarNat] at hbyte
  rw [hbyte, BitVec.toNat_ofNat, Nat.shiftRight_eq_div_pow]
  omega

/-- Settles O51: every law is a fact about the value, which determines the scalar. -/
theorem reduceModLLaws : Obligations.ReduceModLLaws := by
  intro x
  have hlt := scalarNat_reduceModL_lt x
  refine ⟨hlt, scalarNat_reduceModL x, reduceModL_of_lt hlt, reduceModL_of_lt, ?_⟩
  have htop := groupOrder_lt_top
  rw [scalar_top_byte]
  omega

/-! ## Windows -/

theorem leNat_drop (bs : List Byte) (k : Nat) : leNat (bs.drop k) = leNat bs / 256 ^ k := by
  induction k generalizing bs with
  | zero => simp
  | succ k ih =>
    cases bs with
    | nil => simp
    | cons b bs =>
      have hb := b.isLt
      rw [List.drop_succ_cons, ih, leNat_cons, Nat.pow_succ', ← Nat.div_div_eq_div_mul,
        show (b.toNat + 256 * leNat bs) / 256 = leNat bs by omega]

theorem leNat_take (bs : List Byte) (n : Nat) : leNat (bs.take n) = leNat bs % 256 ^ n := by
  induction n generalizing bs with
  | zero => simp [Nat.mod_one]
  | succ n ih =>
    cases bs with
    | nil => simp
    | cons b bs =>
      have hb := b.isLt
      rw [List.take_succ_cons, leNat_cons, leNat_cons, ih, Nat.pow_succ', Nat.mod_mul,
        show (b.toNat + 256 * leNat bs) / 256 = leNat bs by omega,
        show (b.toNat + 256 * leNat bs) % 256 = b.toNat by omega]

/-- A window of `n` bytes at byte `k` is `8n` bits of the value from bit `8k` on (R59, R143). -/
theorem loadWindow_eq (x : Scalar) (n k : Nat) : loadWindow x n k = (scalarNat x >>> (8 * k)) % 2 ^ (8 * n) := by
  rw [loadWindow, leNat_take, leNat_drop, Nat.shiftRight_eq_div_pow, Nat.pow_mul, Nat.pow_mul]
  rfl

/-- A limb read through a window that covers its 21 bits is that digit of the value (R143). -/
theorem window_digit (x : Scalar) {n k j i : Nat} (hbit : 8 * k + j = 21 * i) (hcover : j + 21 ≤ 8 * n) :
    (loadWindow x n k >>> j) &&& 0x1FFFFF = (scalarNat x >>> (21 * i)) &&& 0x1FFFFF := by
  apply Nat.eq_of_testBit_eq
  intro m
  rw [loadWindow_eq, show 0x1FFFFF = 2 ^ 21 - 1 by norm_num]
  simp only [Nat.testBit_and, Nat.testBit_shiftRight, Nat.testBit_mod_two_pow, Nat.testBit_two_pow_sub_one]
  by_cases hm : m < 21
  · rw [show 8 * k + (j + m) = 21 * i + m by omega]
    simp [hm, show j + m < 8 * n by omega]
  · simp [hm]

/-- The top window reaches to the end of the value (R143). -/
theorem window_top (x : Scalar) : loadWindow x 4 28 >>> 7 = scalarNat x >>> 231 := by
  have hlt := scalarNat_lt x
  have hfit : scalarNat x >>> (8 * 28) < 2 ^ (8 * 4) := by
    rw [Nat.shiftRight_eq_div_pow]
    omega
  rw [loadWindow_eq, Nat.mod_eq_of_lt hfit, ← Nat.shiftRight_add]

theorem splitLimbs_getElem (v : Nat) {i : Nat} (hi : i < 11) :
    (splitLimbs v)[i] = ((v >>> (21 * i)) &&& 0x1FFFFF : Nat) := by
  simp [splitLimbs, hi]

theorem splitLimbs_eleven (v : Nat) : (splitLimbs v)[11] = (v >>> 231 : Nat) := by simp [splitLimbs]

theorem splitLimbs_twelve (v : Nat) : (splitLimbs v)[12] = 0 := by simp [splitLimbs]

/-- The window table of R143: for each limb 0..10 the number of bytes, the first byte and the shift. -/
def limbWindows : Vector (Nat × Nat × Nat) 11 := #v[
  (3, 0, 0), (4, 2, 5), (3, 5, 2), (4, 7, 7), (4, 10, 4), (3, 13, 1), (4, 15, 6), (3, 18, 3), (3, 21, 0), (4, 23, 5),
  (3, 26, 2)]

/-- Each window starts at its limb's first bit and covers its 21 bits. -/
theorem limbWindows_cover : ∀ i : Fin 11,
    8 * limbWindows[i].2.1 + limbWindows[i].2.2 = 21 * i ∧ limbWindows[i].2.2 + 21 ≤ 8 * limbWindows[i].1 := by
  decide

theorem loadLimbs_getElem (x : Scalar) (i : Fin 11) :
    (loadLimbs x)[i.val] =
      ((loadWindow x limbWindows[i].1 limbWindows[i].2.1 >>> limbWindows[i].2.2) &&& 0x1FFFFF : Nat) := by
  fin_cases i <;> rfl

/-- Settles O52: the window table covers limbs 0..10, and the top window holds the rest of the value. -/
theorem limbWindowsAreShifts : Obligations.LimbWindowsAreShifts := by
  refine fun x => Vector.ext fun i hi => ?_
  rcases (by omega : i < 11 ∨ i = 11 ∨ i = 12) with hlow | rfl | rfl
  · obtain ⟨hbit, hcover⟩ := limbWindows_cover ⟨i, hlow⟩
    rw [splitLimbs_getElem _ hlow, loadLimbs_getElem x ⟨i, hlow⟩, window_digit x hbit hcover]
  · rw [splitLimbs_eleven, ← window_top]
    rfl
  · rw [splitLimbs_twelve]
    rfl

end Sys2Proof.Machine
end

section
/-! SUPPORT. The carries of the datapath (42_reducer.md R144, R146): strings of signed digits in
radix 2^21, one carry, and lists of carries. -/

namespace Sys2Proof.Machine

/-! ## Signed digits in radix 2^21 -/

/-- The value of a string of signed limbs, least significant first (R143). -/
def radixValue (ds : List Int) : Int := ds.foldr (fun d v => d + 2097152 * v) 0

@[simp] theorem radixValue_nil : radixValue [] = 0 := rfl
@[simp] theorem radixValue_cons (d : Int) (ds : List Int) : radixValue (d :: ds) = d + 2097152 * radixValue ds := rfl

theorem limbsValue_eq (s : Limbs) : limbsValue s = radixValue s.toList := rfl

theorem radixValue_append (ds es : List Int) :
    radixValue (ds ++ es) = radixValue ds + 2097152 ^ ds.length * radixValue es := by
  induction ds with
  | nil => simp
  | cons d ds ih =>
    rw [List.cons_append, radixValue_cons, radixValue_cons, ih, List.length_cons, Int.pow_succ]
    ring

theorem radixValue_set {ds : List Int} {i : Nat} (hi : i < ds.length) (d : Int) :
    radixValue (ds.set i d) = radixValue ds + 2097152 ^ i * (d - ds[i]) := by
  induction ds generalizing i with
  | nil => simp at hi
  | cons e ds ih =>
    cases i with
    | zero =>
      simp only [List.set_cons_zero, radixValue_cons, List.getElem_cons_zero]
      ring
    | succ i =>
      rw [List.set_cons_succ, radixValue_cons, radixValue_cons, ih (by simpa using hi), List.getElem_cons_succ,
        Int.pow_succ]
      ring

/-- Digits between `lo` and `hi` have a value between those of the strings all `lo` and all `hi`. -/
theorem radixValue_bounds {lo hi : Int} {ds : List Int} (h : ∀ d ∈ ds, lo ≤ d ∧ d ≤ hi) :
    lo * (2097152 ^ ds.length - 1) ≤ 2097151 * radixValue ds ∧
      2097151 * radixValue ds ≤ hi * (2097152 ^ ds.length - 1) := by
  induction ds with
  | nil => simp
  | cons d ds ih =>
    obtain ⟨⟨hlo, hhi⟩, hds⟩ := List.forall_mem_cons.mp h
    obtain ⟨ihlo, ihhi⟩ := ih hds
    rw [radixValue_cons, List.length_cons, Int.pow_succ]
    constructor <;> linarith

/-- Digits in 0..2^21 − 1 have a value that fits their number. -/
theorem radixValue_range {ds : List Int} (h : ∀ d ∈ ds, 0 ≤ d ∧ d < 2097152) :
    0 ≤ radixValue ds ∧ radixValue ds < 2097152 ^ ds.length := by
  have hbounds := radixValue_bounds (lo := 0) (hi := 2097151) fun d hd => ⟨(h d hd).1, Int.le_of_lt_add_one (h d hd).2⟩
  omega

theorem forall_mem_take_iff {s : Limbs} {n : Nat} {P : Int → Prop} :
    (∀ d ∈ s.toList.take n, P d) ↔ ∀ i (hi : i < 13), i < n → P s[i] := by
  simp only [List.mem_take_iff_getElem, Vector.getElem_toList]
  constructor
  · intro h i hi hn
    exact h _ ⟨i, by simpa using ⟨hn, hi⟩, rfl⟩
  · rintro h _ ⟨i, hi, rfl⟩
    simp at hi
    exact h i hi.2 hi.1

/-- The limbs below `n` and those from `n` on (R145). -/
theorem limbsValue_split (s : Limbs) {n : Nat} (hn : n ≤ 13) :
    limbsValue s = radixValue (s.toList.take n) + 2097152 ^ n * radixValue (s.toList.drop n) := by
  have happend := radixValue_append (s.toList.take n) (s.toList.drop n)
  rwa [List.take_append_drop, List.length_take, Vector.length_toList, Nat.min_eq_left hn] at happend

theorem limbsValue_set (s : Limbs) {i : Nat} (hi : i < 13) (d : Int) :
    limbsValue (s.set i d) = limbsValue s + 2097152 ^ i * (d - s[i]) := by
  rw [limbsValue_eq, limbsValue_eq, Vector.toList_set, radixValue_set (by simpa using hi), Vector.getElem_toList]

/-! ## Lists of carries -/

/-- The carry `q s[i]` out of limb `i`: both kinds of carry of R144 and R146 are of this form. -/
def carryBy (q : Int → Int) (s : Limbs) (i : Fin 12) : Limbs := moveCarry s i (q s[i.val])

/-- The rounded carry (R144). -/
def roundedQuot (d : Int) : Int := shiftLimb (d + 1048576)

theorem roundedCarry_eq : roundedCarry = carryBy roundedQuot := rfl
theorem floorCarry_eq : floorCarry = carryBy shiftLimb := rfl

section
variable (q : Int → Int) (s : Limbs) (i : Fin 12)

theorem carryBy_getElem_self : (carryBy q s i)[i.val] = s[i.val] - q s[i.val] * 2097152 := by
  simp [carryBy, moveCarry]

theorem carryBy_getElem_succ : (carryBy q s i)[i.val + 1] = s[i.val + 1] + q s[i.val] := by
  simp [carryBy, moveCarry]

theorem carryBy_getElem_of_ne {j : Nat} (hj : j < 13) (hself : j ≠ i) (hsucc : j ≠ i.val + 1) :
    (carryBy q s i)[j] = s[j] := by
  simp [carryBy, moveCarry, hself.symm, hsucc.symm]

/-- A carry keeps the value (R144, R146). -/
theorem limbsValue_carryBy : limbsValue (carryBy q s i) = limbsValue s := by
  rw [carryBy, moveCarry, limbsValue_set _ (by omega), limbsValue_set _ (by omega),
    Vector.getElem_set_ne _ _ (by omega), Int.pow_succ]
  ring

end

section
variable (q : Int → Int) (is : List (Fin 12)) (s : Limbs)

theorem limbsValue_foldl_carryBy : limbsValue (is.foldl (carryBy q) s) = limbsValue s := by
  induction is generalizing s with
  | nil => rfl
  | cons i is ih => rw [List.foldl_cons, ih, limbsValue_carryBy]

/-- Carries leave a limb that none of them reads or writes. -/
theorem foldl_carryBy_getElem_of_forall_ne {j : Nat} (hj : j < 13) (h : ∀ i ∈ is, j ≠ i.val ∧ j ≠ i.val + 1) :
    (is.foldl (carryBy q) s)[j] = s[j] := by
  induction is generalizing s with
  | nil => rfl
  | cons i is ih =>
    obtain ⟨⟨hself, hsucc⟩, his⟩ := List.forall_mem_cons.mp h
    rw [List.foldl_cons, ih _ his, carryBy_getElem_of_ne q s i hj hself hsucc]

variable {is}

/-- In an ascending pass every limb ends as a remainder of its carry. -/
theorem foldl_carryBy_getElem_of_mem (hasc : is.Pairwise (· < ·)) {i : Fin 12} (hi : i ∈ is) :
    ∃ d : Int, (is.foldl (carryBy q) s)[i.val] = d - q d * 2097152 := by
  induction is generalizing s with
  | nil => simp at hi
  | cons k is ih =>
    obtain ⟨hk, hasc⟩ := List.pairwise_cons.mp hasc
    rcases List.mem_cons.mp hi with rfl | hi
    · refine ⟨s[i.val], ?_⟩
      rw [List.foldl_cons, foldl_carryBy_getElem_of_forall_ne q is _ (by omega), carryBy_getElem_self]
      intro j hj
      have := hk j hj
      omega
    · exact ih _ hasc hi

/-- In a pass over limbs that are no neighbours each carry is read off the limbs before the pass. -/
theorem foldl_carryBy_getElem_of_spaced (hsp : is.Pairwise fun i j => i.val + 1 < j.val) {i : Fin 12} (hi : i ∈ is) :
    (is.foldl (carryBy q) s)[i.val] = s[i.val] - q s[i.val] * 2097152 ∧
      (is.foldl (carryBy q) s)[i.val + 1] = s[i.val + 1] + q s[i.val] := by
  induction is generalizing s with
  | nil => simp at hi
  | cons k is ih =>
    obtain ⟨hk, hsp⟩ := List.pairwise_cons.mp hsp
    rw [List.foldl_cons]
    rcases List.mem_cons.mp hi with rfl | hi
    · have hself : ∀ j ∈ is, i.val ≠ j.val ∧ i.val ≠ j.val + 1 := fun j hj => by have := hk j hj; omega
      have hsucc : ∀ j ∈ is, i.val + 1 ≠ j.val ∧ i.val + 1 ≠ j.val + 1 := fun j hj => by have := hk j hj; omega
      rw [foldl_carryBy_getElem_of_forall_ne q is _ (by omega) hself,
        foldl_carryBy_getElem_of_forall_ne q is _ (by omega) hsucc]
      exact ⟨carryBy_getElem_self q s i, carryBy_getElem_succ q s i⟩
    · have := hk i hi
      obtain ⟨hself, hsucc⟩ := ih (carryBy q s k) hsp hi
      rw [hself, hsucc, carryBy_getElem_of_ne q s k (by omega) (by omega) (by omega),
        carryBy_getElem_of_ne q s k (by omega) (by omega) (by omega)]
      exact ⟨rfl, rfl⟩

end

end Sys2Proof.Machine
end

section
/-! SUPPORT. The limbs after each pass of the datapath (42_reducer.md R143 to R147). Only the rounded passes need
limb by limb bounds; the later limbs are told by their value. -/

namespace Sys2Proof.Machine

/-! ## The decoded limbs -/

/-- What the decode leaves (R143). -/
structure Decoded (s : Limbs) : Prop where
  digit : ∀ (i : Nat) (hi : i < 11), (0 : Int) ≤ s[i] ∧ s[i] < 2097152
  high : (0 : Int) ≤ s[11] ∧ s[11] < 33554432
  top : s[12] = 0

theorem and_limbMask (v : Nat) : v &&& 0x1FFFFF = v % 2097152 := Nat.and_two_pow_sub_one_eq_mod v 21

theorem decoded_splitLimbs {v : Nat} (hv : v < 2 ^ 256) : Decoded (splitLimbs v) where
  digit i hi := by
    rw [splitLimbs_getElem v hi, and_limbMask]
    omega
  high := by
    rw [splitLimbs_eleven, Nat.shiftRight_eq_div_pow]
    omega
  top := splitLimbs_twelve v

theorem decoded_loadLimbs (x : Scalar) : Decoded (loadLimbs x) :=
  limbWindowsAreShifts x ▸ decoded_splitLimbs (scalarNat_lt x)

/-- The `n` low digits of `v` in radix 2^21 (R143). -/
def lowDigits (v n : Nat) : List Int := (List.range n).map fun i => (((v >>> (21 * i)) &&& 0x1FFFFF : Nat) : Int)

@[simp] theorem length_lowDigits (v n : Nat) : (lowDigits v n).length = n := by simp [lowDigits]

theorem lowDigits_succ (v n : Nat) :
    lowDigits v (n + 1) = lowDigits v n ++ [(((v >>> (21 * n)) &&& 0x1FFFFF : Nat) : Int)] := by
  simp [lowDigits, List.range_succ]

theorem shiftRight_eq_digit_add (v n : Nat) :
    v >>> (21 * n) = ((v >>> (21 * n)) &&& 0x1FFFFF) + 2097152 * (v >>> (21 * (n + 1))) := by
  rw [and_limbMask, Nat.mul_succ, Nat.shiftRight_add, Nat.shiftRight_eq_div_pow _ 21]
  omega

/-- The low digits of `v` and what stands above them make up `v`. -/
theorem radixValue_lowDigits (v n : Nat) :
    radixValue (lowDigits v n) + 2097152 ^ n * ((v >>> (21 * n) : Nat) : Int) = v := by
  induction n with
  | zero => simp [lowDigits]
  | succ n ih =>
    rw [shiftRight_eq_digit_add] at ih
    rw [lowDigits_succ, radixValue_append, length_lowDigits, radixValue_cons, radixValue_nil, pow_succ]
    push_cast at ih ⊢
    linarith

theorem splitLimbs_toList (v : Nat) : (splitLimbs v).toList = lowDigits v 11 ++ [((v >>> 231 : Nat) : Int), 0] := rfl

theorem limbsValue_splitLimbs (v : Nat) : limbsValue (splitLimbs v) = v := by
  rw [limbsValue_eq, splitLimbs_toList, radixValue_append, length_lowDigits]
  simpa using radixValue_lowDigits v 11

theorem limbsValue_loadLimbs (x : Scalar) : limbsValue (loadLimbs x) = scalarNat x := by
  rw [limbWindowsAreShifts x, limbsValue_splitLimbs]

/-! ## The rounded passes -/

theorem rounded_rem_bounds (d : Int) :
    -1048576 ≤ d - roundedQuot d * 2097152 ∧ d - roundedQuot d * 2097152 < 1048576 := by
  unfold roundedQuot shiftLimb
  omega

theorem rounded_quot_bounds {d : Int} {n : Nat} (hlo : 0 ≤ d) (hhi : d ≤ 2097152 * n) :
    0 ≤ roundedQuot d ∧ roundedQuot d ≤ n := by
  unfold roundedQuot shiftLimb
  omega

theorem limbsValue_evenPass (s : Limbs) : limbsValue (evenPass s) = limbsValue s :=
  limbsValue_foldl_carryBy roundedQuot [0, 2, 4, 6, 8, 10] s

theorem limbsValue_oddPass (s : Limbs) : limbsValue (oddPass s) = limbsValue s :=
  limbsValue_foldl_carryBy roundedQuot [1, 3, 5, 7, 9, 11] s

theorem evenPass_getElem (s : Limbs) {i : Nat} (hi : i < 12) (heven : i % 2 = 0) :
    (evenPass s)[i] = s[i] - roundedQuot s[i] * 2097152 ∧ (evenPass s)[i + 1] = s[i + 1] + roundedQuot s[i] := by
  have hmem : ∀ i : Fin 12, i.val % 2 = 0 → i ∈ ([0, 2, 4, 6, 8, 10] : List (Fin 12)) := by decide
  exact foldl_carryBy_getElem_of_spaced roundedQuot s (by decide) (hmem ⟨i, hi⟩ heven)

theorem oddPass_getElem (s : Limbs) {i : Nat} (hi : i < 12) (hodd : i % 2 = 1) :
    (oddPass s)[i] = s[i] - roundedQuot s[i] * 2097152 ∧ (oddPass s)[i + 1] = s[i + 1] + roundedQuot s[i] := by
  have hmem : ∀ i : Fin 12, i.val % 2 = 1 → i ∈ ([1, 3, 5, 7, 9, 11] : List (Fin 12)) := by decide
  exact foldl_carryBy_getElem_of_spaced roundedQuot s (by decide) (hmem ⟨i, hi⟩ hodd)

theorem evenPass_top (s : Limbs) : (evenPass s)[12] = s[12] :=
  foldl_carryBy_getElem_of_forall_ne roundedQuot [0, 2, 4, 6, 8, 10] s (by decide) (by decide)

theorem oddPass_zero (s : Limbs) : (oddPass s)[0] = s[0] :=
  foldl_carryBy_getElem_of_forall_ne roundedQuot [1, 3, 5, 7, 9, 11] s (by decide) (by decide)

/-- What the even pass leaves of decoded limbs: even limbs rounded, odd limbs grown by a carry (R144). -/
structure EvenRounded (s : Limbs) : Prop where
  even : ∀ (i : Nat) (hi : i < 12), i % 2 = 0 → (-1048576 : Int) ≤ s[i] ∧ s[i] < 1048576
  odd : ∀ (i : Nat) (hi : i < 11), i % 2 = 1 → (0 : Int) ≤ s[i] ∧ s[i] ≤ 2097152
  high : (0 : Int) ≤ s[11] ∧ s[11] ≤ 33554432
  top : s[12] = 0

/-- What the odd pass leaves after it (R144 with the bound of notes/assumptions/9.md). -/
structure Rounded (s : Limbs) : Prop where
  limb : ∀ (i : Nat) (hi : i < 12), (-1048576 : Int) ≤ s[i] ∧ s[i] ≤ 1048576
  top : (0 : Int) ≤ s[12] ∧ s[12] ≤ 16

theorem evenRounded_evenPass {s : Limbs} (h : Decoded s) : EvenRounded (evenPass s) where
  even i hi heven := by
    rw [(evenPass_getElem s hi heven).1]
    exact rounded_rem_bounds _
  odd i hi hodd := by
    obtain ⟨j, rfl⟩ : ∃ j, i = j + 1 := ⟨i - 1, by omega⟩
    have hdigit := h.digit (j + 1) hi
    have hbelow := h.digit j (by omega)
    have hcarry := rounded_quot_bounds (n := 1) hbelow.1 (by omega)
    rw [(evenPass_getElem s (by omega) (by omega)).2]
    omega
  high := by
    have hhigh := h.high
    have hbelow := h.digit 10 (by decide)
    have hcarry := rounded_quot_bounds (n := 1) hbelow.1 (by omega)
    have hlimb : (evenPass s)[11] = s[11] + roundedQuot s[10] := (evenPass_getElem s (by decide) rfl).2
    omega
  top := (evenPass_top s).trans h.top

theorem rounded_oddPass {s : Limbs} (h : EvenRounded s) : Rounded (oddPass s) where
  limb i hi := by
    rcases Nat.mod_two_eq_zero_or_one i with heven | hodd
    · have hlimb := h.even i hi heven
      cases i with
      | zero =>
        rw [oddPass_zero]
        omega
      | succ j =>
        have hbelow := h.odd j (by omega) (by omega)
        have hcarry := rounded_quot_bounds (n := 1) hbelow.1 (by omega)
        rw [(oddPass_getElem s (by omega) (by omega)).2]
        omega
    · rw [(oddPass_getElem s hi hodd).1]
      have := rounded_rem_bounds s[i]
      omega
  top := by
    have hcarry := rounded_quot_bounds (n := 16) h.high.1 (by simpa using h.high.2)
    rw [(oddPass_getElem s (i := 11) (by decide) rfl).2, h.top]
    omega

/-- The limbs after both rounded passes (R144). -/
def roundedLimbs (x : Scalar) : Limbs := oddPass (evenPass (loadLimbs x))

theorem rounded_roundedLimbs (x : Scalar) : Rounded (roundedLimbs x) :=
  rounded_oddPass (evenRounded_evenPass (decoded_loadLimbs x))

theorem limbsValue_roundedLimbs (x : Scalar) : limbsValue (roundedLimbs x) = scalarNat x := by
  rw [roundedLimbs, limbsValue_oddPass, limbsValue_evenPass, limbsValue_loadLimbs]

/-- Settles O53: carries keep the value, and the bounds go through the two passes. -/
theorem roundedPassesKeepValueAndBounds : Obligations.RoundedPassesKeepValueAndBounds := fun x =>
  have h := rounded_roundedLimbs x
  ⟨limbsValue_roundedLimbs x, fun i => h.limb i i.isLt, h.top⟩

/-! ## The fold -/

/-- What the fold adds for each unit of limb 12: the digits of 2^252 − `L`, and −1 in limb 12 (R145). -/
def foldDigits : List Int := foldConstants.toList ++ List.replicate 6 0 ++ [-1]

theorem radixValue_foldConstants : radixValue foldConstants.toList = 2 ^ 252 - (groupOrder : Int) := by decide

theorem radixValue_foldDigits : radixValue foldDigits = -(groupOrder : Int) := by decide

theorem radixValue_zipWith_add_mul (c : Int) {ds ms : List Int} (h : ds.length = ms.length) :
    radixValue (List.zipWith (fun d m => d + c * m) ds ms) = radixValue ds + c * radixValue ms := by
  induction ds generalizing ms with
  | nil => cases ms <;> simp_all
  | cons d ds ih =>
    cases ms with
    | nil => simp at h
    | cons m ms =>
      rw [List.zipWith_cons_cons, radixValue_cons, radixValue_cons, radixValue_cons, ih (by simpa using h)]
      ring

theorem foldTop_toList (s : Limbs) :
    (foldTop s).toList = List.zipWith (fun d m => d + s[12] * m) s.toList foldDigits := by
  refine List.ext_getElem (by simp [foldDigits]) fun i hi _ => ?_
  have hi : i < 13 := by simpa using hi
  rw [List.getElem_zipWith, Vector.getElem_toList, Vector.getElem_toList]
  simp only [foldTop, Vector.getElem_ofFn]
  interval_cases i <;> simp [foldDigits]

theorem limbsValue_foldTop (s : Limbs) : limbsValue (foldTop s) = limbsValue s - s[12] * groupOrder := by
  rw [limbsValue_eq, foldTop_toList, radixValue_zipWith_add_mul _ (by simp [foldDigits]), radixValue_foldDigits,
    ← limbsValue_eq]
  ring

theorem foldTop_top (s : Limbs) : (foldTop s)[12] = 0 := by simp [foldTop]

/-- Settles O54: the fold adds a multiple of the digits of −`L`. -/
theorem foldKeepsResidue : Obligations.FoldKeepsResidue :=
  ⟨radixValue_foldConstants, fun s => ⟨⟨-s[12], by rw [limbsValue_foldTop]; ring⟩, foldTop_top s⟩⟩

/-! ## The sequential passes -/

theorem floor_rem_bounds (d : Int) : 0 ≤ d - shiftLimb d * 2097152 ∧ d - shiftLimb d * 2097152 < 2097152 := by
  unfold shiftLimb
  omega

theorem foldl_floorCarry_getElem {is : List (Fin 12)} (hasc : is.Pairwise (· < ·)) (s : Limbs) {i : Fin 12}
    (hi : i ∈ is) : 0 ≤ (is.foldl floorCarry s)[i.val] ∧ (is.foldl floorCarry s)[i.val] < 2097152 := by
  obtain ⟨d, hd⟩ := foldl_carryBy_getElem_of_mem shiftLimb s hasc hi
  rw [floorCarry_eq, hd]
  exact floor_rem_bounds d

theorem floorPass12_getElem (s : Limbs) {i : Nat} (hi : i < 12) :
    0 ≤ (floorPass12 s)[i] ∧ (floorPass12 s)[i] < 2097152 := by
  have hmem : ∀ i : Fin 12, i ∈ ([0, 1, 2, 3, 4, 5, 6, 7, 8, 9, 10, 11] : List (Fin 12)) := by decide
  exact foldl_floorCarry_getElem (i := ⟨i, hi⟩) (by decide) s (hmem ⟨i, hi⟩)

theorem floorPass11_getElem (s : Limbs) {i : Nat} (hi : i < 11) :
    0 ≤ (floorPass11 s)[i] ∧ (floorPass11 s)[i] < 2097152 := by
  have hmem : ∀ i : Fin 12, i.val < 11 → i ∈ ([0, 1, 2, 3, 4, 5, 6, 7, 8, 9, 10] : List (Fin 12)) := by decide
  exact foldl_floorCarry_getElem (i := ⟨i, by omega⟩) (by decide) s (hmem ⟨i, by omega⟩ hi)

theorem floorPass11_top (s : Limbs) : (floorPass11 s)[12] = s[12] :=
  foldl_carryBy_getElem_of_forall_ne shiftLimb [0, 1, 2, 3, 4, 5, 6, 7, 8, 9, 10] s (by decide) (by decide)

theorem limbsValue_floorPass12 (s : Limbs) : limbsValue (floorPass12 s) = limbsValue s :=
  limbsValue_foldl_carryBy shiftLimb [0, 1, 2, 3, 4, 5, 6, 7, 8, 9, 10, 11] s

theorem limbsValue_floorPass11 (s : Limbs) : limbsValue (floorPass11 s) = limbsValue s :=
  limbsValue_foldl_carryBy shiftLimb [0, 1, 2, 3, 4, 5, 6, 7, 8, 9, 10] s

/-! ## The upper limbs are the value's quotient -/

theorem drop_eleven (s : Limbs) : s.toList.drop 11 = [s[11], s[12]] := by
  rw [List.drop_eq_getElem_cons (by simp), List.drop_eq_getElem_cons (by simp)]
  simp

theorem drop_twelve (s : Limbs) : s.toList.drop 12 = [s[12]] := by
  rw [List.drop_eq_getElem_cons (by simp)]
  simp

/-- Limbs 0..n−1 in 0..2^21 − 1 are the remainder of the value, the limbs from `n` on the quotient. -/
theorem limbsValue_ediv {s : Limbs} {n : Nat} (hn : n ≤ 13)
    (h : ∀ (i : Nat) (hi : i < 13), i < n → (0 : Int) ≤ s[i] ∧ s[i] < 2097152) :
    limbsValue s / 2097152 ^ n = radixValue (s.toList.drop n) := by
  obtain ⟨hlo, hhi⟩ := radixValue_range (forall_mem_take_iff.mpr h)
  rw [List.length_take, Vector.length_toList, Nat.min_eq_left hn] at hhi
  rw [limbsValue_split s hn, Int.add_mul_ediv_left _ _ (by positivity), Int.ediv_eq_zero_of_lt hlo hhi, zero_add]

theorem limb_twelve_eq {s : Limbs} (h : ∀ (i : Nat) (hi : i < 12), (0 : Int) ≤ s[i] ∧ s[i] < 2097152) :
    s[12] = limbsValue s / 2 ^ 252 := by
  have hquot := limbsValue_ediv (s := s) (n := 12) (by decide) fun i _ hi => h i hi
  rw [drop_twelve] at hquot
  simpa using hquot.symm

theorem limb_eleven_eq {s : Limbs} (h : ∀ (i : Nat) (hi : i < 11), (0 : Int) ≤ s[i] ∧ s[i] < 2097152)
    (htop : s[12] = 0) :
    s[11] = limbsValue s / 2 ^ 231 := by
  have hquot := limbsValue_ediv (s := s) (n := 11) (by decide) fun i _ hi => h i hi
  rw [drop_eleven, htop] at hquot
  simpa using hquot.symm

/-! ## The first fold and its carries -/

/-- The first fold leaves a value between −2^252 and 2^252 (R144, R145). -/
theorem Rounded.limbsValue_foldTop_bounds {s : Limbs} (h : Rounded s) :
    -2 ^ 252 ≤ limbsValue (foldTop s) ∧ limbsValue (foldTop s) < 2 ^ 252 := by
  obtain ⟨hlo, hhi⟩ := radixValue_bounds (lo := -1048576) (hi := 1048576) (ds := s.toList.take 12)
    (forall_mem_take_iff.mpr fun i _ hi => h.limb i hi)
  have hsplit := limbsValue_split s (n := 12) (by decide)
  have htop := h.top
  rw [drop_twelve] at hsplit
  simp only [List.length_take, Vector.length_toList, radixValue_cons, radixValue_nil] at hlo hhi hsplit
  rw [limbsValue_foldTop, hsplit, groupOrder]
  norm_num at hlo hhi ⊢
  omega

/-- The limbs after the sequential pass (R146). -/
def carriedLimbs (x : Scalar) : Limbs := floorPass12 (foldTop (roundedLimbs x))

theorem carriedLimbs_getElem (x : Scalar) {i : Nat} (hi : i < 12) :
    0 ≤ (carriedLimbs x)[i] ∧ (carriedLimbs x)[i] < 2097152 := floorPass12_getElem _ hi

theorem carriedLimbs_top_eq (x : Scalar) : (carriedLimbs x)[12] = limbsValue (carriedLimbs x) / 2 ^ 252 :=
  limb_twelve_eq fun _ hi => carriedLimbs_getElem x hi

theorem limbsValue_carriedLimbs_bounds (x : Scalar) :
    -2 ^ 252 ≤ limbsValue (carriedLimbs x) ∧ limbsValue (carriedLimbs x) < 2 ^ 252 := by
  rw [carriedLimbs, limbsValue_floorPass12]
  exact (rounded_roundedLimbs x).limbsValue_foldTop_bounds

/-- Limb 12 is the quotient of a value between −2^252 and 2^252 by 2^252 (R146). -/
theorem carriedLimbs_top (x : Scalar) : (carriedLimbs x)[12] = -1 ∨ (carriedLimbs x)[12] = 0 := by
  have htop := carriedLimbs_top_eq x
  have hbounds := limbsValue_carriedLimbs_bounds x
  omega

/-- Settles O55: limbs 0..11 are remainders of floor carries, limb 12 is the quotient of the value. -/
theorem sequentialPassBounds : Obligations.SequentialPassBounds := fun x =>
  ⟨fun i => carriedLimbs_getElem x i.isLt, carriedLimbs_top x⟩

/-! ## The second fold and its carries -/

theorem reducedLimbs_eq (x : Scalar) : reducedLimbs x = floorPass11 (foldTop (carriedLimbs x)) := rfl

theorem reducedLimbs_getElem (x : Scalar) {i : Nat} (hi : i < 11) :
    0 ≤ (reducedLimbs x)[i] ∧ (reducedLimbs x)[i] < 2097152 := floorPass11_getElem _ hi

theorem reducedLimbs_top (x : Scalar) : (reducedLimbs x)[12] = 0 := by
  rw [reducedLimbs_eq, floorPass11_top, foldTop_top]

/-- The two folds take multiples of `L` off the operand (R145). -/
theorem limbsValue_reducedLimbs_eq_sub (x : Scalar) :
    limbsValue (reducedLimbs x) = scalarNat x - ((roundedLimbs x)[12] + (carriedLimbs x)[12]) * groupOrder := by
  rw [reducedLimbs_eq, limbsValue_floorPass11, limbsValue_foldTop, carriedLimbs, limbsValue_floorPass12,
    limbsValue_foldTop, limbsValue_roundedLimbs]
  ring

/-- The second fold adds `L` to a negative value and leaves another as it is (R147). -/
theorem limbsValue_reducedLimbs_bounds (x : Scalar) :
    0 ≤ limbsValue (reducedLimbs x) ∧ limbsValue (reducedLimbs x) < groupOrder := by
  have hbounds := limbsValue_carriedLimbs_bounds x
  have hquot := carriedLimbs_top_eq x
  have hvalue : limbsValue (reducedLimbs x) = limbsValue (carriedLimbs x) - (carriedLimbs x)[12] * groupOrder := by
    rw [reducedLimbs_eq, limbsValue_floorPass11, limbsValue_foldTop]
  rcases carriedLimbs_top x with htop | htop
  · rw [htop] at hquot hvalue
    rw [hvalue, groupOrder]
    omega
  · rw [htop] at hquot hvalue
    rw [hvalue, groupOrder]
    omega

theorem limbsValue_reducedLimbs (x : Scalar) :
    limbsValue (reducedLimbs x) = ((scalarNat x % groupOrder : Nat) : Int) := by
  obtain ⟨hlo, hhi⟩ := limbsValue_reducedLimbs_bounds x
  rw [← Int.emod_eq_of_lt hlo hhi, limbsValue_reducedLimbs_eq_sub, Int.sub_mul_emod_self_right, Int.natCast_emod]

theorem reducedLimbs_eleven_eq (x : Scalar) : (reducedLimbs x)[11] = limbsValue (reducedLimbs x) / 2 ^ 231 :=
  limb_eleven_eq (fun _ hi => reducedLimbs_getElem x hi) (reducedLimbs_top x)

theorem reducedLimbs_eleven_nonneg (x : Scalar) : 0 ≤ (reducedLimbs x)[11] := by
  have heleven := reducedLimbs_eleven_eq x
  have hbounds := limbsValue_reducedLimbs_bounds x
  omega

/-- Settles O56: the value is congruent to the operand and below `L`, and limb 11 is its quotient by 2^231. -/
theorem reducedLimbsHoldResidue : Obligations.ReducedLimbsHoldResidue := by
  intro x
  have hfit : groupOrder < 2 ^ 252 + 2 ^ 231 := by norm_num [groupOrder]
  have hlt : scalarNat x % groupOrder < groupOrder := Nat.mod_lt _ groupOrder_pos
  have heleven := reducedLimbs_eleven_eq x
  rw [limbsValue_reducedLimbs] at heleven
  refine ⟨limbsValue_reducedLimbs x, fun i => reducedLimbs_getElem x i.isLt, reducedLimbs_eleven_nonneg x, ?_,
    reducedLimbs_top x, ?_⟩
  · omega
  · omega

end Sys2Proof.Machine
end

section
/-! SUPPORT. The pack of the datapath and its agreement with `reduceModL` (42_reducer.md R148, R149). -/

namespace Sys2Proof.Machine

/-! ## Bits of a packed byte -/

theorem ofInt_getLsbD {d : Int} (hd : 0 ≤ d) (w i : Nat) :
    (BitVec.ofInt w d).getLsbD i = (decide (i < w) && d.toNat.testBit i) := by
  obtain ⟨m, rfl⟩ := Int.eq_ofNat_of_zero_le hd
  rw [BitVec.ofInt_natCast, BitVec.getLsbD_ofNat, Int.toNat_natCast]

theorem packShr_getLsbD {s : Limbs} {i : Fin 13} {n b : Nat} (hs : 0 ≤ s[i.val]) (hb : b < 8) (hn : n ≤ 56) :
    (packShr s i n).getLsbD b = s[i.val].toNat.testBit (n + b) := by
  rw [packShr, BitVec.getLsbD_setWidth, BitVec.getLsbD_sshiftRight, ofInt_getLsbD hs]
  simp [hb, show n + b < 64 by omega, show b < 64 by omega]

theorem packShl_getLsbD {s : Limbs} {i : Fin 13} {n b : Nat} (hs : 0 ≤ s[i.val]) (hb : b < 8) :
    (packShl s i n).getLsbD b = (decide (n ≤ b) && s[i.val].toNat.testBit (b - n)) := by
  rw [packShl, BitVec.getLsbD_setWidth, BitVec.getLsbD_shiftLeft, ofInt_getLsbD hs]
  rcases Nat.lt_or_ge b n with hlow | hhigh
  · simp [hlow]
  · simp [hb, Nat.not_lt.mpr hhigh, hhigh, show b < 64 by omega, show b - n < 64 by omega]

/-! ## Bits of the value -/

/-- The ranges the last pass leaves (R147). -/
structure Packable (s : Limbs) : Prop where
  digit : ∀ (i : Nat) (hi : i < 11), (0 : Int) ≤ s[i] ∧ s[i] < 2097152
  high : (0 : Int) ≤ s[11]
  top : s[12] = 0

namespace Packable

variable {s : Limbs} (h : Packable s)
include h

theorem nonneg {i : Nat} (hi : i < 12) : 0 ≤ s[i] := by
  rcases (by omega : i < 11 ∨ i = 11) with hlow | rfl
  · exact (h.digit i hlow).1
  · exact h.high

theorem limbsValue_nonneg : 0 ≤ limbsValue s := by
  have heleven := limb_eleven_eq h.digit h.top
  have := h.high
  omega

/-- The value without its low `i` digits is limb `i` and the limbs above it (R148). -/
theorem exists_limbsValue_shiftRight {i : Nat} (hi : i < 12) :
    ∃ t : Nat, (limbsValue s).toNat >>> (21 * i) = 2 ^ 21 * t + s[i].toNat ∧ (i = 11 → t = 0) := by
  have hquot {n : Nat} (hn : n ≤ 11) : limbsValue s / 2097152 ^ n = radixValue (s.toList.drop n) :=
    limbsValue_ediv (by omega) fun j _ hj => h.digit j (by omega)
  have hshift : (((limbsValue s).toNat >>> (21 * i) : Nat) : Int) = limbsValue s / 2097152 ^ i := by
    rw [Nat.shiftRight_eq_div_pow, Nat.pow_mul, Int.natCast_ediv, Int.toNat_of_nonneg h.limbsValue_nonneg]
    norm_num
  have hstep : radixValue (s.toList.drop i) = s[i] + 2097152 * radixValue (s.toList.drop (i + 1)) := by
    rw [List.drop_eq_getElem_cons (by simpa using by omega), radixValue_cons, Vector.getElem_toList]
  have hlimb := h.nonneg hi
  rw [hquot (by omega), hstep] at hshift
  rcases (by omega : i < 11 ∨ i = 11) with hlow | rfl
  · have hrest : 0 ≤ radixValue (s.toList.drop (i + 1)) :=
      hquot hlow ▸ Int.ediv_nonneg h.limbsValue_nonneg (by positivity)
    exact ⟨(radixValue (s.toList.drop (i + 1))).toNat, by omega, by omega⟩
  · rw [drop_twelve, h.top, radixValue_cons, radixValue_nil] at hshift
    exact ⟨0, by omega, fun _ => rfl⟩

/-- Bits 21i .. 21i + 20 of the value are limb `i`; limb 11 is every bit from 231 on (R147, R148). -/
theorem testBit_limbsValue {i m : Nat} (hi : i < 12) (hm : m < 21 ∨ i = 11) :
    (limbsValue s).toNat.testBit (21 * i + m) = s[i].toNat.testBit m := by
  obtain ⟨t, ht, htop⟩ := h.exists_limbsValue_shiftRight hi
  rw [← Nat.testBit_shiftRight, ht]
  rcases (by omega : i < 11 ∨ i = 11) with hlow | rfl
  · have hdigit := h.digit i hlow
    rw [Nat.testBit_two_pow_mul_add _ (by omega), if_pos (by omega)]
  · rw [htop rfl, Nat.mul_zero, Nat.zero_add]

theorem testBit_digit_eq_false {i m : Nat} (hi : i < 11) (hm : 21 ≤ m) : s[i].toNat.testBit m = false := by
  have hdigit := h.digit i hi
  exact Nat.testBit_lt_two_pow (lt_of_lt_of_le (by omega) (Nat.pow_le_pow_right (by decide) hm))

/-- A byte that lies inside one limb (R148). -/
theorem packShr_eq {i : Fin 13} {j : Nat} (hi : i.val < 12) (hj : j < 21) (hinside : j + 8 ≤ 21 ∨ i.val = 11) :
    packShr s i j = BitVec.ofNat 8 ((limbsValue s).toNat >>> (21 * i + j)) := by
  refine BitVec.eq_of_getLsbD_eq fun b hb => ?_
  rw [packShr_getLsbD (h.nonneg hi) hb (by omega), BitVec.getLsbD_ofNat, Nat.testBit_shiftRight, Nat.add_assoc,
    h.testBit_limbsValue hi (by omega)]
  simp [hb]

/-- A byte that begins in limb `i` and ends in the limb above (R148). -/
theorem packShr_or_packShl_eq {i k : Fin 13} {j : Nat} (hi : i.val < 11) (hk : k.val = i + 1) (hj : j < 21) :
    packShr s i j ||| packShl s k (21 - j) = BitVec.ofNat 8 ((limbsValue s).toNat >>> (21 * i + j)) := by
  refine BitVec.eq_of_getLsbD_eq fun b hb => ?_
  rw [BitVec.getLsbD_or, packShr_getLsbD (h.nonneg (by omega)) hb (by omega), packShl_getLsbD (h.nonneg (by omega)) hb,
    BitVec.getLsbD_ofNat, Nat.testBit_shiftRight, Nat.add_assoc]
  by_cases hlow : j + b < 21
  · rw [h.testBit_limbsValue (by omega) (.inl hlow)]
    simp [hb, show ¬ 21 - j ≤ b by omega]
  · have hbit : 21 * i.val + (j + b) = 21 * k.val + (b - (21 - j)) := by omega
    rw [hbit, h.testBit_limbsValue (by omega) (by omega), h.testBit_digit_eq_false hi (by omega)]
    simp [hb, show 21 - j ≤ b by omega]

end Packable

/-! ## The pack table -/

/-- The pack table of R148: byte `k` begins at bit 8k mod 21 of limb ⌊8k/21⌋, and takes the limb above where it
ends there. -/
def packedByte (s : Limbs) (k : Fin 32) : Byte :=
  if 8 * k.val % 21 + 8 ≤ 21 ∨ 8 * k.val / 21 = 11 then packShr s ⟨8 * k.val / 21, by omega⟩ (8 * k.val % 21)
  else
    packShr s ⟨8 * k.val / 21, by omega⟩ (8 * k.val % 21) |||
      packShl s ⟨8 * k.val / 21 + 1, by omega⟩ (21 - 8 * k.val % 21)

theorem packLimbs_getElem (s : Limbs) (k : Fin 32) : (packLimbs s)[k.val] = packedByte s k := by
  fin_cases k <;> rfl

theorem Packable.packedByte_eq {s : Limbs} (h : Packable s) (k : Fin 32) :
    packedByte s k = BitVec.ofNat 8 ((limbsValue s).toNat >>> (8 * k.val)) := by
  have hbit : 21 * (8 * k.val / 21) + 8 * k.val % 21 = 8 * k.val := Nat.div_add_mod _ _
  unfold packedByte
  split
  · rw [h.packShr_eq (by dsimp only; omega) (by omega) ‹_›, hbit]
  · rw [h.packShr_or_packShl_eq (by dsimp only; omega) rfl (by omega), hbit]

theorem Packable.packLimbs_eq {s : Limbs} (h : Packable s) : packLimbs s = natScalar (limbsValue s).toNat := by
  refine Vector.ext fun k hk => ?_
  rw [packLimbs_getElem s ⟨k, hk⟩, h.packedByte_eq, natScalar, Vector.getElem_ofFn]

/-- Settles O57: every row of the pack table reads its eight bits of the value. -/
theorem packIsLittleEndian : Obligations.PackIsLittleEndian := fun _ hdigit hhigh _ htop =>
  Packable.packLimbs_eq ⟨fun i hi => hdigit ⟨i, hi⟩, hhigh, htop⟩

/-! ## The datapath -/

theorem packable_reducedLimbs (x : Scalar) : Packable (reducedLimbs x) where
  digit _ hi := reducedLimbs_getElem x hi
  high := reducedLimbs_eleven_nonneg x
  top := reducedLimbs_top x

/-- Settles O58: the pack writes out the value of the last limbs, which is the residue. -/
theorem datapathComputesReduceModL : Obligations.DatapathComputesReduceModL := by
  intro x
  unfold reduceModL
  calc reduceDatapath x
    _ = packLimbs (reducedLimbs x) := rfl
    _ = natScalar (limbsValue (reducedLimbs x)).toNat := (packable_reducedLimbs x).packLimbs_eq
    _ = natScalar (scalarNat x % groupOrder) := by rw [limbsValue_reducedLimbs, Int.toNat_natCast]

end Sys2Proof.Machine
end

section
/-! SUPPORT. The commands of the reducer (42_reducer.md R152 to R155): `RSTART`, `PUSH` and `FIN` in `RED` mode, `FINR`,
as equations on the state they start from. -/

namespace Sys2Proof.Machine

/-- Settles O25: in `IDLE` the command passes its guards and completes. -/
theorem rstartBeginsReductionCall : Obligations.RstartBeginsReductionCall := by
  refine fun s => ⟨fun hp => ?_, fun hp hne => guarded_of_phase_ne hp hne _⟩
  show execRstart s = _
  rw [execRstart, guarded_of_phase_eq hp (by decide)]
  exact congrArg _ (respond_zero_of_ne_fault (by simp))

section
variable {s : State}

/-! ## `PUSH` in `RED` mode -/

theorem exec_push_of_red (b : Byte) (hp : s.phase = .absorb) (hm : s.mode = .red) : exec (.push b) s = pushRed b s := by
  show execPush b s = _
  rw [execPush, guarded_of_phase_eq hp (by decide), hm]

theorem exec_push_red_of_room (b : Byte) (hp : s.phase = .absorb) (hm : s.mode = .red) (hroom : s.fill.toNat < 32) :
    exec (.push b) s = .next { s with
      sreg := s.sreg.set s.fill.toNat b, fill := s.fill + 1#8, rsp := some 0#32 } := by
  have hne : s.fill ≠ 32#8 := by bv_omega
  rw [exec_push_of_red b hp hm, pushRed, if_neg hne, writeByte_sreg s b hroom]
  exact congrArg _ (respond_zero_of_ne_fault (by simp [hp]))

theorem exec_push_red_of_full (b : Byte) (hp : s.phase = .absorb) (hm : s.mode = .red) (hfull : s.fill = 32#8) :
    exec (.push b) s = .next (faulted s .oplen) := by
  rw [exec_push_of_red b hp hm, pushRed, if_pos hfull, raiseMisuse_eq_faulted]

/-! ## `FIN` in `RED` mode -/

theorem exec_fin_of_red (hp : s.phase = .absorb) (hm : s.mode = .red) : exec .fin s = finRed s := by
  show execFin s = _
  rw [execFin, guarded_of_phase_eq hp (by decide), hm]

theorem exec_fin_red_of_loaded (hp : s.phase = .absorb) (hm : s.mode = .red) (hfill : s.fill = 32#8) :
    exec .fin s = .next { s with
      sreg := reduceModL s.sreg, olen := 32#8, optr := 0#8, osrc := .scalar, fill := 0#8, phase := .out,
      rsp := some 0#32 } := by
  rw [exec_fin_of_red hp hm, finRed, if_neg (not_not.mpr hfill), complete_ok, respond_zero_of_ne_fault (by simp)]
  rfl

theorem exec_fin_red_of_not_loaded (hp : s.phase = .absorb) (hm : s.mode = .red) (hfill : s.fill ≠ 32#8) :
    exec .fin s = .next (faulted s .oplen) := by
  rw [exec_fin_of_red hp hm, finRed, if_pos hfill, raiseMisuse_eq_faulted]

/-! ## `FINR` -/

theorem exec_finr_of_absorb (hp : s.phase = .absorb) :
    exec .finr s =
      if s.mode ≠ .hash then .next (s.raiseMisuse .seq)
      else if s.len ≠ 32#16 then .next (s.raiseMisuse .finrLen)
      else complete do
        let s ← finishSponge s
        return s.loadDigest.runReduce.present 32#8 .scalar :=
  guarded_of_phase_eq hp (by decide) _

/-- `FINR` leaves the lanes and `BUF` of the finished sponge and presents the residue of their first 32 bytes (R155). -/
theorem exec_finr_of_finishSponge {u : State} (hp : s.phase = .absorb) (hm : s.mode = .hash) (hlen : s.len = 32#16)
    (hu : finishSponge s = .ok u) :
    exec .finr s = .next { u.present 32#8 .scalar with
      sreg := reduceModL (digestScalar u.a), rsp := some 0#32 } := by
  rw [exec_finr_of_absorb hp, if_neg (not_not.mpr hm), if_neg (not_not.mpr hlen), hu]
  exact congrArg _ (respond_zero_of_ne_fault (by simp))

theorem exec_finr_of_len_ne (hp : s.phase = .absorb) (hm : s.mode = .hash) (hlen : s.len ≠ 32#16) :
    exec .finr s = .next (faulted s .finrLen) := by
  rw [exec_finr_of_absorb hp, if_neg (not_not.mpr hm), if_pos hlen, raiseMisuse_eq_faulted]

theorem exec_finr_of_mode_ne (hp : s.phase = .absorb) (hm : s.mode ≠ .hash) :
    exec .finr s = .next (faulted s .seq) := by
  rw [exec_finr_of_absorb hp, if_pos hm, raiseMisuse_eq_faulted]

end

theorem digestScalar_getElem (a : Lanes) {k : Nat} (hk : k < 32) :
    (digestScalar a)[k] = laneByte (a[k / 8]'(by omega)) (k % 8) := by
  unfold digestScalar
  rw [Vector.getElem_ofFn]

theorem stateBytes_getElem (a : Lanes) {k : Nat} (hk : k < (stateBytes a).length) :
    (stateBytes a)[k] = laneByte (a[k / 8]'(by simp at hk; omega)) (k % 8) := List.getElem_ofFn hk

/-- The digest as a scalar is the first 32 bytes of the state (R22, R155). -/
theorem digestScalar_toList (a : Lanes) : (digestScalar a).toList = (stateBytes a).take 32 := by
  refine List.ext_getElem (by simp) fun k hk _ => ?_
  rw [Vector.getElem_toList, digestScalar_getElem a (by simpa using hk), List.getElem_take, stateBytes_getElem]

theorem scalarNat_digestScalar (a : Lanes) : scalarNat (digestScalar a) = leNat ((stateBytes a).take 32) := by
  rw [scalarNat, digestScalar_toList]

/-! ## The statements -/

/-- Settles O28: with room `PUSH` is one byte write to `SREG`; a full operand and another phase raise their faults. -/
theorem pushInRedMode : Obligations.PushInRedMode := by
  refine fun s b hm => ⟨fun hp hroom => ?_, fun hp => exec_push_red_of_full b hp hm, exec_push_of_phase_ne b⟩
  obtain ⟨-, hsame, hother, -⟩ := writeByte_spec (writeByte_sreg s b hroom)
  have hcount : (s.fill + 1#8).toNat = s.fill.toNat + 1 := by bv_omega
  exact ⟨_, exec_push_red_of_room b hp hm hroom, rfl, hcount, hsame, fun k hk => hother .sreg k (.inr hk), rfl⟩

/-- Settles O31: the value left in `SREG` is that of `reduceModL`. -/
theorem finInRedMode : Obligations.FinInRedMode := fun s hm =>
  ⟨fun hp hfill => ⟨_, exec_fin_red_of_loaded hp hm hfill, rfl, scalarNat_reduceModL s.sreg⟩,
    fun hp hfill => exec_fin_red_of_not_loaded hp hm hfill, fun hp hne => guarded_of_phase_ne hp hne _⟩

/-- Settles O32: `FINR` is the sponge's last block and the residue of the digest's 32 bytes. -/
theorem finrReducesTheDigest : Obligations.FinrReducesTheDigest := by
  refine fun s => ⟨fun hp hm hlen hlt hle _ => ?_, exec_finr_of_len_ne, exec_finr_of_mode_ne,
    fun hp hne => guarded_of_phase_ne hp hne _⟩
  obtain ⟨u, hu, hframe, hbuf, hrest, ha⟩ := finishSponge_spec s hlt hle
  have hvalue : scalarNat (reduceModL (digestScalar u.a)) = leNat ((stateBytes u.a).take 32) % groupOrder := by
    rw [scalarNat_reduceModL, scalarNat_digestScalar]
  refine ⟨_, exec_finr_of_finishSponge hp hm hlen hu, rfl, hbuf, hrest, ha, hvalue, ?_⟩
  rw [State.present, hframe]

end Sys2Proof.Machine
end

section
/-! SUPPORT. The commands of call control (43_call_control.md R171 to R177): `NOP`, `PSTART`, `PUSH` and `FIN` in `PERM` mode,
`POP`, `STAT` and `END`, as equations on the state they start from, and the phases a call moves through (R170). -/

namespace Sys2Proof

open Machine

/-! ## `NOP` -/

/-- Settles O22: the command passes the one check it has, or is dropped by it. -/
theorem nopChangesNothing : Obligations.NopChangesNothing := by
  refine fun s => ⟨fun hp => ?_, fun hp => ?_⟩
  · show unlessFault s (complete (.ok s)) = _
    rw [unlessFault_of_ne hp, complete_ok, respond_zero_of_ne_fault hp]
  · show unlessFault s (complete (.ok s)) = _
    rw [unlessFault_of_fault hp, dropped_of_fault hp]

/-! ## `PSTART` -/

/-- Settles O24: in `IDLE` the command passes its guards and completes. -/
theorem pstartBeginsPermutationCall : Obligations.PstartBeginsPermutationCall := by
  refine fun s => ⟨fun hp => ?_, fun hp hne => guarded_of_phase_ne hp hne _⟩
  show execPstart s = _
  rw [execPstart, guarded_of_phase_eq hp (by decide)]
  exact congrArg _ (respond_zero_of_ne_fault (by simp))

section
variable {s : State}

/-! ## `PUSH` in `PERM` mode -/

theorem exec_push_of_perm (b : Byte) (hp : s.phase = .absorb) (hm : s.mode = .perm) :
    exec (.push b) s = pushPerm b s := by
  show execPush b s = _
  rw [execPush, guarded_of_phase_eq hp (by decide), hm]

/-- `PUSH` with room is one byte write to the lanes (R173). -/
theorem exec_push_perm_of_writeByte {u : State} {b : Byte} (hp : s.phase = .absorb) (hm : s.mode = .perm)
    (hroom : s.fill.toNat < 200) (hw : s.writeByte .st s.fill.toNat b = .ok u) :
    exec (.push b) s = .next { s with a := u.a, fill := s.fill + 1#8, rsp := some 0#32 } := by
  have hne : s.fill ≠ 200#8 := by bv_omega
  rw [exec_push_of_perm b hp hm, pushPerm, if_neg hne, hw, writeByte_st_frame hw]
  exact congrArg _ (respond_zero_of_ne_fault (by simp [hp]))

theorem exec_push_perm_of_full (b : Byte) (hp : s.phase = .absorb) (hm : s.mode = .perm) (hfull : s.fill = 200#8) :
    exec (.push b) s = .next (faulted s .oplen) := by
  rw [exec_push_of_perm b hp hm, pushPerm, if_pos hfull, raiseMisuse_eq_faulted]

/-! ## `FIN` in `PERM` mode -/

theorem exec_fin_of_perm (hp : s.phase = .absorb) (hm : s.mode = .perm) : exec .fin s = finPerm s := by
  show execFin s = _
  rw [execFin, guarded_of_phase_eq hp (by decide), hm]

theorem exec_fin_perm_of_loaded (hp : s.phase = .absorb) (hm : s.mode = .perm) (hfill : s.fill = 200#8) :
    exec .fin s = .next { s with
      a := permute s.a, olen := 200#8, optr := 0#8, osrc := .state, fill := 0#8, phase := .out,
      rsp := some 0#32 } := by
  rw [exec_fin_of_perm hp hm, finPerm, if_neg (not_not.mpr hfill), complete_ok, respond_zero_of_ne_fault (by simp)]
  rfl

theorem exec_fin_perm_of_not_loaded (hp : s.phase = .absorb) (hm : s.mode = .perm) (hfill : s.fill ≠ 200#8) :
    exec .fin s = .next (faulted s .oplen) := by
  rw [exec_fin_of_perm hp hm, finPerm, if_pos hfill, raiseMisuse_eq_faulted]

end

/-- Settles O27: with room `PUSH` is one byte write to the lanes; a full operand and another phase raise their faults. -/
theorem pushInPermMode : Obligations.PushInPermMode := by
  refine fun s b hm => ⟨fun hp hroom => ?_, fun hp => exec_push_perm_of_full b hp hm, exec_push_of_phase_ne b⟩
  have hw := writeByte_st s b hroom
  obtain ⟨-, hsame, hother, -⟩ := writeByte_spec hw
  have hcount : (s.fill + 1#8).toNat = s.fill.toNat + 1 := by bv_omega
  exact ⟨_, exec_push_perm_of_writeByte hp hm hroom hw, rfl, hcount, hsame, fun k hk => hother .st k (.inr hk), rfl⟩

/-- Settles O30: `FIN` with all 200 bytes loaded is the engine's run and the presentation of its lanes. -/
theorem finInPermMode : Obligations.FinInPermMode := fun _ hm =>
  ⟨fun hp hfill => exec_fin_perm_of_loaded hp hm hfill, fun hp hfill => exec_fin_perm_of_not_loaded hp hm hfill,
    fun hp hne => guarded_of_phase_ne hp hne _⟩

/-! ## The response as a number -/

/-- The form of R78 as a number. -/
theorem rspWord_eq_ofNat (f : Bool) (data : Half) :
    rspWord f data = BitVec.ofNat 32 ((if f then 0x80000000 else 0) + data.toNat) := by
  have hdata := data.isLt
  have hform : (rspWord f data).toNat = f.toNat * 2147483648 + data.toNat := by
    rw [rspWord, BitVec.toNat_append, ← Nat.shiftLeft_add_eq_or_of_lt hdata, BitVec.toNat_append]
    simp [Nat.shiftLeft_eq]
    omega
  apply BitVec.eq_of_toNat_eq
  rw [hform, BitVec.toNat_ofNat]
  cases f
  · simp only [Bool.toNat_false, Bool.false_eq_true, if_false]; omega
  · simp only [Bool.toNat_true, if_true]; omega

/-- The response of a command that returns the byte `b` (R79). -/
theorem rspWord_byte (b : Byte) : rspWord false (b.setWidth 16) = byteResponse b := by
  rw [rspWord_eq_ofNat]
  have hb := b.isLt
  apply BitVec.eq_of_toNat_eq
  simp only [byteResponse, Bool.false_eq_true, if_false, BitVec.toNat_ofNat, BitVec.toNat_setWidth]
  omega

/-! ## `POP` -/

/-- Byte `k` of the lanes by their byte view (R22). -/
theorem byte?_st_eq (s : State) (k : Nat) : s.byte? .st k = (stateBytes s.a)[k]? := by
  by_cases hk : k < 200
  · rw [byte?_st s hk, List.getElem?_eq_getElem (by simpa using hk), stateBytes_getElem]
  · have hnone : ¬ (s.byte? .st k).isSome := mt (byte?_isSome s .st k).mp hk
    rw [List.getElem?_eq_none (by simpa using hk)]
    simpa using hnone

/-- `POP` of a byte that is left (R175). -/
theorem exec_pop_of_byte? {s : State} {d : Byte} (hp : s.phase = .out) (hleft : s.optr ≠ s.olen)
    (hd : s.byte? s.osrc.store s.optr.toNat = some d) :
    exec .pop s = .next { s with optr := s.optr + 1#8, rsp := some (byteResponse d) } := by
  show execPop s = _
  rw [execPop, guarded_of_phase_eq hp (by decide), if_neg hleft, readByte_of_byte? hd]
  simp only [respond_eq, (flagF_eq_false { s with optr := s.optr + 1#8 }).mpr (by simp [hp]), rspWord_byte]

/-- `POP` inside the presented store (R175, R59). -/
theorem exec_pop_of_lt_size {s : State} (hp : s.phase = .out) (hleft : s.optr ≠ s.olen)
    (hsize : s.optr.toNat < s.osrc.store.size) :
    exec .pop s = .next { s with
      optr := s.optr + 1#8, rsp := (s.byte? s.osrc.store s.optr.toNat).map byteResponse } := by
  obtain ⟨d, hd⟩ := Option.isSome_iff_exists.mp ((byte?_isSome s _ _).mpr hsize)
  rw [exec_pop_of_byte? hp hleft hd, hd]
  rfl

theorem exec_pop_of_none_left {s : State} (hp : s.phase = .out) (hend : s.optr = s.olen) :
    exec .pop s = .next (faulted s .outEmpty) := by
  show execPop s = _
  rw [execPop, guarded_of_phase_eq hp (by decide), if_pos hend, raiseMisuse_eq_faulted]

/-- Settles O33: `OSRC` names the store, whose byte `OPTR` is in range by the bound given. -/
theorem popReadsTheNextByte : Obligations.PopReadsTheNextByte := by
  refine fun s => ⟨fun hp hsrc hleft hlt => ?_, fun hp hsrc hleft hlt => ?_, exec_pop_of_none_left,
    fun hp hne => guarded_of_phase_ne hp hne _⟩
  · rw [exec_pop_of_lt_size hp hleft (by rw [hsrc]; exact hlt), hsrc, ← byte?_st_eq]
    rfl
  · rw [exec_pop_of_lt_size hp hleft (by rw [hsrc]; exact hlt), hsrc]
    rfl

/-! ## `STAT` -/

/-- A `STAT` answers its register's number with `F` in bit 31 (R78, R176). -/
theorem answerStat_eq_ofNat (s : State) (value : Half) :
    answerStat s value = .next { s with
      rsp := some (BitVec.ofNat 32 ((if s.phase = .fault then 0x80000000 else 0) + value.toNat)) } := by
  rw [answerStat, respond_eq, rspWord_eq_ofNat]
  simp only [flagF_eq_true]

/-- `STATUS` as a number: its fields do not overlap (R35). -/
theorem srStatus_toNat (s : State) :
    s.srStatus.toNat = s.phase.code.toNat + 4 * s.mode.code.toNat + 16 * s.osrc.code.toNat := by
  have hfields : ∀ (o : BitVec 1) (m p : BitVec 2),
      (0#11 ++ o ++ m ++ p).toNat = p.toNat + 4 * m.toNat + 16 * o.toNat := by decide
  exact hfields _ _ _

theorem srCause_toNat (s : State) : s.srCause.toNat = s.cause.code.toNat :=
  BitVec.toNat_setWidth_of_le (by decide)

/-- `OUTP` as a number: `OPTR` in the low byte, `OLEN` in the high one (R35). -/
theorem srOutp_toNat (s : State) : s.srOutp.toNat = s.optr.toNat + 256 * s.olen.toNat := by
  have hlow := s.optr.isLt
  rw [State.srOutp, BitVec.toNat_append, ← Nat.shiftLeft_add_eq_or_of_lt hlow, Nat.shiftLeft_eq]
  omega

/-- Settles O34: the seven registers as numbers, in one form of response. -/
theorem statReadsItsRegister : Obligations.StatReadsItsRegister := by
  intro s f
  obtain ⟨hstatus, hcause, hlen, hrate, hfill, houtp, hid⟩ := exec_stat s
  refine ⟨?_, ?_, ?_, ?_, ?_, ?_, ?_⟩
  · rw [hstatus, answerStat_eq_ofNat, srStatus_toNat, ← Nat.add_assoc, ← Nat.add_assoc]
  · rw [hcause, answerStat_eq_ofNat, srCause_toNat]
  · exact hlen.trans (answerStat_eq_ofNat s s.srLen)
  · rw [hrate, answerStat_eq_ofNat, State.srRate, BitVec.toNat_setWidth_of_le (by decide)]
  · rw [hfill, answerStat_eq_ofNat, State.srFill, BitVec.toNat_setWidth_of_le (by decide)]
  · rw [houtp, answerStat_eq_ofNat, srOutp_toNat, ← Nat.add_assoc]
  · exact hid.trans (answerStat_eq_ofNat s s.srId)

/-! ## `END` -/

/-- Settles O35: what `END` scrubs is every register but `CAUSE` and the response. -/
theorem endScrubsTheCall : Obligations.EndScrubsTheCall := by
  refine fun s => ⟨fun hp => ?_, fun hp hne => guarded_of_phase_ne hp hne _⟩
  show execEndCall s = _
  rw [execEndCall, guarded_of_phase_eq hp (by decide), complete_ok, respond_zero_of_ne_fault (by simp)]
  rfl

/-! ## The phases of a call -/

/-- A successful command keeps `PHASE` or makes one of the three moves of a call (R170). -/
theorem completes_phase {s t : State} {i : Instr} (h : Completes s i t) :
    t.phase = s.phase ∨
      (s.phase = .idle ∧ t.phase = .absorb ∧ t.mode ≠ .none ∧ ((∃ len, i = .hstart len) ∨ i = .pstart ∨ i = .rstart)) ∨
      (s.phase = .absorb ∧ t.phase = .out ∧ (i = .fin ∨ i = .finr)) ∨
      (s.phase = .out ∧ t.phase = .idle ∧ t.mode = .none ∧ i = .endCall) := by
  cases h with
  | nop => exact .inl rfl
  | hstart hp => exact .inr (.inl ⟨hp, rfl, nofun, .inl ⟨_, rfl⟩⟩)
  | pstart hp => exact .inr (.inl ⟨hp, rfl, nofun, .inr (.inl rfl)⟩)
  | rstart hp => exact .inr (.inl ⟨hp, rfl, nofun, .inr (.inr rfl)⟩)
  | pushHash => exact .inl rfl
  | pushHashFull => exact .inl rfl
  | pushPerm => exact .inl rfl
  | pushRed => exact .inl rfl
  | finHash hp => exact .inr (.inr (.inl ⟨hp, rfl, .inl rfl⟩))
  | finPerm hp => exact .inr (.inr (.inl ⟨hp, rfl, .inl rfl⟩))
  | finRed hp => exact .inr (.inr (.inl ⟨hp, rfl, .inl rfl⟩))
  | finr hp => exact .inr (.inr (.inl ⟨hp, rfl, .inr rfl⟩))
  | pop => exact .inl rfl
  | stat => exact .inl rfl
  | endCall hp => exact .inr (.inr (.inr ⟨hp, rfl, rfl, rfl⟩))

/-- Settles O37: of the three outcomes of a command, `dropped` needs `FAULT` before and a misuse is `FAULT` after. -/
theorem phaseMovesOnlyAlongACall : Obligations.PhaseMovesOnlyAlongACall := by
  intro i s t h hne
  rcases exec_outcomes h with ⟨hp, -⟩ | ⟨-, c, -, rfl⟩ | hdone
  · exact absurd hp hne
  · exact .inr (.inl rfl)
  · exact (completes_phase hdone).imp_right .inr

end Sys2Proof
end

section
/-! SUPPORT. Commands presented at the ports (10_state.md R42, 43_call_control.md R178, R179): no command reads or writes the
host's further moments, so a list of commands runs at the ports as it does one command after another. -/

namespace Sys2Proof

open Machine

/-! ## Store operations and the host's moments -/

/-- `s` with other moments of the host ahead. -/
def withInputs (ins : List Pins) (s : State) : State := { s with inputs := ins }

section
variable {ins : List Pins}

/-- A chain of store operations treats the host's moments as its parts do. -/
theorem bind_withInputs {x y : Except Fault State} {f g : State → Except Fault State}
    (hx : y = x.map (withInputs ins)) (hf : ∀ u, g (withInputs ins u) = (f u).map (withInputs ins)) :
    (y >>= g) = (x >>= f).map (withInputs ins) := by
  subst hx
  cases x with
  | ok u => exact hf u
  | error e => rfl

/-- A chain that begins with a read, whose value does not depend on the host's moments. -/
theorem bind_read_withInputs {α : Type} {x y : Except Fault α} {f g : α → Except Fault State}
    (hx : y = x) (hf : ∀ v, g v = (f v).map (withInputs ins)) : (y >>= g) = (x >>= f).map (withInputs ins) := by
  subst hx
  cases y with
  | ok v => exact hf v
  | error e => rfl

variable (ins) (s : State)

theorem writeByte_withInputs (S : Store) (k : Nat) (b : Byte) :
    (withInputs ins s).writeByte S k b = (s.writeByte S k b).map (withInputs ins) := by
  cases S <;> simp only [State.writeByte] <;> split <;> rfl

theorem zeroFill_withInputs (n k : Nat) :
    zeroFill n k (withInputs ins s) = (zeroFill n k s).map (withInputs ins) := by
  induction n generalizing k s with
  | zero => rfl
  | succ n ih => exact bind_withInputs (writeByte_withInputs ins s .buf k 0#8) fun u => ih u (k + 1)

theorem memRead_withInputs (S : Store) (k n : Nat) : (withInputs ins s).memRead S k n = s.memRead S k n := by
  induction n generalizing k with
  | zero => rfl
  | succ n ih => simp only [State.memRead, ih]; rfl

theorem absorbWord_withInputs (i : Nat) :
    absorbWord (withInputs ins s) i = (absorbWord s i).map (withInputs ins) := by
  refine bind_read_withInputs (memRead_withInputs ins s .buf (8 * i) 8) fun v => ?_
  split <;> rfl

theorem absorbWords_withInputs (n : Nat) :
    absorbWords n (withInputs ins s) = (absorbWords n s).map (withInputs ins) := by
  induction n with
  | zero => rfl
  | succ n ih => exact bind_withInputs ih fun u => absorbWord_withInputs ins u n

theorem absorbBlock_withInputs : absorbBlock (withInputs ins s) = (absorbBlock s).map (withInputs ins) :=
  absorbWords_withInputs ins s _

theorem padBuffer_withInputs : padBuffer (withInputs ins s) = (padBuffer s).map (withInputs ins) :=
  bind_withInputs (writeByte_withInputs ins s _ _ _) fun u =>
    bind_withInputs (zeroFill_withInputs ins u _ _) fun v =>
      bind_read_withInputs rfl fun _ => writeByte_withInputs ins v _ _ _

theorem finishSponge_withInputs : finishSponge (withInputs ins s) = (finishSponge s).map (withInputs ins) :=
  bind_withInputs (padBuffer_withInputs ins s) fun u => bind_withInputs (absorbBlock_withInputs ins u) fun _ => rfl

/-! ## Commands and the host's moments -/

/-- What a command answers, with other moments of the host ahead. -/
def outWithInputs (ins : List Pins) : Out → Out
  | .next t => .next (withInputs ins t)
  | .fault f => .fault f
  | .refused r => .refused r

theorem complete_withInputs {x y : Except Fault State} (h : y = x.map (withInputs ins)) :
    complete y = outWithInputs ins (complete x) := by
  subst h
  cases x <;> rfl

theorem ite_withInputs {c : Prop} [Decidable c] {x x' y y' : Out} (hx : x' = outWithInputs ins x)
    (hy : y' = outWithInputs ins y) : (if c then x' else y') = outWithInputs ins (if c then x else y) := by
  subst hx hy
  split <;> rfl

theorem unlessFault_withInputs {go go' : Out} (h : go' = outWithInputs ins go) :
    unlessFault (withInputs ins s) go' = outWithInputs ins (unlessFault s go) :=
  ite_withInputs ins rfl h

/-- The two guards read `PHASE` only (R212). -/
theorem guarded_withInputs {p : Phase} {go go' : Out} (h : go' = outWithInputs ins go) :
    unlessFault (withInputs ins s) (requirePhase (withInputs ins s) p go') =
      outWithInputs ins (unlessFault s (requirePhase s p go)) :=
  unlessFault_withInputs ins s (ite_withInputs ins h rfl)

theorem execHstart_withInputs (len : Int) :
    execHstart len (withInputs ins s) = outWithInputs ins (execHstart len s) := by
  refine guarded_withInputs ins s ?_
  cases checkLength len <;> rfl

theorem pushHash_withInputs (b : Byte) : pushHash b (withInputs ins s) = outWithInputs ins (pushHash b s) := by
  refine complete_withInputs ins (bind_withInputs (writeByte_withInputs ins s _ _ _) fun u => ?_)
  show (if u.fill + 1#8 = u.rate then _ else _) = Except.map _ (if u.fill + 1#8 = u.rate then _ else _)
  split
  · exact bind_withInputs (absorbBlock_withInputs ins { u with fill := u.fill + 1#8 }) fun _ => rfl
  · rfl

theorem pushPerm_withInputs (b : Byte) : pushPerm b (withInputs ins s) = outWithInputs ins (pushPerm b s) :=
  ite_withInputs ins rfl (complete_withInputs ins (bind_withInputs (writeByte_withInputs ins s _ _ _) fun _ => rfl))

theorem pushRed_withInputs (b : Byte) : pushRed b (withInputs ins s) = outWithInputs ins (pushRed b s) :=
  ite_withInputs ins rfl (complete_withInputs ins (bind_withInputs (writeByte_withInputs ins s _ _ _) fun _ => rfl))

theorem execPush_withInputs (b : Byte) : execPush b (withInputs ins s) = outWithInputs ins (execPush b s) := by
  refine guarded_withInputs ins s ?_
  show (match s.mode with | .none => _ | .hash => _ | .perm => _ | .red => _) = _
  cases s.mode with
  | none => rfl
  | hash => exact pushHash_withInputs ins s b
  | perm => exact pushPerm_withInputs ins s b
  | red => exact pushRed_withInputs ins s b

theorem finHash_withInputs : finHash (withInputs ins s) = outWithInputs ins (finHash s) :=
  complete_withInputs ins (bind_withInputs (finishSponge_withInputs ins s) fun _ => rfl)

theorem finPerm_withInputs : finPerm (withInputs ins s) = outWithInputs ins (finPerm s) :=
  ite_withInputs ins rfl rfl

theorem finRed_withInputs : finRed (withInputs ins s) = outWithInputs ins (finRed s) :=
  ite_withInputs ins rfl rfl

theorem execFin_withInputs : execFin (withInputs ins s) = outWithInputs ins (execFin s) := by
  refine guarded_withInputs ins s ?_
  show (match s.mode with | .none => _ | .hash => _ | .perm => _ | .red => _) = _
  cases s.mode with
  | none => rfl
  | hash => exact finHash_withInputs ins s
  | perm => exact finPerm_withInputs ins s
  | red => exact finRed_withInputs ins s

theorem execFinr_withInputs : execFinr (withInputs ins s) = outWithInputs ins (execFinr s) :=
  guarded_withInputs ins s <| ite_withInputs ins rfl <| ite_withInputs ins rfl <|
    complete_withInputs ins (bind_withInputs (finishSponge_withInputs ins s) fun _ => rfl)

theorem execPop_withInputs : execPop (withInputs ins s) = outWithInputs ins (execPop s) := by
  refine guarded_withInputs ins s (ite_withInputs ins rfl ?_)
  show (match s.readByte s.osrc.store s.optr.toNat with | .ok d => _ | .error f => _) = _
  cases s.readByte s.osrc.store s.optr.toNat <;> rfl

/-- No command reads or writes the host's further moments (R11, R178). -/
theorem exec_withInputs (i : Instr) : exec i (withInputs ins s) = outWithInputs ins (exec i s) := by
  cases i with
  | nop => exact unlessFault_withInputs ins s rfl
  | hstart len => exact execHstart_withInputs ins s len
  | pstart => exact guarded_withInputs ins s rfl
  | rstart => exact guarded_withInputs ins s rfl
  | push b => exact execPush_withInputs ins s b
  | fin => exact execFin_withInputs ins s
  | finr => exact execFinr_withInputs ins s
  | pop => exact execPop_withInputs ins s
  | endCall => exact guarded_withInputs ins s rfl
  | statStatus => rfl
  | statCause => rfl
  | statLen => rfl
  | statRate => rfl
  | statFill => rfl
  | statOutp => rfl
  | statId => rfl

end

/-! ## Presenting a command and taking its response -/

/-- Settles O5: the moment passes, the word is accepted, and acceptance is decoding and execution. -/
theorem stepRunsDecodedCommand : Obligations.StepRunsDecodedCommand := by
  intro s p rest w i hin hrst hrsp hcmd hdec
  calc step s
    _ = hostMoment p { s with inputs := rest } := step_of_cons hin
    _ = accept w { s with inputs := rest } := hostMoment_of_command hrst hrsp hcmd
    _ = exec i { s with inputs := rest } := by simp only [accept, hdec]

/-- The host takes the response, if one is pending (R42). -/
theorem hostMoment_take (s : State) : hostMoment Pins.take s = .next { s with rsp := none } := by
  cases hrsp : s.rsp with
  | some r => exact hostMoment_of_pending rfl hrsp
  | none =>
    rw [hostMoment_of_quiet rfl hrsp rfl, ← hrsp]

theorem core_run_of_next {s t : State} (h : step s = .next t) (n : Nat) : core.run (n + 1) s = core.run n t := by
  have hcore : core.step s = .next t := h
  simp only [Host.Core.run, hcore]

/-- A command at the ports takes two steps: its word is presented, its response taken (R42, R179). -/
theorem core_run_command {i : Instr} {s t : State} (hwf : i.wf = true) (hrsp : s.rsp = none)
    (h : exec i s = .next t) (rest : List Pins) (n : Nat) :
    core.run (n + 2) (withInputs (Pins.present (encode i) :: Pins.take :: rest) s) =
      core.run n (withInputs rest { t with rsp := none }) := by
  have hpresent : step (withInputs (Pins.present (encode i) :: Pins.take :: rest) s) =
      .next (withInputs (Pins.take :: rest) t) :=
    calc step (withInputs (Pins.present (encode i) :: Pins.take :: rest) s)
      _ = exec i (withInputs (Pins.take :: rest) s) :=
        stepRunsDecodedCommand (withInputs _ s) (Pins.present (encode i)) _ (encode i) i rfl rfl hrsp rfl
          (decodeEncodeRoundTrip i hwf)
      _ = outWithInputs (Pins.take :: rest) (exec i s) := exec_withInputs _ s i
      _ = .next (withInputs (Pins.take :: rest) t) := by rw [h]; rfl
  have htake : step (withInputs (Pins.take :: rest) t) = .next (withInputs rest { t with rsp := none }) :=
    (step_of_cons rfl).trans (hostMoment_take _)
  rw [core_run_of_next hpresent, core_run_of_next htake]

/-! ## Lists of commands -/

/-- The first command of a run and the run of the others. -/
theorem runCommands_cons_eq_some {i : Instr} {is : List Instr} {s t : State} {rs : List Word}
    (h : runCommands (i :: is) s = some (t, rs)) :
    ∃ u qs, exec i s = .next u ∧ runCommands is { u with rsp := none } = some (t, qs) ∧ rs = u.rsp.toList ++ qs := by
  rw [runCommands] at h
  split at h
  · obtain ⟨⟨t', qs⟩, hrest, heq⟩ := Option.map_eq_some_iff.mp h
    cases heq
    exact ⟨_, qs, ‹_›, hrest, rfl⟩
  · cases h
  · cases h

theorem runCommands_inputs {is : List Instr} {s t : State} {rs : List Word}
    (h : runCommands is s = some (t, rs)) : t.inputs = s.inputs := by
  induction is generalizing s rs with
  | nil => cases h; rfl
  | cons i is ih =>
    obtain ⟨u, qs, hexec, hrest, -⟩ := runCommands_cons_eq_some h
    obtain ⟨-, -, -, hin⟩ := whoWritesControlRegisters i s u hexec
    exact (ih hrest).trans hin

/-- The machine at its ports, with the words of the commands ahead, goes where the commands take it (R179). -/
theorem core_run_programPins {is : List Instr} {s t : State} {rs : List Word} (hwf : ∀ i ∈ is, i.wf = true)
    (hrsp : s.rsp = none) (h : runCommands is s = some (t, rs)) :
    core.run (2 * is.length) (withInputs (programPins (is.map encode)) s) = .next (withInputs [] t) := by
  induction is generalizing s rs with
  | nil => cases h; rfl
  | cons i is ih =>
    obtain ⟨u, qs, hexec, hrest, -⟩ := runCommands_cons_eq_some h
    obtain ⟨hi, his⟩ := List.forall_mem_cons.mp hwf
    exact (core_run_command hi hrsp hexec _ _).trans (ih his rfl hrest)

/-- Settles O10: with nothing from the host ahead before, there is nothing ahead after the program either. -/
theorem portsRunCommandsInOrder : Obligations.PortsRunCommandsInOrder := by
  intro is s t rs hwf hrsp hin h
  have hlast : t.inputs = [] := (runCommands_inputs h).trans hin
  have hsame : withInputs [] t = t := by rw [withInputs, ← hlast]
  exact hsame ▸ core_run_programPins hwf hrsp h

end Sys2Proof
end

section
/-! SUPPORT. Whole calls (43_call_control.md R170, R179, R180): a run of commands with its responses and what holds of its last
state, the three parts every call has, and the four calls. -/

namespace Sys2Proof

open Machine

/-! ## Runs -/

/-- From `s` the commands `is` answer the responses `rs` and end in a state of which `Q` holds (R179). -/
def Runs (is : List Instr) (s : State) (rs : List Word) (Q : State → Prop) : Prop :=
  ∃ t, runCommands is s = some (t, rs) ∧ Q t

namespace Runs

variable {is js : List Instr} {i : Instr} {s t : State} {rs qs : List Word} {r : Word} {P Q : State → Prop}

theorem nil (h : Q s) : Runs [] s [] Q := ⟨s, rfl, h⟩

/-- A command with its response, the response taken before the commands after it. -/
theorem cons (hexec : exec i s = .next t) (hrsp : t.rsp = some r) (h : Runs is { t with rsp := none } rs Q) :
    Runs (i :: is) s (r :: rs) Q := by
  obtain ⟨u, hrun, hu⟩ := h
  refine ⟨u, ?_, hu⟩
  rw [runCommands, hexec]
  simp [hrun, hrsp]

theorem single (hexec : exec i s = .next t) (hrsp : t.rsp = some r) (h : Q { t with rsp := none }) :
    Runs [i] s [r] Q := cons hexec hrsp (nil h)

/-- One run after another: what the first one ends with is what the second one starts from. -/
theorem append (h : Runs is s rs P) (hnext : ∀ u, P u → Runs js u qs Q) : Runs (is ++ js) s (rs ++ qs) Q := by
  obtain ⟨u, hrun, hu⟩ := h
  induction is generalizing s rs with
  | nil => cases hrun; exact hnext _ hu
  | cons i is ih =>
    obtain ⟨v, vs, hexec, hrest, rfl⟩ := runCommands_cons_eq_some hrun
    obtain ⟨w, hw, hQ⟩ := ih hrest
    refine ⟨w, ?_, hQ⟩
    rw [List.cons_append, runCommands, hexec]
    simp [hw]

end Runs

/-- Running commands keeps the between-command invariant, each response being taken (R40, R42). -/
theorem Inv.runCommands {is : List Instr} {s t : State} {rs : List Word} (h : Inv s)
    (hrun : Sys2Proof.runCommands is s = some (t, rs)) : Inv t := by
  induction is generalizing s rs with
  | nil => cases hrun; exact h
  | cons i is ih =>
    obtain ⟨u, qs, hexec, hrest, -⟩ := runCommands_cons_eq_some hrun
    exact ih ((h.exec hexec).channel (responseForm_none _) u.inputs) hrest

/-- No call and no response pending. -/
def AtRest (t : State) : Prop := t.phase = .idle ∧ t.rsp = none

/-- A run that ends with no call and no response ends in the reset state (R39, R180). -/
theorem Runs.runCommands_eq {is : List Instr} {s : State} {rs : List Word} (hinv : Inv s) (h : Runs is s rs AtRest) :
    runCommands is s = some ({ State.reset with inputs := s.inputs }, rs) := by
  obtain ⟨t, hrun, hp, hrsp⟩ := h
  have ht : t = { State.reset with inputs := s.inputs } := by
    rw [(hinv.runCommands hrun).eq_reset_of_idle hp, hrsp, runCommands_inputs hrun]
    rfl
  rw [hrun, ht]

/-! ## The parts of a call -/

/-- `PUSH` of each byte of `bs`, when `P m` says what holds after the bytes `m` and there is room for `cap` of them. -/
theorem runs_push {P : List Byte → State → Prop} {cap : Nat}
    (hpush : ∀ m b u, m.length < cap → P m u → Runs [.push b] u [0#32] (P (m ++ [b])))
    {bs m : List Byte} {s : State} (hcap : m.length + bs.length ≤ cap) (h : P m s) :
    Runs (bs.map .push) s (List.replicate bs.length 0#32) (P (m ++ bs)) := by
  induction bs generalizing m s with
  | nil => exact .nil (by rwa [List.append_nil])
  | cons b bs ih =>
    rw [List.length_cons] at hcap
    have hfirst := hpush m b s (by omega) h
    refine hfirst.append (js := bs.map .push) (qs := List.replicate bs.length 0#32) fun u hu => ?_
    have hrest := ih (m := m ++ [b]) (by rw [List.length_append, List.length_singleton]; omega) hu
    rwa [List.append_assoc] at hrest

/-- The bytes of a store (R22, R50). -/
def storeBytes (s : State) : Store → List Byte
  | .st => stateBytes s.a
  | .buf => s.buf.toList
  | .sreg => s.sreg.toList

theorem byte?_eq_storeBytes (s : State) (S : Store) (k : Nat) : s.byte? S k = (storeBytes s S)[k]? := by
  cases S with
  | st => exact byte?_st_eq s k
  | buf => exact Vector.getElem?_toList.symm
  | sreg => exact Vector.getElem?_toList.symm

/-- A result of which the bytes `d` are still to be read (R33, R175). -/
structure Presents (d : List Byte) (s : State) : Prop where
  /-- The call has its result. -/
  phase : s.phase = .out
  /-- `OPTR` counts up to `OLEN` (R33). -/
  left : s.optr.toNat + d.length = s.olen.toNat
  /-- They are the bytes of the presented store from `OPTR` on. -/
  bytes : d <+: (storeBytes s s.osrc.store).drop s.optr.toNat

/-- A result of which nothing is read yet. -/
theorem presents_of_unread {d : List Byte} {s : State} (hp : s.phase = .out) (hptr : s.optr = 0#8)
    (hlen : d.length = s.olen.toNat) (hd : d <+: storeBytes s s.osrc.store) : Presents d s where
  phase := hp
  left := by rw [hptr, ← hlen]; exact Nat.zero_add _
  bytes := by rw [hptr]; exact hd

/-- `POP` answers the first byte that is left. -/
theorem Presents.pop {b : Byte} {d : List Byte} {s : State} (h : Presents (b :: d) s) :
    Runs [.pop] s [byteResponse b] (Presents d) := by
  obtain ⟨hp, hleft, rest, hrest⟩ := h
  rw [List.length_cons] at hleft
  have hcount : (s.optr + 1#8).toNat = s.optr.toNat + 1 := by bv_omega
  have hfewer : (s.optr + 1#8).toNat + d.length = s.olen.toNat := by omega
  have hfirst : s.byte? s.osrc.store s.optr.toNat = some b := by
    rw [byte?_eq_storeBytes, ← List.head?_drop, ← hrest]
    rfl
  have hothers : d <+: (storeBytes s s.osrc.store).drop (s.optr + 1#8).toNat :=
    ⟨rest, by rw [hcount, ← List.tail_drop, ← hrest]; rfl⟩
  exact .single (exec_pop_of_byte? hp (by bv_omega) hfirst) rfl ⟨hp, hfewer, hothers⟩

/-- As many `POP` as bytes are left read them all (R175). -/
theorem Presents.pops {d : List Byte} {s : State} (h : Presents d s) :
    Runs (List.replicate d.length .pop) s (d.map byteResponse) (Presents []) := by
  induction d generalizing s with
  | nil => exact .nil h
  | cons b d ih => exact h.pop.append fun _ => ih

/-- `END` after the last byte (R177). -/
theorem Presents.endCall {s : State} (h : Presents [] s) : Runs [.endCall] s [0#32] AtRest := by
  obtain ⟨hend, -⟩ := endScrubsTheCall s
  exact .single (hend h.phase) rfl ⟨rfl, rfl⟩

/-- A call whose START-type command leaves a state with no byte taken, whose `PUSH` takes one more byte, and whose FIN-type
command presents `d`, answers `d` (R170). -/
theorem runs_callCommands {P : List Byte → State → Prop} {start finish : Instr} {pushed d : List Byte} {s : State}
    (hstart : Runs [start] s [0#32] (P []))
    (hpush : ∀ m b u, m.length < pushed.length → P m u → Runs [.push b] u [0#32] (P (m ++ [b])))
    (hfinish : ∀ u, P pushed u → Runs [finish] u [0#32] (Presents d)) :
    Runs (callCommands start pushed finish d.length) s (callResponses pushed d) AtRest := by
  have hresponses : callResponses pushed d =
      [0#32] ++ List.replicate pushed.length 0#32 ++ [0#32] ++ d.map byteResponse ++ [0#32] := by
    rw [callResponses, List.replicate_succ, List.replicate_succ']
    rfl
  have hpushes : ∀ u, P [] u → Runs (pushed.map .push) u (List.replicate pushed.length 0#32) (P pushed) :=
    fun u => runs_push hpush (m := []) (by simp)
  rw [hresponses]
  exact (((hstart.append hpushes).append hfinish).append fun _ => Presents.pops).append fun _ => Presents.endCall

/-! ## Hash calls -/

/-- A call of length `n` that has taken the message `m`. -/
def Hashing (n : Nat) (m : List Byte) (s : State) : Prop := HasAbsorbed m s ∧ s.len.toNat = n

/-- After `HSTART` nothing is absorbed (R113, R120). -/
theorem runs_hstart {n : Nat} {s : State} (hn : n ∈ validLengths) (hp : s.phase = .idle) :
    Runs [.hstart n] s [0#32] (Hashing n []) := by
  have hcheck := checkLength_of_mem_validLengths hn
  obtain ⟨hlen, hrate⟩ := hstart_registers hcheck
  have hvalue : (BitVec.ofInt 16 n).toNat = n := by
    have := le_200_of_mem_validLengths hn
    rw [BitVec.ofInt_natCast, BitVec.toNat_ofNat, Nat.mod_eq_of_lt (by omega)]
  refine .single (exec_hstart_of_checkLength_none hp hcheck) rfl ⟨⟨rfl, rfl, hlen, hrate, ?_, ?_, ?_⟩, hvalue⟩
  · exact (Nat.zero_mod _).symm
  · simp [absorbBlocks]
  · simp

/-- `PUSH` takes one more byte of the message (R114, R120). -/
theorem Hashing.push {n : Nat} {m : List Byte} {s : State} (h : Hashing n m s) (b : Byte) :
    Runs [.push b] s [0#32] (Hashing n (m ++ [b])) := by
  obtain ⟨habs, hlen⟩ := h
  obtain ⟨t, hexec, hrsp, ht, hkeep⟩ := pushExtendsAbsorbedMessage m b s habs
  exact .single hexec hrsp ⟨ht, (congrArg BitVec.toNat hkeep).trans hlen⟩

/-- The last block can be made, and leaves the lanes `hash` takes its bytes from (R110, R116). -/
theorem HasAbsorbed.exists_finishSponge {m : List Byte} {s : State} (h : HasAbsorbed m s) :
    ∃ u, finishSponge s = .ok u ∧ hash m s.len.toNat = .ok ((stateBytes u.a).take s.len.toNat) := by
  have hbounds := h.rate_bounds
  obtain ⟨u, hu, -, -, -, ha⟩ := finishSponge_spec s h.fill_lt_rate (by omega)
  have hlanes : u.a = digestLanes m s.rate.toNat := ha.trans h.finish_lanes
  obtain ⟨-, -, hlen, hrate, -⟩ := h
  refine ⟨u, hu, ?_⟩
  rw [hash_of_checkLength_none m (checkLength_of_mem_validLengths hlen), ← hrate, hlanes]
  rfl

/-- `FIN` presents the hash (R116, R118). -/
theorem Hashing.fin {n : Nat} {m d : List Byte} {s : State} (h : Hashing n m s) (hd : hash m n = .ok d) :
    Runs [.fin] s [0#32] (Presents d) := by
  obtain ⟨habs, hlen⟩ := h
  obtain ⟨u, hu, hhash⟩ := habs.exists_finishSponge
  obtain ⟨hp, hm, hvalid, -⟩ := habs
  rw [hlen, hd, Except.ok.injEq] at hhash
  have hn := le_200_of_mem_validLengths (hlen ▸ hvalid)
  have holen : (s.len.setWidth 8).toNat = n := by
    rw [BitVec.toNat_setWidth, hlen, Nat.mod_eq_of_lt (by omega)]
  have hcount : d.length = (s.len.setWidth 8).toNat := by
    rw [holen, hhash, List.length_take, length_stateBytes]
    omega
  have hbytes : d <+: stateBytes u.a := hhash ▸ List.take_prefix _ _
  exact .single (exec_fin_of_finishSponge hp hm hu) rfl (presents_of_unread rfl rfl hcount hbytes)

/-- Settles O47: the call is the start of an absorption, one extension a byte, and the presentation of the hash. -/
theorem hashCallAnswersTheHash : Obligations.HashCallAnswersTheHash := by
  intro m n s hn hinv hp
  obtain ⟨d, hd⟩ := (exists_hash_eq_ok_iff m n).mpr (checkLength_of_mem_validLengths hn)
  have hlength : d.length = n := Int.ofNat_inj.mp (length_of_hash_eq_ok hd)
  have hcall := runs_callCommands (runs_hstart hn hp) (fun _ b _ _ h => Hashing.push h b)
    fun _ h => Hashing.fin (m := m) h hd
  rw [hlength] at hcall
  exact ⟨d, hd, hcall.runCommands_eq hinv⟩

/-! ## Reduced hash calls -/

/-- A scalar read back from its bytes. -/
theorem scalarOfBytes_toList (x : Scalar) : scalarOfBytes x.toList = x := by
  apply Vector.ext
  intro k hk
  simp [scalarOfBytes]

/-- `FINR` presents the scalar of the hash (R155, R156). -/
theorem Hashing.finr {m d : List Byte} {s : State} (h : Hashing 32 m s) (hd : hash m 32 = .ok d) :
    Runs [.finr] s [0#32] (Presents (reduceModL (scalarOfBytes d)).toList) := by
  obtain ⟨habs, hlen⟩ := h
  obtain ⟨u, hu, hhash⟩ := habs.exists_finishSponge
  obtain ⟨hp, hm, -⟩ := habs
  have hdigest : digestScalar u.a = scalarOfBytes d := by
    rw [hlen] at hhash
    obtain rfl : d = (stateBytes u.a).take 32 := Except.ok.inj (hd.symm.trans hhash)
    rw [← digestScalar_toList, scalarOfBytes_toList]
  have hlen32 : s.len = 32#16 := BitVec.eq_of_toNat_eq hlen
  rw [← hdigest]
  exact .single (exec_finr_of_finishSponge hp hm hlen32 hu) rfl
    (presents_of_unread rfl rfl (Vector.length_toList) (List.prefix_refl _))

/-- Settles O48: the call of O47 with the reducer after the sponge. -/
theorem hashToScalarCallAnswersTheScalar : Obligations.HashToScalarCallAnswersTheScalar := by
  intro m s hinv hp
  obtain ⟨d, hd⟩ := (exists_hash_eq_ok_iff m 32).mpr rfl
  have hcall := runs_callCommands (runs_hstart (n := 32) (by decide) hp) (fun _ b _ _ h => Hashing.push h b)
    fun _ h => Hashing.finr (m := m) h hd
  rw [Vector.length_toList] at hcall
  refine ⟨reduceModL (scalarOfBytes d), ?_, hcall.runCommands_eq hinv⟩
  rw [hashToScalar]
  exact congrArg (· >>= _) hd

/-! ## Raw calls -/

/-- A raw call that has taken the bytes `m` into the first bytes of its store (R153, R173). -/
structure HasLoaded (mode : Mode) (S : Store) (m : List Byte) (s : State) : Prop where
  /-- The call takes its operand. -/
  phase : s.phase = .absorb
  /-- It is a call of this mode (R28). -/
  mode_eq : s.mode = mode
  /-- `FILL` counts the bytes (R32). -/
  fill : s.fill.toNat = m.length
  /-- They stand in the store. -/
  bytes : ∀ k, k < m.length → s.byte? S k = m[k]?

namespace HasLoaded

variable {mode : Mode} {S : Store} {m : List Byte} {s t : State}

/-- One more byte, written at `FILL`, the others left as they are. -/
theorem append (h : HasLoaded mode S m s) {b : Byte} (hphase : t.phase = s.phase) (hmode : t.mode = s.mode)
    (hfill : t.fill.toNat = s.fill.toNat + 1) (hsame : t.byte? S s.fill.toNat = some b)
    (hother : ∀ k, k ≠ s.fill.toNat → t.byte? S k = s.byte? S k) : HasLoaded mode S (m ++ [b]) t where
  phase := hphase.trans h.phase
  mode_eq := hmode.trans h.mode_eq
  fill := by rw [hfill, h.fill, List.length_append, List.length_singleton]
  bytes k hk := by
    rw [List.length_append, List.length_singleton] at hk
    rcases Nat.lt_succ_iff_lt_or_eq.mp hk with hlt | rfl
    · rw [hother k (by rw [h.fill]; omega), h.bytes k hlt, List.getElem?_append_left hlt]
    · rw [← h.fill, hsame, h.fill, List.getElem?_concat_length]

/-- With its store full the call has loaded all of it. -/
theorem storeBytes_eq (h : HasLoaded mode S m s) (hfull : m.length = (storeBytes s S).length) : storeBytes s S = m := by
  apply List.ext_getElem?
  intro k
  by_cases hk : k < m.length
  · rw [← byte?_eq_storeBytes, h.bytes k hk]
  · rw [List.getElem?_eq_none (by omega), List.getElem?_eq_none (by omega)]

theorem push_red (h : HasLoaded .red .sreg m s) (b : Byte) (hroom : m.length < 32) :
    Runs [.push b] s [0#32] (HasLoaded .red .sreg (m ++ [b])) := by
  obtain ⟨hpush, -⟩ := pushInRedMode s b h.mode_eq
  obtain ⟨t, hexec, hrsp, hfill, hsame, hother, hframe⟩ := hpush h.phase (h.fill ▸ hroom)
  have hphase : t.phase = s.phase := by rw [hframe]
  have hmode : t.mode = s.mode := by rw [hframe]
  exact .single hexec hrsp (h.append hphase hmode hfill hsame hother)

theorem push_perm (h : HasLoaded .perm .st m s) (b : Byte) (hroom : m.length < 200) :
    Runs [.push b] s [0#32] (HasLoaded .perm .st (m ++ [b])) := by
  obtain ⟨hpush, -⟩ := pushInPermMode s b h.mode_eq
  obtain ⟨t, hexec, hrsp, hfill, hsame, hother, hframe⟩ := hpush h.phase (h.fill ▸ hroom)
  have hphase : t.phase = s.phase := by rw [hframe]
  have hmode : t.mode = s.mode := by rw [hframe]
  exact .single hexec hrsp (h.append hphase hmode hfill hsame hother)

/-- `FIN` presents the residue of the operand loaded (R154). -/
theorem fin_red {x : Scalar} (h : HasLoaded .red .sreg x.toList s) :
    Runs [.fin] s [0#32] (Presents (reduceModL x).toList) := by
  have hsreg : s.sreg = x := Vector.toList_inj.mp (h.storeBytes_eq (by simp [storeBytes]))
  have hfill : s.fill = 32#8 := BitVec.eq_of_toNat_eq (by simpa using h.fill)
  have hcount : (reduceModL x).toList.length = 32 := by rw [Vector.length_toList]
  have hresult : (reduceModL x).toList <+: (reduceModL s.sreg).toList := hsreg ▸ List.prefix_refl _
  exact .single (exec_fin_red_of_loaded h.phase h.mode_eq hfill) rfl (presents_of_unread rfl rfl hcount hresult)

/-- `FIN` presents the permutation of the state loaded (R174). -/
theorem fin_perm {a : Lanes} (h : HasLoaded .perm .st (stateBytes a) s) :
    Runs [.fin] s [0#32] (Presents (stateBytes (permute a))) := by
  have hbytes : stateBytes s.a = stateBytes a := h.storeBytes_eq (by simp [storeBytes])
  have ha : s.a = a := lanes_ext (s := { s with a := a }) fun k => by
    rw [byte?_st_eq, byte?_st_eq, hbytes]
  have hfill : s.fill = 200#8 := BitVec.eq_of_toNat_eq (by simpa using h.fill)
  have hcount : (stateBytes (permute a)).length = 200 := by rw [length_stateBytes]
  have hresult : stateBytes (permute a) <+: stateBytes (permute s.a) := ha ▸ List.prefix_refl _
  exact .single (exec_fin_perm_of_loaded h.phase h.mode_eq hfill) rfl (presents_of_unread rfl rfl hcount hresult)

end HasLoaded

theorem runs_rstart {s : State} (hp : s.phase = .idle) : Runs [.rstart] s [0#32] (HasLoaded .red .sreg []) := by
  obtain ⟨hstart, -⟩ := rstartBeginsReductionCall s
  exact .single (hstart hp) rfl ⟨rfl, rfl, rfl, nofun⟩

theorem runs_pstart {s : State} (hp : s.phase = .idle) : Runs [.pstart] s [0#32] (HasLoaded .perm .st []) := by
  obtain ⟨hstart, -⟩ := pstartBeginsPermutationCall s
  exact .single (hstart hp) rfl ⟨rfl, rfl, rfl, nofun⟩

/-- Settles O49: the call loads the operand byte by byte and presents its residue. -/
theorem reductionCallAnswersTheResidue : Obligations.ReductionCallAnswersTheResidue := by
  intro x s hinv hp
  have hcall := runs_callCommands (pushed := x.toList) (runs_rstart hp)
    (fun _ b _ hroom h => h.push_red b (by simpa using hroom)) fun _ h => h.fin_red
  rw [Vector.length_toList] at hcall
  exact hcall.runCommands_eq hinv

/-- Settles O50: the call loads the state byte by byte and presents its permutation. -/
theorem permutationCallAnswersThePermutedState : Obligations.PermutationCallAnswersThePermutedState := by
  intro a s hinv hp
  have hcall := runs_callCommands (pushed := stateBytes a) (runs_pstart hp)
    (fun _ b _ hroom h => h.push_perm b (by simpa using hroom)) fun _ h => h.fin_perm
  rw [length_stateBytes] at hcall
  exact hcall.runCommands_eq hinv

end Sys2Proof
end

section
/-! SUPPORT. Taking a misuse fault (60_exceptions.md R202 to R209, R213): which command raises which cause, and that the
state of the fault is the state before but for `PHASE`, `CAUSE` and the response. -/

namespace Sys2Proof

open Machine

/-! ## `SEQ` -/

/-- Settles O19: the phase check of each command raises `SEQ`; `FINR` has the check of its mode besides. -/
theorem outOfPhaseRaisesSeq : Obligations.OutOfPhaseRaisesSeq := by
  intro s hne
  refine ⟨fun hp => ⟨fun len => ?_, ?_, ?_⟩, fun hp => ⟨fun b => exec_push_of_phase_ne b hp hne, ?_, ?_⟩,
    exec_finr_of_mode_ne, fun hp => ⟨?_, ?_⟩⟩
  all_goals exact guarded_of_phase_ne hp hne _

/-! ## The length faults of `HSTART` -/

/-- A length check that fails does so with one of the causes 1 to 5 (R112). -/
theorem checkLength_cause_mem {len : Int} {c : Cause} (h : checkLength len = some c) :
    c ∈ [Cause.lenNonpos, .lenRange, .rateZero, .bufOvf, .lenAlign] := by
  unfold checkLength at h
  split_ifs at h <;> cases h <;> decide

theorem checkLength_nonpos {len : Int} (h : len ≤ 0) : checkLength len = some .lenNonpos := if_pos h

/-- Above 100 only the full width is a length (R203). -/
theorem checkLength_above {len : Int} (h : 100 < len) (hfull : len ≠ 200) : checkLength len = some .lenRange := by
  rw [checkLength, if_neg (by omega), if_pos ⟨h, hfull⟩]

theorem checkLength_hundred : checkLength 100 = some .rateZero := rfl

/-- Up to 28 bytes the rate is at least 144, for which `BUF` has no room (R205). -/
theorem checkLength_small {len : Int} (hpos : 1 ≤ len) (h : len ≤ 28) : checkLength len = some .bufOvf := by
  simp only [checkLength, rateOf_half (show len ≠ 200 by omega), Config.lenMaxHalf, Config.bufCap]
  rw [if_neg (by omega), if_neg (by omega), if_neg (by omega), if_pos (by omega)]

/-- From 29 to 99 only the alignment is left to fail (R206). -/
theorem checkLength_unaligned {len : Int} (hlow : 29 ≤ len) (hhigh : len ≤ 99) (h : len % 8 ≠ 0) :
    checkLength len = some .lenAlign := by
  simp only [checkLength, rateOf_half (show len ≠ 200 by omega), Config.lenMaxHalf, Config.bufCap]
  rw [if_neg (by omega), if_neg (by omega), if_neg (by omega), if_neg (by omega), if_pos h]

theorem exec_hstart_of_checkLength_some {s : State} {len : Int} {c : Cause} (hp : s.phase = .idle)
    (hlen : checkLength len = some c) : exec (.hstart len) s = .next (faulted s c) := by
  show execHstart len s = _
  rw [execHstart, guarded_of_phase_eq hp (by decide), hlen, ← raiseMisuse_eq_faulted]

/-- Settles O21: `HSTART` in `IDLE` raises what the length check answers, range by range. -/
theorem hstartLengthFaults : Obligations.HstartLengthFaults := by
  intro s len hp
  refine ⟨fun h => ?_, fun h hfull => ?_, fun h => ?_, fun hpos h => ?_, fun hlow hhigh h => ?_⟩
  · exact exec_hstart_of_checkLength_some hp (checkLength_nonpos h)
  · exact exec_hstart_of_checkLength_some hp (checkLength_above h hfull)
  · exact exec_hstart_of_checkLength_some hp (h ▸ checkLength_hundred)
  · exact exec_hstart_of_checkLength_some hp (checkLength_small hpos h)
  · exact exec_hstart_of_checkLength_some hp (checkLength_unaligned hlow hhigh h)

/-! ## `OPLEN` -/

section
variable {s t : State}

theorem pushHash_cause {b : Byte} (h : pushHash b s = .next t) : t.cause = s.cause := by
  obtain ⟨u, hu, hcases⟩ := pushHash_next h
  have hwrite : u.cause = s.cause := by rw [writeByte_buf_frame hu]
  rcases hcases with ⟨-, v, hv, rfl⟩ | ⟨-, rfl⟩
  · have habsorb : v.cause = u.cause := by rw [absorbBlock_frame hv]
    exact habsorb.trans hwrite
  · exact hwrite

theorem finishSponge_cause {u : State} (h : finishSponge s = .ok u) : u.cause = s.cause := by
  rw [finishSponge_frame h]

theorem finHash_cause (h : finHash s = .next t) : t.cause = s.cause := by
  obtain ⟨u, hu, rfl⟩ := finHash_next h
  have hsponge : u.cause = s.cause := finishSponge_cause hu
  exact hsponge

/-- `OPLEN` was not raised on the way from `s` to `t`. -/
def RaisesNoOplen (s t : State) : Prop := s.cause ≠ .oplen → t.cause ≠ .oplen

theorem raisesNoOplen_of_cause_eq (h : t.cause = s.cause) : RaisesNoOplen s t := fun hs => h ▸ hs

theorem raisesNoOplen_raiseMisuse (s : State) {c : Cause} (hc : c ≠ .oplen) : RaisesNoOplen s (s.raiseMisuse c) :=
  fun _ => hc

theorem execHstart_raisesNoOplen {len : Int} (h : execHstart len s = .next t) : RaisesNoOplen s t := by
  rcases execHstart_next h with ⟨-, rfl⟩ | ⟨-, -, rfl⟩ | ⟨-, c, hc, rfl⟩ | ⟨-, -, rfl⟩
  · exact raisesNoOplen_of_cause_eq rfl
  · exact raisesNoOplen_raiseMisuse s (by decide)
  · have hlen := checkLength_cause_mem hc
    exact raisesNoOplen_raiseMisuse s (by rintro rfl; exact absurd hlen (by decide))
  · exact raisesNoOplen_of_cause_eq rfl

theorem execPush_raisesNoOplen {b : Byte} (hm : s.mode = .hash) (h : execPush b s = .next t) : RaisesNoOplen s t := by
  rcases execPush_next h with ⟨-, rfl⟩ | ⟨-, -, rfl⟩ | ⟨-, -, h⟩ | ⟨-, hm', -⟩ | ⟨-, hm', -⟩
  · exact raisesNoOplen_of_cause_eq rfl
  · exact raisesNoOplen_raiseMisuse s (by decide)
  · exact raisesNoOplen_of_cause_eq (pushHash_cause h)
  · exact nomatch hm.symm.trans hm'
  · exact nomatch hm.symm.trans hm'

theorem execFin_raisesNoOplen (hm : s.mode = .hash) (h : execFin s = .next t) : RaisesNoOplen s t := by
  rcases execFin_next h with ⟨-, rfl⟩ | ⟨-, -, rfl⟩ | ⟨-, -, h⟩ | ⟨-, hm', -⟩ | ⟨-, hm', -⟩
  · exact raisesNoOplen_of_cause_eq rfl
  · exact raisesNoOplen_raiseMisuse s (by decide)
  · exact raisesNoOplen_of_cause_eq (finHash_cause h)
  · exact nomatch hm.symm.trans hm'
  · exact nomatch hm.symm.trans hm'

theorem execFinr_raisesNoOplen (h : execFinr s = .next t) : RaisesNoOplen s t := by
  rcases execFinr_next h with ⟨-, rfl⟩ | ⟨-, -, rfl⟩ | ⟨-, -, rfl⟩ | ⟨-, -, -, rfl⟩ | ⟨-, -, -, u, hu, rfl⟩
  · exact raisesNoOplen_of_cause_eq rfl
  · exact raisesNoOplen_raiseMisuse s (by decide)
  · exact raisesNoOplen_raiseMisuse s (by decide)
  · exact raisesNoOplen_raiseMisuse s (by decide)
  · have hsponge : u.cause = s.cause := finishSponge_cause hu
    exact raisesNoOplen_of_cause_eq hsponge

theorem execPop_raisesNoOplen (h : execPop s = .next t) : RaisesNoOplen s t := by
  rcases execPop_next h with ⟨-, rfl⟩ | ⟨-, -, rfl⟩ | ⟨-, -, rfl⟩ | ⟨-, -, d, -, rfl⟩
  · exact raisesNoOplen_of_cause_eq rfl
  · exact raisesNoOplen_raiseMisuse s (by decide)
  · exact raisesNoOplen_raiseMisuse s (by decide)
  · exact raisesNoOplen_of_cause_eq rfl

/-- A command whose only misuse is `SEQ`. -/
theorem guarded_raisesNoOplen {p : Phase} {go : Out} (hgo : ∀ u, go = .next u → u.cause = s.cause)
    (h : unlessFault s (requirePhase s p go) = .next t) : RaisesNoOplen s t := by
  rcases unlessFault_next h with ⟨-, rfl⟩ | ⟨-, h⟩
  · exact raisesNoOplen_of_cause_eq rfl
  · rcases requirePhase_next h with ⟨-, h⟩ | ⟨-, rfl⟩
    · exact raisesNoOplen_of_cause_eq (hgo t h)
    · exact raisesNoOplen_raiseMisuse s (by decide)

/-- In `HASH` mode no command raises `OPLEN`, in any phase (R209). -/
theorem exec_raisesNoOplen {i : Instr} (hm : s.mode = .hash) (h : exec i s = .next t) : RaisesNoOplen s t := by
  cases i with
  | nop => rcases execNop_next h with ⟨-, rfl⟩ | ⟨-, rfl⟩ <;> exact raisesNoOplen_of_cause_eq rfl
  | hstart len => exact execHstart_raisesNoOplen h
  | pstart | rstart | endCall => exact guarded_raisesNoOplen (by rintro u ⟨⟩; rfl) h
  | push b => exact execPush_raisesNoOplen hm h
  | fin => exact execFin_raisesNoOplen hm h
  | finr => exact execFinr_raisesNoOplen h
  | pop => exact execPop_raisesNoOplen h
  | statStatus | statCause | statLen | statRate | statFill | statOutp | statId =>
    obtain rfl := answerStat_next h
    exact raisesNoOplen_of_cause_eq rfl

theorem accept_raisesNoOplen {w : Word} (hm : s.mode = .hash) (h : accept w s = .next t) : RaisesNoOplen s t := by
  rcases accept_cases w s with ⟨i, -, haccept⟩ | ⟨e, -, haccept⟩
  · exact exec_raisesNoOplen hm (haccept ▸ h)
  · rcases execIllegal_next (haccept ▸ h) with ⟨-, rfl⟩ | ⟨-, rfl⟩
    · exact raisesNoOplen_of_cause_eq rfl
    · exact raisesNoOplen_raiseMisuse s (by decide)

end

/-- Settles O20: the four raising cases are those of `PUSH` and `FIN` in the raw modes; in `HASH` mode none of the causes a
word can raise is `OPLEN`. -/
theorem wrongOperandSizeRaisesOplen : Obligations.WrongOperandSizeRaisesOplen := fun _ =>
  ⟨fun hp hm hfill b => exec_push_perm_of_full b hp hm hfill, exec_fin_perm_of_not_loaded,
    fun hp hm hfill b => exec_push_red_of_full b hp hm hfill, exec_fin_red_of_not_loaded,
    fun hm _ _ hcause h => accept_raisesNoOplen hm h hcause⟩

/-! ## Fault entry -/

/-- No successful command ends in `FAULT` (R213): what enters it is a misuse. -/
theorem exec_fault_entry {i : Instr} {s t : State} (h : exec i s = .next t) (hp : s.phase ≠ .fault)
    (ht : t.phase = .fault) : ∃ c, c ≠ .none ∧ t = s.raiseMisuse c := by
  rcases exec_outcomes h with ⟨hfault, -⟩ | ⟨-, hmisuse⟩ | hdone
  · exact absurd hfault hp
  · exact hmisuse
  · rcases completes_phase hdone with hsame | ⟨-, habsorb, -⟩ | ⟨-, hout, -⟩ | ⟨-, hidle, -⟩
    · exact absurd (hsame ▸ ht) hp
    · exact nomatch habsorb.symm.trans ht
    · exact nomatch hout.symm.trans ht
    · exact nomatch hidle.symm.trans ht

theorem accept_fault_entry {w : Word} {s t : State} (h : accept w s = .next t) (hp : s.phase ≠ .fault)
    (ht : t.phase = .fault) : ∃ c, c ≠ .none ∧ t = s.raiseMisuse c := by
  rcases accept_cases w s with ⟨i, -, haccept⟩ | ⟨e, -, haccept⟩
  · exact exec_fault_entry (haccept ▸ h) hp ht
  · rcases execIllegal_next (haccept ▸ h) with ⟨hfault, -⟩ | ⟨-, rfl⟩
    · exact absurd hfault hp
    · exact ⟨.illegal, by decide, rfl⟩

/-- Settles O15: entry is by `raiseMisuse`, whose state is the one R213 describes. -/
theorem faultEntryIsPrecise : Obligations.FaultEntryIsPrecise := by
  intro w s t h hp ht
  obtain ⟨c, hc, rfl⟩ := accept_fault_entry h hp ht
  exact ⟨hc, raiseMisuse_eq_faulted s c, raiseMisuse_flagF s c⟩

end Sys2Proof
end

section
/-! SUPPORT. The block in `FAULT` (60_exceptions.md R214, R215): every word is answered from the registers `STAT` reads and
changes none, so that reset alone ends the phase and the data stores stay hidden. -/

namespace Sys2Proof

open Machine

/-! ## The answer to a word -/

/-- `DATA` of the response in `FAULT` to a word with the decoding `r`: a legal `STAT` reads its register, all else gets the
cause (R214). -/
def faultData (s : State) (r : Except Illegal Instr) : Half :=
  match r with
  | .ok .statStatus => s.srStatus
  | .ok .statCause => s.srCause
  | .ok .statLen => s.srLen
  | .ok .statRate => s.srRate
  | .ok .statFill => s.srFill
  | .ok .statOutp => s.srOutp
  | .ok .statId => s.srId
  | _ => s.cause.data

section
variable {s : State}

theorem respond_of_fault (hp : s.phase = .fault) (data : Half) :
    s.respond data = { s with rsp := some (rspWord true data) } := by
  rw [respond_eq, (flagF_eq_true s).mpr hp]

theorem answerStat_of_fault (hp : s.phase = .fault) (value : Half) :
    answerStat s value = .next { s with rsp := some (rspWord true value) } := by
  rw [answerStat, respond_of_fault hp]

theorem unlessFault_answer (hp : s.phase = .fault) (go : Out) :
    unlessFault s go = .next { s with rsp := some (rspWord true s.cause.data) } := by
  rw [unlessFault_of_fault hp, State.dropped, respond_of_fault hp]

theorem exec_of_fault (hp : s.phase = .fault) (i : Instr) :
    exec i s = .next { s with rsp := some (rspWord true (faultData s (.ok i))) } := by
  cases i with
  | statStatus | statCause | statLen | statRate | statFill | statOutp | statId => exact answerStat_of_fault hp _
  | nop | hstart | pstart | rstart | push | fin | finr | pop | endCall => exact unlessFault_answer hp _

theorem accept_of_fault (hp : s.phase = .fault) (w : Word) :
    accept w s = .next { s with rsp := some (rspWord true (faultData s (decode w))) } := by
  rcases accept_cases w s with ⟨i, hdecode, haccept⟩ | ⟨e, hdecode, haccept⟩
  · rw [haccept, hdecode]
    exact exec_of_fault hp i
  · rw [haccept, hdecode]
    exact unlessFault_answer hp _

end

/-- Settles O16: the guard drops every command but the `STAT`s, which answer without it. -/
theorem faultPhaseDropsCommands : Obligations.FaultPhaseDropsCommands := fun w _ hp => accept_of_fault hp w

/-- Settles O17: of the moments a step can be, only reset touches more than the channel and the host's moments. -/
theorem faultIsLeftByResetOnly : Obligations.FaultIsLeftByResetOnly := by
  intro s t hp h
  rcases step_cases h with ⟨-, ⟨⟩⟩ | ⟨p, rest, hin, hmoment⟩
  · exact .inl rfl
  · rcases hmoment with ⟨hrst, ⟨⟩⟩ | ⟨-, -, -, ⟨⟩⟩ | ⟨-, -, -, ⟨⟩⟩ | ⟨-, -, -, ⟨⟩⟩ | ⟨-, -, w, -, haccept⟩
    · exact .inr ⟨p, rest, hin, hrst, rfl⟩
    · exact .inl rfl
    · exact .inl rfl
    · exact .inl rfl
    · cases haccept.trans (accept_of_fault (s := { s with inputs := rest }) hp w)
      exact .inl rfl

/-! ## What the host can see -/

namespace SameView

variable {s₁ s₂ : State}

/-- The answer in `FAULT` is in the view. -/
theorem faultData_eq (h : SameView s₁ s₂) (r : Except Illegal Instr) : faultData s₁ r = faultData s₂ r := by
  obtain ⟨hphase, hmode, hosrc, hlen, hrate, hfill, holen, hoptr, hcause, -, -⟩ := h
  simp only [faultData, State.srStatus, State.srCause, State.srLen, State.srRate, State.srFill, State.srOutp,
    State.srId, hphase, hmode, hosrc, hlen, hrate, hfill, holen, hoptr, hcause]

theorem withRsp (h : SameView s₁ s₂) (r : Option Word) : SameView { s₁ with rsp := r } { s₂ with rsp := r } := by
  obtain ⟨hphase, hmode, hosrc, hlen, hrate, hfill, holen, hoptr, hcause, -, hinputs⟩ := h
  exact ⟨hphase, hmode, hosrc, hlen, hrate, hfill, holen, hoptr, hcause, rfl, hinputs⟩

theorem withInputs (h : SameView s₁ s₂) (ins : List Pins) :
    SameView { s₁ with inputs := ins } { s₂ with inputs := ins } := by
  obtain ⟨hphase, hmode, hosrc, hlen, hrate, hfill, holen, hoptr, hcause, hrsp, -⟩ := h
  exact ⟨hphase, hmode, hosrc, hlen, hrate, hfill, holen, hoptr, hcause, hrsp, rfl⟩

theorem phase_eq (h : SameView s₁ s₂) : s₁.phase = s₂.phase := by
  obtain ⟨hphase, -⟩ := h
  exact hphase

theorem rsp_eq (h : SameView s₁ s₂) : s₁.rsp = s₂.rsp := by
  obtain ⟨-, -, -, -, -, -, -, -, -, hrsp, -⟩ := h
  exact hrsp

theorem inputs_eq (h : SameView s₁ s₂) : s₁.inputs = s₂.inputs := by
  obtain ⟨-, -, -, -, -, -, -, -, -, -, hinputs⟩ := h
  exact hinputs

/-- A reset leaves of either state the host's moments only (R230). -/
theorem assertReset (h : SameView s₁ s₂) : SameView s₁.assertReset s₂.assertReset :=
  ⟨rfl, rfl, rfl, rfl, rfl, rfl, rfl, rfl, rfl, rfl, h.inputs_eq⟩

/-- In `FAULT` a moment of the host does the same to both views. -/
theorem hostMoment_of_fault (h : SameView s₁ s₂) (hp : s₁.phase = .fault) (p : Pins) :
    ∃ t₁ t₂, hostMoment p s₁ = .next t₁ ∧ hostMoment p s₂ = .next t₂ ∧ SameView t₁ t₂ := by
  cases hrst : p.rst with
  | true => exact ⟨_, _, if_pos hrst, if_pos hrst, h.assertReset⟩
  | false =>
    cases hrsp : s₁.rsp with
    | some r =>
      exact ⟨_, _, hostMoment_of_pending hrst hrsp, hostMoment_of_pending hrst (h.rsp_eq ▸ hrsp), h.withRsp _⟩
    | none =>
      have hrsp₂ : s₂.rsp = none := h.rsp_eq ▸ hrsp
      cases hcmd : p.cmd with
      | none => exact ⟨_, _, hostMoment_of_quiet hrst hrsp hcmd, hostMoment_of_quiet hrst hrsp₂ hcmd, h⟩
      | some w =>
        refine ⟨_, _, (hostMoment_of_command hrst hrsp hcmd).trans (accept_of_fault hp w),
          (hostMoment_of_command hrst hrsp₂ hcmd).trans (accept_of_fault (h.phase_eq ▸ hp) w), ?_⟩
        rw [h.faultData_eq]
        exact h.withRsp _

end SameView

/-- Settles O18: the two states have the same moment ahead, which answers from what they agree on. -/
theorem faultHidesData : Obligations.FaultHidesData := by
  intro s₁ s₂ t₁ hp h hstep
  cases hin : s₁.inputs with
  | nil =>
    cases (step_of_nil hin).symm.trans hstep
    exact ⟨s₂, step_of_nil (h.inputs_eq ▸ hin), h⟩
  | cons p rest =>
    obtain ⟨u₁, u₂, hu₁, hu₂, hview⟩ := (h.withInputs rest).hostMoment_of_fault hp p
    cases (((step_of_cons hin).trans hu₁).symm.trans hstep)
    exact ⟨u₂, (step_of_cons (h.inputs_eq ▸ hin)).trans hu₂, hview⟩

end Sys2Proof
end

section
/-! SUPPORT. A reset moment (70_reset_and_hazards.md R230, R237): nothing else presented with it, and nothing of the state
but the host's moments to come, has a say. -/

namespace Sys2Proof.Machine

/-- `rst` is looked at before the pending response and the presented command (R237). -/
theorem hostMoment_of_rst {p : Pins} (hrst : p.rst = true) (s : State) : hostMoment p s = .next s.assertReset :=
  if_pos hrst

/-- Reset forgets the whole state but the moments still ahead (R230). -/
theorem assertReset_withInputs (s : State) (rest : List Pins) :
    ({ s with inputs := rest } : State).assertReset = { State.reset with inputs := rest } := rfl

/-- Settles O8: the step is the host's moment, a reset moment is `assertReset` whatever the state holds and the other pins
say, and `assertReset` keeps the moments ahead alone. -/
theorem resetWinsFromAnyState : Obligations.ResetWinsFromAnyState := by
  intro s p rest hin hrst
  calc step s = hostMoment p { s with inputs := rest } := step_of_cons hin
    _ = .next ({ s with inputs := rest } : State).assertReset := hostMoment_of_rst hrst _
    _ = .next { State.reset with inputs := rest } := congrArg Host.Outcome.next (assertReset_withInputs s rest)

end Sys2Proof.Machine
end
